-- ==== Sys2Proof/Word.lean ====
section
/-! DEFINITION. Word.lean: the word and byte types, and the three plain name sets the block's words and registers
use: its two channels, its two command ports and the widths of an access. -/

namespace Sys2Proof

/-- A 32-bit address or register value (00_scope R11). -/
abbrev Word := BitVec 32

/-- A 16-bit value: a sample, a pixel (00_scope R13, 44_display_pipeline R268). -/
abbrev HalfWord := BitVec 16

/-- The unit of memory (20_memory R80). -/
abbrev Byte := BitVec 8

/-- A pipeline: `A` is audio, `V` is display (00_scope R2, R16). -/
inductive Channel where
  | A
  | V
  deriving DecidableEq, Repr

/-- A command port: port 0 is the producer's, port 1 the consumer's (10_state R31). -/
inductive Port where
  | p0
  | p1
  deriving DecidableEq, Repr

/-- The width of a core's access (20_memory R87, 10_state R30). -/
inductive Width where
  | byte
  | half
  | word
  deriving DecidableEq, Repr

/-- The `CH` bit that names a channel (30_encoding R110). -/
def Channel.bit : Channel → Bool
  | .A => false
  | .V => true

/-- The channel that a `CH` bit names (30_encoding R110). -/
def Channel.ofBit : Bool → Channel
  | false => .A
  | true => .V

/-- How many bytes an access of this width takes. -/
def Width.bytes : Width → Nat
  | .byte => 1
  | .half => 2
  | .word => 4

end Sys2Proof
end

