-- ==== Sys2Proof/Config.lean ====
section
/-! DEFINITION. Config.lean: the build-time parameters of 00_scope R10, and the one free value of the model. -/

namespace Sys2Proof

/-- `P_PIXEL_LAYOUT`: which nibble of the 16-bit source pixel each channel stands in, nibble `i` being bits
`4*i+3 .. 4*i` (44_display_pipeline R268). DEDUCED, safe: log 15. -/
structure PixelLayout where
  r : Fin 4
  g : Fin 4
  b : Fin 4
  a : Fin 4
  deriving DecidableEq, Repr

/-- The default layout, R[15:12] G[11:8] B[7:4] A[3:0] (00_scope R10, 44_display_pipeline R268). -/
def PixelLayout.default : PixelLayout := ⟨3, 2, 1, 0⟩

/-- The parameters of 00_scope R10, each under the name the spec gives it less its `P_`. No command changes one (R9). -/
structure Config where
  srcW : Nat
  srcH : Nat
  outW : Nat
  outH : Nat
  frac : Nat
  rescaleExact : Bool
  audCap : Nat
  sampleRate : Nat
  fsys : Nat
  divA : Nat
  divV : Nat
  fifoDepth : Nat
  chAvailA : Bool
  chAvailV : Bool
  base : Word
  abuf0 : Word
  abuf1 : Word
  sl0 : Word
  sl1 : Word
  snap0 : Word
  snap1 : Word
  wsLeft : Bool
  i2sDelay : Bool
  layout : PixelLayout
  deriving DecidableEq, Repr

/-- The configuration of `State.reset`: the reference values of 00_scope R10 and, for the parameters that R10 leaves
OPEN, values chosen here. DESIGN CHOICE, unsafe: log 2. -/
def Config.reference : Config where
  srcW := 128
  srcH := 128
  outW := 240
  outH := 240
  frac := 16
  rescaleExact := false
  audCap := 4
  sampleRate := 44100
  fsys := 22579200
  divA := 8
  divV := 2
  fifoDepth := 4
  chAvailA := true
  chAvailV := true
  base := 0x40000000#32
  abuf0 := 0x1000#32
  abuf1 := 0x1010#32
  sl0 := 0x4000#32
  sl1 := 0x4200#32
  snap0 := 0x8000#32
  snap1 := 0x10000#32
  wsLeft := false
  i2sDelay := true
  layout := PixelLayout.default

/-- The agent that moves at the `n`-th free choice, as the index of a turn: the order of enabled steps is any order
(93_implementation_defined U9, 60_exceptions R336). A FREE VALUE: it has no body. DESIGN CHOICE, safe: log 5. -/
opaque Config.freeChoice : Nat → Fin 15

end Sys2Proof
end

