-- ==== Sys2Proof/Machine/State.lean ====
section
/-! DEFINITION. State.lean: the state of the block as plain data, its fault codes, and the state right after reset.
The fields are those of 10_state R31-R47, under their names; `cfg` and `env` are the model's own (logs 1, 3, 4, 5). -/

namespace Sys2Proof.Machine

/-- The fault codes of 60_exceptions R330. A raised code is RECORDED in `State.faults` and the machine goes on (R331):
no step of this model stops with one (log 8, safe). Each docstring says who raises it. -/
inductive Fault where
  /-- code 1: issue check step 2, a `CMD` write of a word that is no legal command; recorded, never a stop (safe) -/
  | illegalCmd
  /-- code 2: issue check step 3, a command written to the other port; recorded, never a stop (safe) -/
  | illegalPort
  /-- code 3: issue check step 5, a command on a channel not initialised; recorded, never a stop (safe) -/
  | notInit
  /-- code 4: issue check step 4, INIT of an initialised channel; recorded, never a stop (safe) -/
  | doubleInit
  /-- code 5: INIT with no DMA channel; recorded, and `halted` is set (R333); never a stop (safe) -/
  | noDmaChannel
  /-- code 6: `dma_start` on a busy channel; recorded, never a stop (safe) -/
  | dmaStartBusy
  /-- code 7: `dma_start` at a misaligned address; recorded, never a stop (safe) -/
  | dmaMisaligned
  /-- code 8: reserved, raised by nobody (R347) -/
  | ownedWrite
  /-- code 9: a register access not 32 bits wide at a 4-aligned offset; recorded, never a stop (safe) -/
  | badAccess
  deriving DecidableEq, Repr

/-- The code of a fault (60_exceptions R330). -/
def Fault.code : Fault → Nat
  | .illegalCmd => 1
  | .illegalPort => 2
  | .notInit => 3
  | .doubleInit => 4
  | .noDmaChannel => 5
  | .dmaStartBusy => 6
  | .dmaMisaligned => 7
  | .ownedWrite => 8
  | .badAccess => 9

/-- Why the model has no step. -/
inductive Refusal where
  /-- `exec`, for an instruction that has no meaning yet (safe) -/
  | notModelled (mnemonic : String)
  /-- `step`, in a configuration that breaks 00_scope R10: such a configuration has no run (93 U11; safe) -/
  | badConfig
  /-- `step`, for a turn whose code is of no row of 30_encoding R114: a schedule that names no step is no run
  (log 18; safe) -/
  | noSuchStep (code : Word)
  deriving DecidableEq, Repr

/-- The memory both cores and the block share (20_memory R80): the bytes that differ from what an unlisted address
reads as, by strictly rising address. -/
abbrev Memory := List Host.Cell

/-- The registers of one command port (10_state R31, R32, R59, R61). -/
structure PortRegs where
  arg0 : Word
  arg1 : Word
  result : Word
  deriving DecidableEq, Repr

/-- The state each channel has whatever its word width (10_state R34, R35, R38). -/
structure Chan where
  inited : Bool
  smEn : Bool
  div : BitVec 16
  dmaBusy : Bool
  dmaDone : Bool
  dmaIe : Bool
  dmaAddr : Word
  dmaCount : Word
  deriving DecidableEq, Repr

/-- Which half of the bit period is driven (10_state R36). -/
inductive Half where
  | low
  | high
  deriving DecidableEq, Repr

/-- The audio timing generator (10_state R36). -/
structure TgA where
  ctr : BitVec 16
  half : Half
  slot : Fin 32
  shreg : Word
  loaded : Bool
  prevlsb : Bool
  deriving DecidableEq, Repr

/-- The display timing generator (10_state R36). -/
structure TgV where
  ctr : BitVec 16
  half : Half
  slot : Fin 8
  shreg : Byte
  loaded : Bool
  deriving DecidableEq, Repr

/-- The output pins (10_state R30, R37). -/
structure Pins where
  audBck : Bool
  audWs : Bool
  audDout : Bool
  lcdSck : Bool
  lcdMosi : Bool
  deriving DecidableEq, Repr

/-- One entry of the audio output stream (00_scope R14, 10_state R37). -/
inductive AudioOut where
  | frame (w : Word)
  | silence
  deriving DecidableEq, Repr

/-- The Pipeline State of channel A (10_state R40). The ids are one bit, `false` for 0 and `true` for 1. -/
structure Ring where
  activeId : Bool
  fillId : Bool
  ready : Bool
  xferLen : Word
  deriving DecidableEq, Repr

/-- The producer's render sequencer (10_state R45). -/
inductive PPhase where
  | idle
  | copy
  | publish
  deriving DecidableEq, Repr

/-- The consumer's scanline sequencer (10_state R46). -/
inductive CPhase where
  | idle
  | wait
  | build
  | start
  | drain
  deriving DecidableEq, Repr

/-- The handoff and the two sequencers of channel V (10_state R44-R46). The slots are one bit. -/
structure Video where
  pending : Bool
  fresh : Bool
  consSlot : Bool
  pubSlot : Bool
  wrSlot : Bool
  pphase : PPhase
  rfSrc : Word
  cphase : CPhase
  brow : BitVec 16
  trow : BitVec 16
  deriving DecidableEq, Repr

/-- `FAULTS`: bit `n` is set iff code `n` was raised since reset (10_state R47, R69). -/
abbrev FaultSet := BitVec 10

/-- One access a core makes: a register read or write at an offset of the window (10_state R58), or a load or store
of the shared memory (20_memory R80, R94; log 17). -/
inductive Access where
  | read (off : BitVec 8) (width : Width)
  | write (off : BitVec 8) (width : Width) (value : Word)
  | load (addr : Word) (width : Width)
  | store (addr : Word) (width : Width) (value : Word)
  deriving DecidableEq, Repr

/-- Who moves next (00_scope R7, 60_exceptions R336; log 3). -/
inductive Turn where
  /-- core `p` makes its next access -/
  | core (p : Port)
  /-- the agent of this event code takes its step, if it is enabled (30_encoding R111, R114) -/
  | event (code : Word)
  /-- a rising edge of `clk` with `rst = 0` (41_serial_sm R160) -/
  | clk
  /-- a reset: `rst = 1`, up to and with the first `clk` edge after it (10_state R71; log 14) -/
  | rst
  deriving DecidableEq, Repr

/-- The outside world as the step reads it: the model's own fields (logs 3, 4, 5). -/
structure Env where
  /-- the accesses core 0 and core 1 have still to make, oldest first -/
  prog0 : List Access
  prog1 : List Access
  /-- the values returned to core 0 and core 1 by their reads, oldest first -/
  ret0 : List Word
  ret1 : List Word
  /-- the turns still to take, oldest first -/
  sched : List Turn
  /-- how many turns were chosen freely -/
  choices : Nat
  deriving DecidableEq, Repr

/-- The whole state. -/
structure State where
  cfg : Config
  mem : Memory
  port0 : PortRegs
  port1 : PortRegs
  chanA : Chan
  chanV : Chan
  fifoA : List Word
  fifoV : List Byte
  tgA : TgA
  tgV : TgV
  pins : Pins
  outA : List AudioOut
  outV : List Byte
  ring : Ring
  video : Video
  faults : FaultSet
  halted : Bool
  env : Env
  deriving DecidableEq, Repr

/-- The outcome of a meaning. -/
abbrev Result := Host.Outcome State Fault Refusal

/-- The channel's shared state. -/
def State.chan (s : State) : Channel → Chan
  | .A => s.chanA
  | .V => s.chanV

/-- The state with one channel's shared state replaced. -/
def State.setChan (s : State) (ch : Channel) (c : Chan) : State :=
  match ch with
  | .A => { s with chanA := c }
  | .V => { s with chanV := c }

/-- The registers of a port. -/
def State.port (s : State) : Port → PortRegs
  | .p0 => s.port0
  | .p1 => s.port1

/-- The state with one port's registers replaced. -/
def State.setPort (s : State) (p : Port) (r : PortRegs) : State :=
  match p with
  | .p0 => { s with port0 := r }
  | .p1 => { s with port1 := r }

/-- The accesses core `p` has still to make. -/
def State.prog (s : State) : Port → List Access
  | .p0 => s.env.prog0
  | .p1 => s.env.prog1

/-- The state with core `p`'s remaining accesses replaced. -/
def State.setProg (s : State) (p : Port) (l : List Access) : State :=
  match p with
  | .p0 => { s with env.prog0 := l }
  | .p1 => { s with env.prog1 := l }

/-- The values returned to core `p`. -/
def State.returned (s : State) : Port → List Word
  | .p0 => s.env.ret0
  | .p1 => s.env.ret1

/-- The state after a read of core `p` returned `v`. -/
def State.giveBack (s : State) (p : Port) (v : Word) : State :=
  match p with
  | .p0 => { s with env.ret0 := s.env.ret0 ++ [v] }
  | .p1 => { s with env.ret1 := s.env.ret1 ++ [v] }

/-- The state with the turns still to take replaced. -/
def State.setSched (s : State) (l : List Turn) : State := { s with env.sched := l }

/-- The shared state of a channel after reset (10_state R71). -/
def Chan.reset : Chan := ⟨false, false, 0, false, false, false, 0, 0⟩

/-- The idle state of the audio timing generator, after reset and after `tg_reset` (10_state R71, 41_serial_sm R174). -/
def TgA.idle : TgA := ⟨0, .low, 0, 0, false, false⟩

/-- The idle state of the display timing generator (10_state R71, 41_serial_sm R174). -/
def TgV.idle : TgV := ⟨0, .low, 0, 0, false⟩

/-- The block in configuration `c` right after a reset, with memory `m` and outside world `e`: every field of
10_state R71 at its value there. Memory is not reset (R71) and the outside world is not the block's. -/
def State.resetIn (c : Config) (m : Memory) (e : Env) : State where
  cfg := c
  mem := m
  port0 := ⟨0, 0, 0⟩
  port1 := ⟨0, 0, 0⟩
  chanA := Chan.reset
  chanV := Chan.reset
  fifoA := []
  fifoV := []
  tgA := TgA.idle
  tgV := TgV.idle
  pins := ⟨false, c.wsLeft, false, false, false⟩
  outA := []
  outV := []
  ring := ⟨false, true, false, 0⟩
  video := ⟨false, false, false, false, false, .idle, 0, .idle, 0, 0⟩
  faults := 0
  halted := false
  env := e

/-- The machine right after reset, in the configuration `Config.reference` (log 2), memory with nothing listed (log 6),
no access and no turn pending (log 4). -/
def State.reset : State := State.resetIn Config.reference [] ⟨[], [], [], [], [], 0⟩

end Sys2Proof.Machine
end

