-- ==== Sys2Proof/Machine/Flags.lean ====
section
/-! DEFINITION. Flags.lean: every status word of the register map, computed from the state (10_state R60, R62-R69),
and the conditions the rules name (10_state R33, R45, R46; 42_dma R198). -/

namespace Sys2Proof.Machine

/-- `copying` (10_state R45). -/
def State.copying (s : State) : Bool := decide (s.video.pphase ≠ .idle)

/-- `consuming` (10_state R46). -/
def State.consuming (s : State) : Bool :=
  match s.video.cphase with
  | .idle | .wait => false
  | .build | .start | .drain => true

/-- `BUSYp` (10_state R33). -/
def State.busy (s : State) : Port → Bool
  | .p0 => decide (s.video.pphase ≠ .idle)
  | .p1 => decide (s.video.cphase ≠ .idle)

/-- `irq_req[ch]` (42_dma R198, 43_audio_ring R230). -/
def State.irqReq (s : State) (ch : Channel) : Bool := (s.chan ch).dmaDone && (s.chan ch).dmaIe

/-- `len(fifo[ch])`. -/
def State.fifoLen (s : State) : Channel → Nat
  | .A => s.fifoA.length
  | .V => s.fifoV.length

/-- A read of `CMDp` (10_state R60). -/
def State.cmdWord (s : State) (p : Port) : Word := 0#31 ++ BitVec.ofBool (s.busy p)

/-- `ch_CTRL` (10_state R62). -/
def State.ctrlWord (s : State) (ch : Channel) : Word :=
  0#29 ++ BitVec.ofBool (s.chan ch).dmaIe ++ BitVec.ofBool (s.chan ch).smEn ++ BitVec.ofBool (s.chan ch).inited

/-- `ch_DMA_STATUS` (10_state R63). -/
def State.dmaStatusWord (s : State) (ch : Channel) : Word :=
  0#16 ++ BitVec.ofNat 8 (s.fifoLen ch) ++ 0#4
    ++ BitVec.ofBool (decide (s.fifoLen ch = s.cfg.fifoDepth)) ++ BitVec.ofBool (decide (s.fifoLen ch = 0))
    ++ BitVec.ofBool (s.chan ch).dmaDone ++ BitVec.ofBool (s.chan ch).dmaBusy

/-- `ch_CLKDIV` (10_state R64). -/
def State.clkdivWord (s : State) (ch : Channel) : Word := 0#16 ++ (s.chan ch).div

/-- `RING_STATUS` (10_state R66). -/
def State.ringStatusWord (s : State) : Word :=
  0#29 ++ BitVec.ofBool s.ring.fillId ++ BitVec.ofBool s.ring.activeId ++ BitVec.ofBool s.ring.ready

/-- `RING_CAP` (10_state R66). -/
def State.ringCapWord (s : State) : Word := BitVec.ofNat 32 s.cfg.audCap

/-- The code of a consumer phase (10_state R67). -/
def CPhase.code : CPhase → BitVec 3
  | .idle => 0
  | .wait => 1
  | .build => 2
  | .start => 3
  | .drain => 4

/-- The code of a producer phase (10_state R67). -/
def PPhase.code : PPhase → BitVec 2
  | .idle => 0
  | .copy => 1
  | .publish => 2

/-- `HS_STATUS` (10_state R67). -/
def State.hsStatusWord (s : State) : Word :=
  0#18 ++ s.video.pphase.code ++ 0#1 ++ s.video.cphase.code ++ 0#1
    ++ BitVec.ofBool s.video.wrSlot ++ BitVec.ofBool s.video.pubSlot ++ BitVec.ofBool s.video.consSlot
    ++ BitVec.ofBool s.consuming ++ BitVec.ofBool s.copying
    ++ BitVec.ofBool s.video.fresh ++ BitVec.ofBool s.video.pending

/-- `HS_ROWS` (10_state R68). -/
def State.hsRowsWord (s : State) : Word := s.video.trow ++ s.video.brow

/-- The fault of this code was raised since reset (10_state R47). -/
def State.hasFault (s : State) (f : Fault) : Bool := s.faults.getLsbD f.code

/-- `FAULT` (10_state R69). -/
def State.faultWord (s : State) : Word :=
  BitVec.ofBool s.halted ++ 0#21 ++ s.faults.extractLsb' 1 9 ++ 0#1

end Sys2Proof.Machine
end

