-- ==== Sys2Proof/Syntax.lean ====
section
/-! DEFINITION. Syntax.lean: the instructions, one constructor for each row of spec/opcode_table.json: the 8 commands
of 30_encoding R113 and the 11 event rows of 30_encoding R114. -/

namespace Sys2Proof

/-- A command, or the name of an internal step. A row whose `CH` bit is free carries the channel; every other row
fixes it (30_encoding R113, R114). -/
inductive Instr where
  -- commands (format CMD)
  | nop (ch : Channel)
  | init (ch : Channel)
  | start (ch : Channel)
  | stop (ch : Channel)
  | queueSamples
  | bufferReady
  | renderFrame
  | sendFrame
  -- internal steps (format EVT)
  | smEmitA
  | smEmitV
  | smSilence
  | dmaBeat (ch : Channel)
  | airqSwap
  | rfCopy
  | rfPublish
  | sfTake
  | sfBuild
  | sfStart
  | sfFinish
  deriving DecidableEq, Repr

end Sys2Proof
end

