-- ==== Sys2Proof/WellFormed.lean ====
section
/-! DEFINITION. WellFormed.lean: what a well-formed instruction and a well-formed configuration are. Every term of
`Instr` is an instruction of its row; what can be ill-formed is the place it is used: a command on a port its row does
not admit, an internal step written as a command, a command named as an internal step. -/

namespace Sys2Proof

/-- The rows of format EVT: the internal steps (30_encoding R111, R114). -/
def Instr.isEvent : Instr → Bool
  | .nop _ | .init _ | .start _ | .stop _ | .queueSamples | .bufferReady | .renderFrame | .sendFrame => false
  | .smEmitA | .smEmitV | .smSilence | .dmaBeat _ | .airqSwap | .rfCopy | .rfPublish
  | .sfTake | .sfBuild | .sfStart | .sfFinish => true

/-- The port column of 30_encoding R113: NOP is admitted on both ports, SEND_FRAME on port 1, every other command on
port 0. An internal step is admitted on none (R116). -/
def Instr.admits : Instr → Port → Bool
  | .nop _, _ => true
  | .sendFrame, .p1 => true
  | .sendFrame, .p0 => false
  | .init _, p | .start _, p | .stop _, p | .queueSamples, p | .bufferReady, p | .renderFrame, p => decide (p = .p0)
  | .smEmitA, _ | .smEmitV, _ | .smSilence, _ | .dmaBeat _, _ | .airqSwap, _ | .rfCopy, _ | .rfPublish, _
  | .sfTake, _ | .sfBuild, _ | .sfStart, _ | .sfFinish, _ => false

/-- The command `i` written to `CMDp` is well-formed: a row of 30_encoding R113 that admits port `p`. -/
abbrev Instr.WellFormedCommand (i : Instr) (p : Port) : Prop := i.isEvent = false ∧ i.admits p = true

/-- The step named `i` is well-formed as an agent's turn: a row of 30_encoding R114. -/
abbrev Instr.WellFormedEvent (i : Instr) : Prop := i.isEvent = true

/-- A stretch of the address space: its first address and its size in bytes. -/
structure Region where
  base : Nat
  size : Nat
  deriving DecidableEq, Repr

/-- The two regions share no address. -/
abbrev Region.Apart (x y : Region) : Prop := x.base + x.size ≤ y.base ∨ y.base + y.size ≤ x.base

/-- The region lies within the 32-bit address space. -/
abbrev Region.Inside (x : Region) : Prop := x.base + x.size ≤ 2 ^ 32

/-- The six buffer regions of 00_scope R10, with the sizes R10 gives them. -/
def Config.buffers (c : Config) : List Region :=
  [⟨c.abuf0.toNat, 4 * c.audCap⟩, ⟨c.abuf1.toNat, 4 * c.audCap⟩,
   ⟨c.sl0.toNat, 2 * c.outW⟩, ⟨c.sl1.toNat, 2 * c.outW⟩,
   ⟨c.snap0.toNat, 2 * c.srcW * c.srcH⟩, ⟨c.snap1.toNat, 2 * c.srcW * c.srcH⟩]

/-- The register window of 10_state R58, `P_BASE .. P_BASE + 0xFF`, as two stretches: from `P_BASE` up, and from 0 what
passes the top of the address space (address arithmetic is modulo 2^32, 00_scope R12; DEDUCED, safe: log 16). -/
def Config.window (c : Config) : List Region :=
  [⟨c.base.toNat, min 256 (2 ^ 32 - c.base.toNat)⟩, ⟨0, c.base.toNat + 256 - 2 ^ 32⟩]

/-- Every size and divisor lies in the range 00_scope R10 gives it. -/
abbrev Config.SizesOk (c : Config) : Prop :=
  (1 ≤ c.srcW ∧ c.srcW ≤ 65535) ∧ (1 ≤ c.srcH ∧ c.srcH ≤ 65535) ∧
  (1 ≤ c.outW ∧ c.outW ≤ 65535) ∧ (1 ≤ c.outH ∧ c.outH ≤ 65535) ∧
  c.frac = 16 ∧ 1 ≤ c.audCap ∧ 0 < c.sampleRate ∧ 0 < c.fsys ∧
  (1 ≤ c.divA ∧ c.divA ≤ 65535) ∧ (1 ≤ c.divV ∧ c.divV ≤ 65535) ∧
  (1 ≤ c.fifoDepth ∧ c.fifoDepth ≤ 255)

/-- The alignments of 00_scope R10. -/
abbrev Config.AlignedOk (c : Config) : Prop :=
  c.base.toNat % 4 = 0 ∧ c.abuf0.toNat % 4 = 0 ∧ c.abuf1.toNat % 4 = 0

/-- The placement rule of 00_scope R10: the six buffers do not overlap one another or the register map, and each buffer
lies within the address space. -/
abbrev Config.PlacedOk (c : Config) : Prop :=
  c.buffers.Pairwise Region.Apart ∧ (∀ r ∈ c.buffers, r.Inside) ∧ ∀ w ∈ c.window, ∀ r ∈ c.buffers, w.Apart r

/-- The four channels of a source pixel stand in four different nibbles (44_display_pipeline R268; DEDUCED, safe, log 15). -/
abbrev PixelLayout.Distinct (l : PixelLayout) : Prop := [l.r, l.g, l.b, l.a].Nodup

/-- A configuration that keeps every constraint of 00_scope R10; any other has no run (R10, 93_implementation_defined U11). -/
abbrev Config.WellFormed (c : Config) : Prop := c.SizesOk ∧ c.AlignedOk ∧ c.PlacedOk ∧ c.layout.Distinct

end Sys2Proof
end

