-- ==== Sys2Proof/Decode.lean ====
section
/-! DEFINITION. Decode.lean: the decoder, total on any bytes and any word, and the encoder, both from the tables of
30_encoding R110, R113 and R114. -/

namespace Sys2Proof

/-- Why a word is no instruction, or no command. -/
inductive Reject where
  /-- fewer than four bytes: a command is one 32-bit word (30_encoding R110) -/
  | tooShort
  /-- `RSV`, bits 31:9, is not 0 (30_encoding R115 step 1) -/
  | reservedBits
  /-- the operation code is of no row (30_encoding R115 step 2) -/
  | reservedOp
  /-- the row does not admit the `CH` bit (30_encoding R115 step 3) -/
  | channel
  /-- the code of an internal step, written as a command (30_encoding R111, R116) -/
  | eventCode
  deriving DecidableEq, Repr

/-- `OP`, bits 7:0 (30_encoding R110). -/
def opField (w : Word) : BitVec 8 := w.extractLsb' 0 8

/-- `CH`, bit 8 (30_encoding R110). -/
def chField (w : Word) : Channel := Channel.ofBit (w.getLsbD 8)

/-- `RSV`, bits 31:9 (30_encoding R110). -/
def rsvField (w : Word) : BitVec 23 := w.extractLsb' 9 23

/-- A row that fixes its `CH` bit. -/
def onChannel (want ch : Channel) (i : Instr) : Except Reject Instr :=
  if ch = want then .ok i else .error .channel

/-- The row of an operation code (30_encoding R113, R114). -/
def decodeRow (op : BitVec 8) (ch : Channel) : Except Reject Instr :=
  match op with
  | 0x00#8 => .ok (.nop ch)
  | 0x01#8 => .ok (.init ch)
  | 0x02#8 => .ok (.start ch)
  | 0x03#8 => .ok (.stop ch)
  | 0x10#8 => onChannel .A ch .queueSamples
  | 0x11#8 => onChannel .A ch .bufferReady
  | 0x20#8 => onChannel .V ch .renderFrame
  | 0x21#8 => onChannel .V ch .sendFrame
  | 0x80#8 => .ok (match ch with | .A => .smEmitA | .V => .smEmitV)
  | 0x81#8 => onChannel .A ch .smSilence
  | 0x90#8 => .ok (.dmaBeat ch)
  | 0xA0#8 => onChannel .A ch .airqSwap
  | 0xB0#8 => onChannel .V ch .rfCopy
  | 0xB1#8 => onChannel .V ch .rfPublish
  | 0xC0#8 => onChannel .V ch .sfTake
  | 0xC1#8 => onChannel .V ch .sfBuild
  | 0xC2#8 => onChannel .V ch .sfStart
  | 0xC3#8 => onChannel .V ch .sfFinish
  | _ => .error .reservedOp

/-- The instruction of a word, of either format (30_encoding R110, R111, R115). -/
def decodeWord (w : Word) : Except Reject Instr :=
  if rsvField w = 0#23 then decodeRow (opField w) (chField w) else .error .reservedBits

/-- The command of a word written to a `CMD` register; the code of an internal step is illegal there
(30_encoding R115, R116). -/
def decodeCommand (w : Word) : Except Reject Instr :=
  match decodeWord w with
  | .ok i => if i.isEvent then .error .eventCode else .ok i
  | .error e => .error e

/-- The four bytes of a word, least significant first (20_memory R82). -/
def wordBytes (w : Word) : List Byte :=
  [w.extractLsb' 0 8, w.extractLsb' 8 8, w.extractLsb' 16 8, w.extractLsb' 24 8]

/-- The instruction at the head of a byte sequence, with the bytes that follow it. -/
def decode : List Byte → Except Reject (Instr × List Byte)
  | b0 :: b1 :: b2 :: b3 :: rest =>
    match decodeWord (b3 ++ b2 ++ b1 ++ b0) with
    | .ok i => .ok (i, rest)
    | .error e => .error e
  | _ => .error .tooShort

/-- The word with an operation code and a `CH` bit, `RSV` being 0 (30_encoding R110). -/
def instrWord (op : BitVec 8) (ch : Channel) : Word := 0#23 ++ BitVec.ofBool ch.bit ++ op

/-- The word of an instruction (30_encoding R113, R114). -/
def encode : Instr → Word
  | .nop ch => instrWord 0x00#8 ch
  | .init ch => instrWord 0x01#8 ch
  | .start ch => instrWord 0x02#8 ch
  | .stop ch => instrWord 0x03#8 ch
  | .queueSamples => instrWord 0x10#8 .A
  | .bufferReady => instrWord 0x11#8 .A
  | .renderFrame => instrWord 0x20#8 .V
  | .sendFrame => instrWord 0x21#8 .V
  | .smEmitA => instrWord 0x80#8 .A
  | .smEmitV => instrWord 0x80#8 .V
  | .smSilence => instrWord 0x81#8 .A
  | .dmaBeat ch => instrWord 0x90#8 ch
  | .airqSwap => instrWord 0xA0#8 .A
  | .rfCopy => instrWord 0xB0#8 .V
  | .rfPublish => instrWord 0xB1#8 .V
  | .sfTake => instrWord 0xC0#8 .V
  | .sfBuild => instrWord 0xC1#8 .V
  | .sfStart => instrWord 0xC2#8 .V
  | .sfFinish => instrWord 0xC3#8 .V

/-- The bytes of an instruction. -/
def encodeBytes (i : Instr) : List Byte := wordBytes (encode i)

/-- The word of the opcode table whose lowest `nbits` bits are those of `w`, the bits above being 0. -/
def tableWord (nbits w : Nat) : Word := BitVec.ofNat 32 (w % 2 ^ nbits)

/-- The instruction the decoder reads from a row's word, laid out in bytes as memory stores it. -/
def decodeTableWord (nbits w : Nat) : Option Instr :=
  match decode (wordBytes (tableWord nbits w)) with
  | .ok (i, _) => some i
  | .error _ => none

end Sys2Proof
end

