-- ==== Sys2Proof/Machine/Memory.lean ====
section
/-! DEFINITION. Memory.lean: the named operations over memory (20_memory R80, R82). Addresses are modulo 2^32
(00_scope R12). -/

namespace Sys2Proof.Machine

/-- What a byte that nothing has written reads as. Memory is not reset and the spec leaves its power-on contents open
(10_state R71, 93 U1, U2). DESIGN CHOICE, unsafe: log 6. -/
def Memory.unlisted : Byte := 0

/-- The byte listed for an address. -/
def Memory.lookup (k : Nat) : Memory → Byte
  | [] => Memory.unlisted
  | (k', b) :: rest => if k' = k then b else Memory.lookup k rest

/-- `MemRead(a, 1)`. -/
def Memory.read (m : Memory) (a : Word) : Byte := Memory.lookup a.toNat m

/-- The list with one address's byte replaced, in canonical form. -/
def Memory.put (k : Nat) (b : Byte) : Memory → Memory
  | [] => if b = Memory.unlisted then [] else [(k, b)]
  | (k', b') :: rest =>
    if k < k' then if b = Memory.unlisted then (k', b') :: rest else (k, b) :: (k', b') :: rest
    else if k = k' then if b = Memory.unlisted then rest else (k, b) :: rest
    else (k', b') :: Memory.put k b rest

/-- `MemWrite(a, 1, b)`. -/
def Memory.write (m : Memory) (a : Word) (b : Byte) : Memory := Memory.put a.toNat b m

/-- The canonical form: addresses strictly rising and within the 2^32 bytes, no byte that need not be listed. -/
def Memory.wf (m : Memory) : Bool :=
  decide (m.Pairwise (fun x y => x.1 < y.1)) && m.all (fun c => decide (c.1 < 2 ^ 32) && decide (c.2 ≠ Memory.unlisted))

/-- The `n` bytes from `a` up. -/
def Memory.readBytes (m : Memory) (a : Word) (n : Nat) : List Byte :=
  (List.range n).map fun i => m.read (a + BitVec.ofNat 32 i)

/-- The bytes `bs` stored from `a` up, in order. -/
def Memory.writeBytes (m : Memory) (a : Word) : List Byte → Memory
  | [] => m
  | b :: bs => Memory.writeBytes (m.write a b) (a + 1#32) bs

/-- The address number `k` is one of the `n` addresses from `a` up. -/
def inRange (a : Word) (n : Nat) (k : Nat) : Bool := decide ((BitVec.ofNat 32 k - a).toNat < n)

/-- The `n` bytes from `a` up written with what an unlisted byte reads as, which is 0: the effect of
`MemWrite(a + j, 1, 0)` for every `j < n` (40_channel_control R142; log 13). -/
def Memory.zero (m : Memory) (a : Word) (n : Nat) : Memory := m.filter fun c => !inRange a n c.1

/-- `MemRead(a, 2)`, little-endian (20_memory R82). -/
def Memory.read16 (m : Memory) (a : Word) : HalfWord := m.read (a + 1#32) ++ m.read a

/-- `MemRead(a, 4)`, little-endian (20_memory R82). -/
def Memory.read32 (m : Memory) (a : Word) : Word :=
  m.read (a + 3#32) ++ m.read (a + 2#32) ++ m.read (a + 1#32) ++ m.read a

/-- `MemWrite(a, 4, v)`, little-endian (20_memory R82). -/
def Memory.write32 (m : Memory) (a : Word) (v : Word) : Memory := m.writeBytes a (wordBytes v)

/-- A core's load of shared memory, zero-extended (20_memory R80, R82). -/
def Memory.readWidth (m : Memory) (a : Word) : Width → Word
  | .byte => (m.read a).setWidth 32
  | .half => (m.read16 a).setWidth 32
  | .word => m.read32 a

/-- A core's store to shared memory: the low bytes of the value, little-endian (20_memory R80, R82). -/
def Memory.writeWidth (m : Memory) (a : Word) (w : Width) (v : Word) : Memory :=
  m.writeBytes a ((wordBytes v).take w.bytes)

end Sys2Proof.Machine
end

