-- ==== Sys2Proof/Machine/Operands.lean ====
section
/-! DEFINITION. Operands.lean: where an instruction's operands come from (30_encoding R112), the addresses and sizes of
the block's buffers, and the pure conversions: audio wire words, the fixed-point rescaler, the colour conversion. -/

namespace Sys2Proof.Machine

/-- `esz[ch]`: the DMA element size in bytes (10_state R39). -/
def esz : Channel → Nat
  | .A => 4
  | .V => 1

/-- `abuf_addr(i)` (10_state R41). -/
def abufAddr (c : Config) (i : Bool) : Word := if i then c.abuf1 else c.abuf0

/-- `sl_addr(i)` (10_state R42). -/
def slAddr (c : Config) (i : Bool) : Word := if i then c.sl1 else c.sl0

/-- `snap_addr(i)` (10_state R43). -/
def snapAddr (c : Config) (i : Bool) : Word := if i then c.snap1 else c.snap0

/-- The bytes of one Sample Buffer (10_state R41). -/
def abufSize (c : Config) : Nat := 4 * c.audCap

/-- The bytes of one Scanline Buffer, one output row in wire format (10_state R42). -/
def slSize (c : Config) : Nat := 2 * c.outW

/-- The bytes of one Frame Snapshot slot, and of the producer's framebuffer (10_state R43). -/
def snapSize (c : Config) : Nat := 2 * c.srcW * c.srcH

/-- The clock divisor parameter of a channel (00_scope R10). -/
def divOf (c : Config) : Channel → Nat
  | .A => c.divA
  | .V => c.divV

/-- `P_CH_AVAIL[ch]` (00_scope R10). -/
def chAvail (c : Config) : Channel → Bool
  | .A => c.chAvailA
  | .V => c.chAvailV

/-- `wire(s)`: both halves are the sample cast to unsigned 16 bits (43_audio_ring R221). -/
def wire (s : HalfWord) : Word := (s.setWidth 32 <<< 16) ||| s.setWidth 32

/-- The number of samples QUEUE_SAMPLES accepts (43_audio_ring R222). -/
def accepted (c : Config) (count : Word) : Nat := min count.toNat c.audCap

/-- Sample `i` of the source at `ptr`, any alignment (43_audio_ring R223, 20_memory R86). -/
def sample (m : Memory) (ptr : Word) (i : Nat) : HalfWord := m.read16 (ptr + BitVec.ofNat 32 (2 * i))

/-- The bytes of the first `n` samples' wire words, in the order they stand in a Sample Buffer (43_audio_ring R223). -/
def wireBytes (m : Memory) (ptr : Word) (n : Nat) : List Byte :=
  (List.range n).flatMap fun i => wordBytes (wire (sample m ptr i))

/-- `scale(src, out)` (44_display_pipeline R261). -/
def scale (c : Config) (src out : Nat) : Nat := (src <<< c.frac) / out

/-- The source index of output index `r`, both forms (44_display_pipeline R262). -/
def rescale (c : Config) (src out r : Nat) : Nat :=
  if c.rescaleExact then (((r * src) <<< c.frac) / out) >>> c.frac else (r * scale c src out) >>> c.frac

/-- `srow(r)` (44_display_pipeline R262). -/
def srow (c : Config) (r : Nat) : Nat := rescale c c.srcH c.outH r

/-- `scol(x)` (44_display_pipeline R263). -/
def scol (c : Config) (x : Nat) : Nat := rescale c c.srcW c.outW x

/-- Nibble `i` of a source pixel (44_display_pipeline R268). -/
def nibble (pix : HalfWord) (i : Fin 4) : BitVec 4 := pix.extractLsb' (4 * i.val) 4

/-- The 5-bit field of a 4-bit channel (44_display_pipeline R266). -/
def expand5 (x : BitVec 4) : BitVec 5 := (x.setWidth 5 <<< 1) ||| (x.setWidth 5 >>> 3)

/-- The 6-bit field of a 4-bit channel (44_display_pipeline R266). -/
def expand6 (x : BitVec 4) : BitVec 6 := (x.setWidth 6 <<< 2) ||| (x.setWidth 6 >>> 2)

/-- `rgb565(R, G, B)` (44_display_pipeline R266). -/
def rgb565 (r g b : BitVec 4) : HalfWord :=
  ((expand5 r).setWidth 16 <<< 11) ||| ((expand6 g).setWidth 16 <<< 5) ||| (expand5 b).setWidth 16

/-- The wire colour of a source pixel; alpha is dropped (44_display_pipeline R266, R268). -/
def pixelColour (l : PixelLayout) (pix : HalfWord) : HalfWord :=
  rgb565 (nibble pix l.r) (nibble pix l.g) (nibble pix l.b)

/-- The address of pixel `(x, y)` of snapshot slot `k` (44_display_pipeline R269). -/
def pixelAddr (c : Config) (k : Bool) (x y : Nat) : Word :=
  snapAddr c k + BitVec.ofNat 32 (2 * (y * c.srcW + x))

/-- The wire colour of output pixel `(x, r)` of the frame in slot `k` (44_display_pipeline R273). -/
def outPixel (c : Config) (m : Memory) (k : Bool) (r x : Nat) : HalfWord :=
  pixelColour c.layout (m.read16 (pixelAddr c k (scol c x) (srow c r)))

/-- A pixel as it stands in a Scanline Buffer, high byte first (44_display_pipeline R273, 20_memory R84). -/
def pixelBytes (p : HalfWord) : List Byte := [p.extractLsb' 8 8, p.extractLsb' 0 8]

/-- The bytes of output row `r` of the frame in slot `k` (44_display_pipeline R273). -/
def rowBytes (c : Config) (m : Memory) (k : Bool) (r : Nat) : List Byte :=
  (List.range c.outW).flatMap fun x => pixelBytes (outPixel c m k r x)

end Sys2Proof.Machine
end

