-- ==== Sys2Proof/Machine/Ops.lean ====
section
/-! DEFINITION. Ops.lean: the operations the meanings share: taking a fault (60_exceptions R331, R333), holding and
awaiting (00_scope R14), the issue checks of a command (40_channel_control R140), the DMA engine's functions
(42_dma R191, R194, R197), the reset of a timing generator (41_serial_sm R174) and the transmit FIFOs. -/

namespace Sys2Proof.Machine

/-- The bit of a fault in `FAULTS` (10_state R69). -/
def Fault.bit (f : Fault) : FaultSet := 1#10 <<< f.code

/-- TAKING A FAULT: `raise Fault(code)`. The code joins the sticky set and nothing else changes, except that
NO_DMA_CHANNEL also sets `halted` (60_exceptions R331, R333). There is no vector, no saved state, no mode and no
return from a fault (R337, R338). -/
def State.raise (s : State) (f : Fault) : State :=
  { s with faults := s.faults ||| f.bit, halted := s.halted || decide (f = .noDmaChannel) }

/-- A step that may raise a fault: a raised fault cancels all of it (60_exceptions R331). -/
def attempt (s : State) : Except Fault State → Result
  | .ok t => .next t
  | .error f => .next (s.raise f)

/-- `await c`: the step is enabled only while `c` holds; a turn given to a step that is not enabled changes nothing
(00_scope R14; log 3). -/
def await (c : Bool) (s : State) (k : Except Fault State) : Result := if c then attempt s k else .next s

/-- The issue of a command on the port its row admits: a busy port holds the writer (10_state R33), a halted block
ignores the write (40_channel_control R140 step 1), else the command runs. The decode and port checks, steps 2 and 3,
are `issue`'s. DESIGN CHOICE, safe: log 11. -/
def command (p : Port) (s : State) (k : Except Fault State) : Result :=
  if s.busy p then .next s else if s.halted then .next s else attempt s k

/-- Issue check step 5 (40_channel_control R140). -/
def needInit (ch : Channel) (s : State) (k : Except Fault State) : Except Fault State :=
  if (s.chan ch).inited then k else .error .notInit

/-- Issue check step 4 (40_channel_control R140). -/
def needNoInit (ch : Channel) (s : State) (k : Except Fault State) : Except Fault State :=
  if (s.chan ch).inited then .error .doubleInit else k

/-- `dma_start(ch, addr, count)` (42_dma R191, R192). -/
def dmaStart (ch : Channel) (addr count : Word) (s : State) : Except Fault State :=
  if (s.chan ch).dmaBusy then .error .dmaStartBusy
  else if addr.toNat % esz ch ≠ 0 then .error .dmaMisaligned
  else .ok (s.setChan ch { s.chan ch with
    dmaAddr := addr, dmaCount := count, dmaDone := decide (count = 0#32), dmaBusy := decide (count ≠ 0#32) })

/-- `dma_abort(ch)` (42_dma R194). -/
def dmaAbort (ch : Channel) (s : State) : State :=
  s.setChan ch { s.chan ch with dmaBusy := false, dmaDone := false }

/-- `dma_ack(ch)`: the acknowledge of the swap interrupt, whose return is the end of its step (42_dma R197,
60_exceptions R338). -/
def dmaAck (ch : Channel) (s : State) : State := s.setChan ch { s.chan ch with dmaDone := false }

/-- The address and count of a channel after one element (42_dma R193). A count of 0 would wrap; no busy channel has one
(DEDUCED, safe: log 20). -/
def Chan.afterBeat (c : Chan) (size : Nat) : Chan :=
  { c with
    dmaAddr := c.dmaAddr + BitVec.ofNat 32 size
    dmaCount := c.dmaCount - 1#32
    dmaBusy := c.dmaBusy && decide (c.dmaCount - 1#32 ≠ 0#32)
    dmaDone := c.dmaDone || decide (c.dmaCount - 1#32 = 0#32) }

/-- `tg_reset(ch)`, with the channel's pins at their idle levels (41_serial_sm R170, R174). -/
def tgReset (ch : Channel) (s : State) : State :=
  match ch with
  | .A => { s with tgA := TgA.idle,
                   pins := { s.pins with audBck := false, audWs := s.cfg.wsLeft, audDout := false } }
  | .V => { s with tgV := TgV.idle, pins := { s.pins with lcdSck := false, lcdMosi := false } }

/-- `fifo[ch] <- empty`. -/
def flushFifo (ch : Channel) (s : State) : State :=
  match ch with
  | .A => { s with fifoA := [] }
  | .V => { s with fifoV := [] }

/-- The swap of the two Sample Buffers' owners: both ids are exchanged and the Readiness Flag is cleared
(43_audio_ring R220, R223, R231). -/
def swapRing (s : State) : State :=
  { s with ring := { s.ring with activeId := s.ring.fillId, fillId := s.ring.activeId, ready := false } }

end Sys2Proof.Machine
end

