-- ==== Sys2Proof/Machine/AudioRing.lean ====
section
/-! DEFINITION. AudioRing.lean: QUEUE_SAMPLES, BUFFER_READY and the swap interrupt AIRQ_SWAP (43_audio_ring). -/

namespace Sys2Proof.Machine

/-- The fill buffer written and marked ready (43_audio_ring R223). Every sample is read before any word is written. -/
def fillBuffer (s : State) : State :=
  let n := accepted s.cfg s.port0.arg1
  { s with
    mem := s.mem.writeBytes (abufAddr s.cfg s.ring.fillId) (wireBytes s.mem s.port0.arg0 n)
    ring := { s.ring with xferLen := BitVec.ofNat 32 n, ready := true } }

/-- The start of a transfer on the buffer just swapped in (43_audio_ring R223, R231). -/
def swapAndStart (s : State) : Except Fault State :=
  dmaStart .A (abufAddr s.cfg s.ring.fillId) s.ring.xferLen (swapRing s)

/-- QUEUE_SAMPLES (43_audio_ring R222-R224). A null pointer or a zero count has no effect at all. -/
def execQueueSamples (s : State) : Result :=
  command .p0 s <| needInit .A s <|
    if s.port0.arg0 = 0#32 ∨ s.port0.arg1 = 0#32 then .ok s
    else if s.chanA.dmaBusy then .ok (fillBuffer s) else swapAndStart (fillBuffer s)

/-- BUFFER_READY (43_audio_ring R226). -/
def execBufferReady (s : State) : Result :=
  command .p0 s <| needInit .A s <|
    .ok { s with port0 := { s.port0 with result := 0#31 ++ BitVec.ofBool (!s.ring.ready) } }

/-- AIRQ_SWAP (43_audio_ring R231): acknowledge, then swap and restart if a filled buffer is pending; with none the
transfer stays idle (R232). -/
def execAirqSwap (s : State) : Result :=
  await (s.irqReq .A && !s.halted) s <|
    if s.ring.ready then swapAndStart (dmaAck .A s) else .ok (dmaAck .A s)

end Sys2Proof.Machine
end

