-- ==== Sys2Proof/Machine/ChannelControl.lean ====
section
/-! DEFINITION. ChannelControl.lean: NOP, INIT, START, STOP (40_channel_control). -/

namespace Sys2Proof.Machine

/-- NOP (40_channel_control R148): no effect, on either port, before INIT and while halted alike. -/
def execNop (_ch : Channel) (s : State) : Result := .next s

/-- The part of INIT that both channels share: serial output disabled, the FIFO and the DMA engine cleared, the
divisor loaded, the channel marked initialised (40_channel_control R142). -/
def initChan (ch : Channel) (ie : Bool) (s : State) : State :=
  (flushFifo ch (tgReset ch s)).setChan ch
    { inited := true, smEn := false, div := BitVec.ofNat 16 (divOf s.cfg ch), dmaBusy := false, dmaDone := false,
      dmaIe := ie, dmaAddr := 0, dmaCount := 0 }

/-- INIT A once its checks have passed (40_channel_control R142). -/
def initA (s : State) : State :=
  initChan .A true { s with
    mem := (s.mem.zero s.cfg.abuf0 (abufSize s.cfg)).zero s.cfg.abuf1 (abufSize s.cfg)
    ring := { activeId := false, fillId := true, ready := false, xferLen := 0 } }

/-- INIT V once its checks have passed; the sequencer phases are left alone (40_channel_control R142). -/
def initV (s : State) : State :=
  initChan .V false { s with
    mem := (((s.mem.zero s.cfg.sl0 (slSize s.cfg)).zero s.cfg.sl1 (slSize s.cfg)).zero
      s.cfg.snap0 (snapSize s.cfg)).zero s.cfg.snap1 (snapSize s.cfg)
    video := { s.video with pending := false, fresh := false, consSlot := false, pubSlot := false, wrSlot := false } }

/-- INIT (40_channel_control R142-R144). With no DMA channel available it raises NO_DMA_CHANNEL, which halts (R143). -/
def execInit (ch : Channel) (s : State) : Result :=
  command .p0 s <| needNoInit ch s <|
    if chAvail s.cfg ch then .ok (match ch with | .A => initA s | .V => initV s) else .error .noDmaChannel

/-- START once its checks have passed: nothing on a started channel (40_channel_control R145). -/
def startChan (ch : Channel) (s : State) : State :=
  if (s.chan ch).smEn then s
  else (tgReset ch s).setChan ch { s.chan ch with smEn := true }

/-- START (40_channel_control R145). -/
def execStart (ch : Channel) (s : State) : Result :=
  command .p0 s <| needInit ch s <| .ok (startChan ch s)

/-- STOP once its checks have passed (40_channel_control R146). -/
def stopChan (ch : Channel) (s : State) : State :=
  tgReset ch (flushFifo ch (dmaAbort ch (s.setChan ch { s.chan ch with smEn := false })))

/-- STOP (40_channel_control R146, R147). -/
def execStop (ch : Channel) (s : State) : Result :=
  command .p0 s <| needInit ch s <| .ok (stopChan ch s)

end Sys2Proof.Machine
end

