-- ==== Sys2Proof/Machine/Display.lean ====
section
/-! DEFINITION. Display.lean: SEND_FRAME and the consumer's scanline sequencer: SF_TAKE, SF_BUILD, SF_START, SF_FINISH
(44_display_pipeline). -/

namespace Sys2Proof.Machine

/-- Row number mod 2 as a buffer index (44_display_pipeline R273, R274). -/
def rowParity (r : BitVec 16) : Bool := r.getLsbD 0

/-- SEND_FRAME (44_display_pipeline R270). -/
def execSendFrame (s : State) : Result :=
  command .p1 s <| needInit .V s <| .ok { s with video := { s.video with cphase := .wait } }

/-- SF_TAKE (44_display_pipeline R272): never while the producer copies. -/
def execSfTake (s : State) : Result :=
  await (decide (s.video.cphase = .wait) && s.video.fresh && decide (s.video.pphase = .idle) && !s.halted) s <| .ok
    { s with video := { s.video with
        consSlot := s.video.pubSlot, fresh := false, brow := 0, trow := 0, cphase := .build } }

/-- SF_BUILD (44_display_pipeline R273). The row is computed from the snapshot and then stored; the two never overlap
in a configuration that runs (log 12). -/
def execSfBuild (s : State) : Result :=
  await (decide (s.video.cphase = .build) && !s.halted) s <| .ok
    { s with
      mem := s.mem.writeBytes (slAddr s.cfg (rowParity s.video.brow))
        (rowBytes s.cfg s.mem s.video.consSlot s.video.brow.toNat)
      video := { s.video with brow := s.video.brow + 1#16, cphase := .start } }

/-- SF_START (44_display_pipeline R274): waits for the previous row's transfer. -/
def execSfStart (s : State) : Result :=
  await (decide (s.video.cphase = .start) && !s.chanV.dmaBusy && !s.halted) s <|
    dmaStart .V (slAddr s.cfg (rowParity s.video.trow)) (BitVec.ofNat 32 (slSize s.cfg))
      { s with video := { s.video with
          trow := s.video.trow + 1#16
          cphase := if s.video.brow.toNat < s.cfg.outH then .build else .drain } }

/-- SF_FINISH (44_display_pipeline R275): a frame published meanwhile stays pending. -/
def execSfFinish (s : State) : Result :=
  await (decide (s.video.cphase = .drain) && !s.chanV.dmaBusy && !s.halted) s <| .ok
    { s with video := { s.video with pending := s.video.fresh, cphase := .idle } }

end Sys2Proof.Machine
end

