-- ==== Sys2Proof/Machine/Dma.lean ====
section
/-! DEFINITION. Dma.lean: the transfer step of the two DMA engines (42_dma). -/

namespace Sys2Proof.Machine

/-- A beat may run: a transfer is in flight, the FIFO has space, the block is not halted (42_dma R193). It does not
test `sm_en` (70_reset_and_hazards R380). -/
def beatEnabled (ch : Channel) (s : State) : Bool :=
  (s.chan ch).dmaBusy && decide (s.fifoLen ch < s.cfg.fifoDepth) && !s.halted

/-- The element read and pushed into the FIFO: four bytes on A, one on V (42_dma R193). -/
def pushElement (ch : Channel) (s : State) : State :=
  match ch with
  | .A => { s with fifoA := s.fifoA ++ [s.mem.read32 s.chanA.dmaAddr] }
  | .V => { s with fifoV := s.fifoV ++ [s.mem.read s.chanV.dmaAddr] }

/-- DMA_BEAT (42_dma R193). -/
def execDmaBeat (ch : Channel) (s : State) : Result :=
  await (beatEnabled ch s) s <| .ok ((pushElement ch s).setChan ch ((s.chan ch).afterBeat (esz ch)))

end Sys2Proof.Machine
end

