-- ==== Sys2Proof/Machine/Handoff.lean ====
section
/-! DEFINITION. Handoff.lean: the producer side of the frame handoff: RENDER_FRAME, RF_COPY, RF_PUBLISH
(45_frame_handoff). -/

namespace Sys2Proof.Machine

/-- RENDER_FRAME (45_frame_handoff R301). A null framebuffer is a no-op. -/
def execRenderFrame (s : State) : Result :=
  command .p0 s <| needInit .V s <| .ok <|
    if s.port0.arg0 = 0#32 then s
    else { s with video := { s.video with rfSrc := s.port0.arg0, wrSlot := !s.video.consSlot, pphase := .copy } }

/-- RF_COPY (45_frame_handoff R302): every byte is read before any is written. -/
def execRfCopy (s : State) : Result :=
  await (decide (s.video.pphase = .copy) && !s.halted) s <| .ok
    { s with
      mem := s.mem.writeBytes (snapAddr s.cfg s.video.wrSlot) (s.mem.readBytes s.video.rfSrc (snapSize s.cfg))
      video := { s.video with pphase := .publish } }

/-- RF_PUBLISH (45_frame_handoff R303). -/
def execRfPublish (s : State) : Result :=
  await (decide (s.video.pphase = .publish) && !s.halted) s <| .ok
    { s with video := { s.video with pubSlot := s.video.wrSlot, fresh := true, pending := true, pphase := .idle } }

end Sys2Proof.Machine
end

