-- ==== Sys2Proof/Machine/SerialSm.lean ====
section
/-! DEFINITION. SerialSm.lean: the serial clock state machines at the event level, one step a word
(41_serial_sm R171-R173). These steps leave the timing generators and the pins alone (log 7); the cycle level is
TimingGenerator.lean. -/

namespace Sys2Proof.Machine

/-- SM_EMIT A (41_serial_sm R172). -/
def execSmEmitA (s : State) : Result :=
  match s.fifoA with
  | [] => .next s
  | w :: rest =>
    await (s.chanA.smEn && !s.halted) s <| .ok { s with fifoA := rest, outA := s.outA ++ [.frame w] }

/-- SM_SILENCE (41_serial_sm R172). -/
def execSmSilence (s : State) : Result :=
  await (s.chanA.smEn && decide (s.fifoA.length = 0) && !s.halted) s <| .ok { s with outA := s.outA ++ [.silence] }

/-- SM_EMIT V (41_serial_sm R173). -/
def execSmEmitV (s : State) : Result :=
  match s.fifoV with
  | [] => .next s
  | b :: rest =>
    await (s.chanV.smEn && !s.halted) s <| .ok { s with fifoV := rest, outV := s.outV ++ [b] }

end Sys2Proof.Machine
end

