-- ==== Sys2Proof/Machine/Dispatch.lean ====
section
/-! DEFINITION. Dispatch.lean: the meaning of each instruction, one arm a constructor. -/

namespace Sys2Proof.Machine

def exec (i : Instr) (s : State) : Host.Outcome State Fault Refusal :=
  match i with
  | .nop ch => Sys2Proof.Machine.execNop ch s
  | .init ch => Sys2Proof.Machine.execInit ch s
  | .start ch => Sys2Proof.Machine.execStart ch s
  | .stop ch => Sys2Proof.Machine.execStop ch s
  | .queueSamples => Sys2Proof.Machine.execQueueSamples s
  | .bufferReady => Sys2Proof.Machine.execBufferReady s
  | .renderFrame => Sys2Proof.Machine.execRenderFrame s
  | .sendFrame => Sys2Proof.Machine.execSendFrame s
  | .smEmitA => Sys2Proof.Machine.execSmEmitA s
  | .smEmitV => Sys2Proof.Machine.execSmEmitV s
  | .smSilence => Sys2Proof.Machine.execSmSilence s
  | .dmaBeat ch => Sys2Proof.Machine.execDmaBeat ch s
  | .airqSwap => Sys2Proof.Machine.execAirqSwap s
  | .rfCopy => Sys2Proof.Machine.execRfCopy s
  | .rfPublish => Sys2Proof.Machine.execRfPublish s
  | .sfTake => Sys2Proof.Machine.execSfTake s
  | .sfBuild => Sys2Proof.Machine.execSfBuild s
  | .sfStart => Sys2Proof.Machine.execSfStart s
  | .sfFinish => Sys2Proof.Machine.execSfFinish s

end Sys2Proof.Machine
end

