-- ==== Sys2Proof/Machine/Registers.lean ====
section
/-! DEFINITION. Registers.lean: the register map (10_state R58-R70) and the rule of access (20_memory R87). A write
to a `CMD` register, which issues a command, is Issue.lean's. -/

namespace Sys2Proof.Machine

/-- What a 32-bit read at an offset returns; a reserved offset reads 0 (10_state R58, R70). Reading changes nothing
(20_memory R89). -/
def readReg (s : State) (off : BitVec 8) : Word :=
  match off with
  | 0x00#8 => s.port0.arg0
  | 0x04#8 => s.port0.arg1
  | 0x08#8 => s.cmdWord .p0
  | 0x0C#8 => s.port0.result
  | 0x10#8 => s.port1.arg0
  | 0x14#8 => s.port1.arg1
  | 0x18#8 => s.cmdWord .p1
  | 0x1C#8 => s.port1.result
  | 0x40#8 => s.ctrlWord .A
  | 0x44#8 => s.dmaStatusWord .A
  | 0x48#8 => s.clkdivWord .A
  | 0x4C#8 => s.chanA.dmaAddr
  | 0x50#8 => s.chanA.dmaCount
  | 0x60#8 => s.ctrlWord .V
  | 0x64#8 => s.dmaStatusWord .V
  | 0x68#8 => s.clkdivWord .V
  | 0x6C#8 => s.chanV.dmaAddr
  | 0x70#8 => s.chanV.dmaCount
  | 0x80#8 => s.ringStatusWord
  | 0x84#8 => s.ring.xferLen
  | 0x88#8 => s.ringCapWord
  | 0xA0#8 => s.hsStatusWord
  | 0xA4#8 => s.hsRowsWord
  | 0xC0#8 => s.faultWord
  | _ => 0#32

/-- The `CMD` register at an offset (10_state R58). -/
def cmdPort (off : BitVec 8) : Option Port :=
  match off with
  | 0x08#8 => some .p0
  | 0x18#8 => some .p1
  | _ => none

/-- The offset of `CMDp` (10_state R58). -/
def cmdOffset : Port → BitVec 8
  | .p0 => 0x08#8
  | .p1 => 0x18#8

/-- A 32-bit write at an offset that is no `CMD` register: the `ARG` registers store it, a read-only register or a
reserved offset ignores it (10_state R59, R70, 20_memory R89). -/
def writeReg (s : State) (off : BitVec 8) (v : Word) : State :=
  match off with
  | 0x00#8 => { s with port0 := { s.port0 with arg0 := v } }
  | 0x04#8 => { s with port0 := { s.port0 with arg1 := v } }
  | 0x10#8 => { s with port1 := { s.port1 with arg0 := v } }
  | 0x14#8 => { s with port1 := { s.port1 with arg1 := v } }
  | _ => s

/-- The access is 32 bits wide at a 4-aligned offset (20_memory R87). -/
def accessOk (off : BitVec 8) (w : Width) : Bool := decide (w = .word) && decide (off.toNat % 4 = 0)

end Sys2Proof.Machine
end

