-- ==== Sys2Proof/Machine/TimingGenerator.lean ====
section
/-! DEFINITION. TimingGenerator.lean: the cycle level, one rising edge of `clk` (41_serial_sm R160-R169). -/

namespace Sys2Proof.Machine

/-- One edge of the divider: the next count, and whether the half bit period ends (41_serial_sm R161). The comparison
with `div - 1` is made in exact integers (log 19). -/
def divider (div ctr : BitVec 16) : BitVec 16 × Bool :=
  if ctr.toNat + 1 < div.toNat then (ctr + 1#16, false) else (0#16, true)

/-- The word-select level during audio slot `k` (41_serial_sm R164). -/
def audioWs (c : Config) (k : Fin 32) : Bool := if k.val < 16 then c.wsLeft else !c.wsLeft

/-- The data level during audio slot `k` (41_serial_sm R165). -/
def audioDout (c : Config) (t : TgA) (k : Fin 32) : Bool :=
  if c.i2sDelay then if k.val = 0 then t.prevlsb else t.shreg.getLsbD (32 - k.val)
  else t.shreg.getLsbD (31 - k.val)

/-- The pins at the start of the LOW half of the current audio slot (41_serial_sm R163-R165). -/
def driveA (s : State) : State :=
  { s with pins := { s.pins with
      audBck := false, audWs := audioWs s.cfg s.tgA.slot, audDout := audioDout s.cfg s.tgA s.tgA.slot } }

/-- `load_A()`: the next word of the FIFO, or a zero frame if it is empty (41_serial_sm R166). -/
def loadA (s : State) : State :=
  match s.fifoA with
  | w :: rest =>
    { s with fifoA := rest, outA := s.outA ++ [.frame w],
             tgA := { s.tgA with prevlsb := s.tgA.shreg.getLsbD 0, shreg := w, slot := 0 } }
  | [] =>
    { s with outA := s.outA ++ [.silence],
             tgA := { s.tgA with prevlsb := s.tgA.shreg.getLsbD 0, shreg := 0, slot := 0 } }

/-- `next_slot(A)` (41_serial_sm R166). -/
def nextSlotA (s : State) : State :=
  driveA (if s.tgA.slot.val = 31 then loadA s else { s with tgA := { s.tgA with slot := s.tgA.slot + 1 } })

/-- One `clk` edge of the audio generator (41_serial_sm R160, R161, R166). -/
def clkA (s : State) : State :=
  if !s.chanA.smEn then s
  else if !s.tgA.loaded then
    driveA { loadA s with tgA := { (loadA s).tgA with loaded := true, half := .low, ctr := 0 } }
  else
    let d := divider s.chanA.div s.tgA.ctr
    let s' := { s with tgA := { s.tgA with ctr := d.1 } }
    if !d.2 then s'
    else
      match s.tgA.half with
      | .low => { s' with tgA := { s'.tgA with half := .high }, pins := { s'.pins with audBck := true } }
      | .high => nextSlotA { s' with tgA := { s'.tgA with half := .low }, pins := { s'.pins with audBck := false } }

/-- `load_V()` of the byte at the head of the FIFO (41_serial_sm R169). -/
def loadV (s : State) (b : Byte) (rest : List Byte) : State :=
  { s with fifoV := rest, outV := s.outV ++ [b],
           tgV := { ctr := 0, half := .low, slot := 0, shreg := b, loaded := true },
           pins := { s.pins with lcdMosi := b.getLsbD 7 } }

/-- `next_slot(V)`: the next bit, the next byte, or a stall (41_serial_sm R169). -/
def nextSlotV (s : State) : State :=
  if s.tgV.slot.val = 7 then
    match s.fifoV with
    | b :: rest => loadV s b rest
    | [] => { s with tgV := { s.tgV with loaded := false } }
  else
    { s with tgV := { s.tgV with slot := s.tgV.slot + 1 },
             pins := { s.pins with lcdMosi := s.tgV.shreg.getLsbD (7 - (s.tgV.slot + 1).val) } }

/-- One `clk` edge of the display generator: while no byte is loaded the divider does not count
(41_serial_sm R160, R161, R167, R169). -/
def clkV (s : State) : State :=
  if !s.chanV.smEn then s
  else if !s.tgV.loaded then
    match s.fifoV with
    | b :: rest => loadV s b rest
    | [] => s
  else
    let d := divider s.chanV.div s.tgV.ctr
    let s' := { s with tgV := { s.tgV with ctr := d.1 } }
    if !d.2 then s'
    else
      match s.tgV.half with
      | .low => { s' with tgV := { s'.tgV with half := .high }, pins := { s'.pins with lcdSck := true } }
      | .high => nextSlotV { s' with tgV := { s'.tgV with half := .low }, pins := { s'.pins with lcdSck := false } }

/-- One rising edge of `clk`: both generators count it (10_state R30). A halted block keeps its pins and emits nothing
(60_exceptions R333). -/
def clkEdge (s : State) : State := if s.halted then s else clkV (clkA s)

end Sys2Proof.Machine
end

