-- ==== Sys2Proof/Machine/Issue.lean ====
section
/-! DEFINITION. Issue.lean: what one turn does: a core's access with the issue of a command (40_channel_control R140),
an agent's internal step, a clock edge, a reset; and which turn comes next. -/

namespace Sys2Proof.Machine

/-- A write of `w` to a free `CMDp`: issue checks 1 to 3 in their order, then the command, whose own checks are 4 and 5
(40_channel_control R140, 60_exceptions R332). -/
def issue (p : Port) (w : Word) (s : State) : Result :=
  if s.halted then .next s
  else
    match decodeCommand w with
    | .error _ => .next (s.raise .illegalCmd)
    | .ok i => if i.admits p then exec i s else .next (s.raise .illegalPort)

/-- The access is a write to a busy `CMD` register, which holds its core (10_state R33). The access rule of
20_memory R87 is tested first (60_exceptions R332): a narrow or misaligned write is no write to `CMD`. The hold does
not ask whether the block is halted: a busy port never becomes free there (R333 (d); DEDUCED, safe: log 9). -/
def holds (s : State) : Access → Bool
  | .write off w _ =>
    accessOk off w && (match cmdPort off with | some q => s.busy q | none => false)
  | .read _ _ | .load _ _ | .store _ _ _ => false

/-- One access of core `p` that is not held (10_state R58-R70, 20_memory R80, R87, R89). Either core may reach any
register: the block cannot tell the cores apart (60_exceptions R340, 70_reset_and_hazards R384). BAD_ACCESS is recorded
while halted as well (DEDUCED, unsafe: log 10). -/
def access (p : Port) (s : State) : Access → Result
  | .read off w =>
    if accessOk off w then .next (s.giveBack p (readReg s off))
    else .next ((s.raise .badAccess).giveBack p 0#32)
  | .write off w v =>
    if accessOk off w then
      match cmdPort off with
      | some q => issue q v s
      | none => .next (writeReg s off v)
    else .next (s.raise .badAccess)
  | .load a w => .next (s.giveBack p (s.mem.readWidth a w))
  | .store a w v => .next { s with mem := s.mem.writeWidth a w v }

/-- Core `p` makes its next access, or stays held on it; a core with no access left does nothing (logs 3, 4). -/
def coreTurn (p : Port) (s : State) : Result :=
  match s.prog p with
  | [] => .next s
  | a :: rest => if holds s a then .next s else access p (s.setProg p rest) a

/-- The agent of an event code takes its step (30_encoding R111, R114; log 18). -/
def eventTurn (code : Word) (s : State) : Result :=
  match decodeWord code with
  | .ok i => if i.isEvent then exec i s else .refused (.noSuchStep code)
  | .error _ => .refused (.noSuchStep code)

/-- One turn. A reset leaves memory and the outside world as they are (10_state R71, 70_reset_and_hazards R370). -/
def turn (t : Turn) (s : State) : Result :=
  match t with
  | .core p => coreTurn p s
  | .event code => eventTurn code s
  | .clk => .next (clkEdge s)
  | .rst => .next (State.resetIn s.cfg s.mem s.env)

/-- The turns a free choice may take: either core, an edge of `clk`, or any internal step of 30_encoding R114. -/
def freeTurns : List Turn :=
  [.core .p0, .core .p1, .clk, .event 0x080#32, .event 0x180#32, .event 0x081#32, .event 0x090#32, .event 0x190#32,
   .event 0x0A0#32, .event 0x1B0#32, .event 0x1B1#32, .event 0x1C0#32, .event 0x1C1#32, .event 0x1C2#32, .event 0x1C3#32]

/-- The turn of a free choice (log 5). -/
def freeTurn (n : Nat) : Turn := freeTurns.getD (Config.freeChoice n).val .clk

/-- The turn to take: the next of the schedule, or a free choice once it is empty (logs 3, 5). -/
def nextTurn (s : State) : Turn :=
  match s.env.sched with
  | t :: _ => t
  | [] => freeTurn s.env.choices

/-- The state with that turn taken off the schedule, or the choice counted. -/
def afterTurn (s : State) : State :=
  match s.env.sched with
  | _ :: rest => s.setSched rest
  | [] => { s with env.choices := s.env.choices + 1 }

/-- The state whose next turn makes core `p` write `w` to `CMDp`. -/
def withCommand (s : State) (p : Port) (w : Word) : State :=
  (s.setProg p (.write (cmdOffset p) .word w :: s.prog p)).setSched (.core p :: s.env.sched)

/-- The port a command's word is written on: port 1 where its row admits no other (30_encoding R113, R120). -/
def portOfWord (w : Word) : Port :=
  match decodeCommand w with
  | .ok i => if i.admits .p0 then .p0 else .p1
  | .error _ => .p0

/-- The state whose next turn runs the word: an internal step as its agent's turn, any other word as a write to `CMD`
(log 4). -/
def placeWord (s : State) (w : Word) : State :=
  match decodeWord w with
  | .ok i => if i.isEvent then s.setSched (.event w :: s.env.sched) else withCommand s (portOfWord w) w
  | .error _ => withCommand s .p0 w

end Sys2Proof.Machine
end

