-- ==== Sys2Proof/Machine/Step.lean ====
section
/-! DEFINITION. Step.lean: one step of the machine, and where the host stores a word for the next step to run. -/

namespace Sys2Proof.Machine

/-- One step: the next turn, in a well-formed configuration; any other configuration has no run (00_scope R7, R10). -/
def step (s : State) : Host.Outcome State Fault Refusal :=
  if s.cfg.WellFormed then turn (nextTurn s) (afterTurn s) else .refused .badConfig

/-- `s` with the instruction word stored where the next step takes it from: a command as its port's core's next
register write with that core's turn first, an internal step as the first turn of the schedule (log 4). -/
def State.withFetchWord (s : State) (nbits w : Nat) : State := placeWord s (tableWord nbits w)

end Sys2Proof.Machine
end

