-- ==== Sys2Proof/Safety.lean ====
section
/-! DEFINITION. Safety.lean: the terms the claims use: which bytes belong to a buffer, the invariants of 10_state R75 and
what they rest on, the levels the pins must show, quiescence (70_reset_and_hazards R377), and what of the data taken in
has still to reach the wire. -/

namespace Sys2Proof.Safety

open Sys2Proof.Machine

/-- Address `a` is one of the `n` addresses from `base` up. -/
abbrev Within (a base : Word) (n : Nat) : Prop := (a - base).toNat < n

/-- Address `a` lies in one of the six block-owned buffers (20_memory R83). -/
def InBuffers (c : Config) (a : Word) : Prop :=
  ∃ i : Bool, Within a (abufAddr c i) (abufSize c) ∨ Within a (slAddr c i) (slSize c) ∨ Within a (snapAddr c i) (snapSize c)

/-- Memory is in canonical form and the configuration keeps its constraints. -/
structure Sound (s : State) : Prop where
  config : s.cfg.WellFormed
  memory : s.mem.wf = true

/-- Channel A: 10_state R75 (i), (ii) and (iv), with what keeps them: a filled buffer holds at least one word
(43_audio_ring R231), a transfer in flight has elements left and reads inside the active Sample Buffer, at a 4-aligned
address (20_memory R81, R86, 43_audio_ring R220). -/
structure AudioInv (s : State) : Prop where
  ids : s.ring.fillId = !s.ring.activeId
  doneIdle : s.chanA.dmaDone = true → s.chanA.dmaBusy = false
  lenBound : s.ring.xferLen.toNat ≤ s.cfg.audCap
  readyLen : s.ring.ready = true → s.ring.xferLen ≠ 0#32
  enable : s.chanA.dmaIe = s.chanA.inited
  busyCount : s.chanA.dmaBusy = true → s.chanA.dmaCount ≠ 0#32
  readsActive : s.chanA.dmaBusy = true → ∃ k : Nat,
    s.chanA.dmaAddr.toNat = (abufAddr s.cfg s.ring.activeId).toNat + 4 * k ∧ k + s.chanA.dmaCount.toNat ≤ s.cfg.audCap

/-- Channel V: 10_state R75 (ii), (v), (vi) and the row counters of (vii), with what keeps them: nothing moves before
INIT V (40_channel_control R142), its completion is polled (60_exceptions R335), and a transfer in flight reads inside
the Scanline Buffer of the last row started, which is not the one being built (44_display_pipeline R276). -/
structure VideoInv (s : State) : Prop where
  uninit : s.chanV.inited = false → s.video.pphase = .idle ∧ s.video.cphase = .idle
  enable : s.chanV.dmaIe = false
  doneIdle : s.chanV.dmaDone = true → s.chanV.dmaBusy = false
  pendingFresh : s.consuming = false → s.video.pending = s.video.fresh
  slots : s.copying = true → s.consuming = true → s.video.wrSlot ≠ s.video.consSlot
  buildRow : s.video.cphase = .build → s.video.brow = s.video.trow ∧ s.video.brow.toNat < s.cfg.outH
  startRow : s.video.cphase = .start →
    s.video.brow.toNat = s.video.trow.toNat + 1 ∧ s.video.brow.toNat ≤ s.cfg.outH
  drainRow : s.video.cphase = .drain → s.video.brow = s.video.trow ∧ s.video.brow.toNat = s.cfg.outH
  idleFree : s.consuming = false → s.chanV.dmaBusy = false
  busyCount : s.chanV.dmaBusy = true → s.chanV.dmaCount ≠ 0#32
  readsRow : s.chanV.dmaBusy = true → 1 ≤ s.video.trow.toNat ∧ ∃ k : Nat,
    s.chanV.dmaAddr.toNat = (slAddr s.cfg (rowParity (s.video.trow - 1#16))).toNat + k ∧
    k + s.chanV.dmaCount.toNat = slSize s.cfg

/-- 10_state R75 (iii). -/
structure FifoInv (s : State) : Prop where
  audio : s.fifoA.length ≤ s.cfg.fifoDepth
  video : s.fifoV.length ≤ s.cfg.fifoDepth

/-- The faults that no legal sequence reaches are not recorded: `dma_start` on a busy channel or at a misaligned
address (42_dma R191), and the reserved code 8 (60_exceptions R347); bit 0 of `FAULT` is no code (10_state R69). -/
structure FaultInv (s : State) : Prop where
  noCode : s.faults.getLsbD 0 = false
  startBusy : s.hasFault .dmaStartBusy = false
  misaligned : s.hasFault .dmaMisaligned = false
  owned : s.hasFault .ownedWrite = false

/-- 10_state R75 (i)-(vii), in its own words. -/
structure R75 (s : State) : Prop where
  i : s.ring.fillId = !s.ring.activeId
  iiA : s.chanA.dmaDone = true → s.chanA.dmaBusy = false
  iiV : s.chanV.dmaDone = true → s.chanV.dmaBusy = false
  iiiA : s.fifoA.length ≤ s.cfg.fifoDepth
  iiiV : s.fifoV.length ≤ s.cfg.fifoDepth
  iv : s.ring.xferLen.toNat ≤ s.cfg.audCap
  v : s.consuming = false → s.video.pending = s.video.fresh
  vi : s.copying = true → s.consuming = true → s.video.wrSlot ≠ s.video.consSlot
  vii : s.consuming = true → s.video.trow.toNat ≤ s.video.brow.toNat ∧
    s.video.brow.toNat ≤ s.video.trow.toNat + 1 ∧ s.video.trow.toNat + 1 ≤ s.cfg.outH + 1

/-- The audio pins at their idle levels (41_serial_sm R170). -/
abbrev AudioPinsIdle (s : State) : Prop :=
  s.pins.audBck = false ∧ s.pins.audWs = s.cfg.wsLeft ∧ s.pins.audDout = false

/-- The display pins at their idle levels (41_serial_sm R170). -/
abbrev DisplayPinsIdle (s : State) : Prop := s.pins.lcdSck = false ∧ s.pins.lcdMosi = false

/-- What the generators hold and the pins show at every moment: idle while stopped (41_serial_sm R160, R170), the level
of the current slot while a word is shifted (R163-R165, R167, R168), `LCD_SCK` low during a stall (R167, R169); the
divider counts below `div` (R161), which INIT loaded (10_state R64). -/
structure PinInv (s : State) : Prop where
  enabledA : s.chanA.smEn = true → s.chanA.inited = true
  enabledV : s.chanV.smEn = true → s.chanV.inited = true
  divA : s.chanA.inited = true → s.chanA.div.toNat = s.cfg.divA
  divV : s.chanV.inited = true → s.chanV.div.toNat = s.cfg.divV
  stoppedA : s.chanA.smEn = false → s.tgA = TgA.idle ∧ AudioPinsIdle s
  emptyA : s.tgA.loaded = false → s.tgA = TgA.idle ∧ AudioPinsIdle s
  loadedA : s.tgA.loaded = true → s.tgA.ctr.toNat < s.chanA.div.toNat ∧
    s.pins.audBck = decide (s.tgA.half = .high) ∧ s.pins.audWs = audioWs s.cfg s.tgA.slot ∧
    s.pins.audDout = audioDout s.cfg s.tgA s.tgA.slot
  stoppedV : s.chanV.smEn = false → s.tgV = TgV.idle ∧ DisplayPinsIdle s
  emptyV : s.tgV.loaded = false → s.pins.lcdSck = false ∧ s.tgV.half = .low ∧ s.tgV.ctr = 0#16
  loadedV : s.tgV.loaded = true → s.tgV.ctr.toNat < s.chanV.div.toNat ∧
    s.pins.lcdSck = decide (s.tgV.half = .high) ∧ s.pins.lcdMosi = s.tgV.shreg.getLsbD (7 - s.tgV.slot.val)

/-- A state some run from a reset reaches: any well-formed configuration, any memory, any programs and schedule. -/
inductive Reachable : State → Prop where
  | reset (c : Config) (m : Memory) (e : Env) (hc : c.WellFormed) (hm : m.wf = true) :
      Reachable (State.resetIn c m e)
  | step (s t : State) (hs : Reachable s) (h : step s = .next t) : Reachable t

/-- Where in its frame the audio generator stands, in `clk` edges since the load: 0 up to `64*div - 1`
(41_serial_sm R161, R162). -/
def audioPos (s : State) : Nat :=
  (2 * s.tgA.slot.val + (if s.tgA.half = .high then 1 else 0)) * s.chanA.div.toNat + s.tgA.ctr.toNat

/-- Where in its byte the display generator stands, in `clk` edges since the load: 0 up to `16*div - 1`
(41_serial_sm R161, R162). -/
def displayPos (s : State) : Nat :=
  (2 * s.tgV.slot.val + (if s.tgV.half = .high then 1 else 0)) * s.chanV.div.toNat + s.tgV.ctr.toNat

/-- Channel A is quiet (70_reset_and_hazards R377). -/
abbrev QuietA (s : State) : Prop := s.chanA.dmaBusy = false ∧ s.irqReq .A = false ∧ s.fifoA.length = 0

/-- Channel V is quiet (70_reset_and_hazards R377). -/
abbrev QuietV (s : State) : Prop :=
  s.video.pphase = .idle ∧ s.chanV.dmaBusy = false ∧ s.fifoV.length = 0 ∧
  (s.video.cphase = .idle ∨ (s.video.cphase = .wait ∧ s.video.fresh = false))

/-- The audio words of an output stream, silence left out. -/
def frames (out : List AudioOut) : List Word :=
  out.filterMap fun x => match x with | .frame w => some w | .silence => none

/-- The `n` words of a transfer from `a` up. -/
def wordsAt (m : Memory) (a : Word) (n : Nat) : List Word :=
  (List.range n).map fun j => m.read32 (a + BitVec.ofNat 32 (4 * j))

/-- Every audio word the block has taken on to send, in order: already on the wire, in the FIFO, still to be moved by
the transfer in flight (41_serial_sm R175, 42_dma R193). -/
def audioCommitted (s : State) : List Word :=
  frames s.outA ++ s.fifoA ++ (if s.chanA.dmaBusy then wordsAt s.mem s.chanA.dmaAddr s.chanA.dmaCount.toNat else [])

/-- Every display byte the block has taken on to send, in order (41_serial_sm R175, 42_dma R193). -/
def displayCommitted (s : State) : List Byte :=
  s.outV ++ s.fifoV ++ (if s.chanV.dmaBusy then s.mem.readBytes s.chanV.dmaAddr s.chanV.dmaCount.toNat else [])

/-- The row that stands built in its Scanline Buffer and is not yet started (44_display_pipeline R273, R274). -/
def builtRow (s : State) : List Byte :=
  if s.video.cphase = .start then s.mem.readBytes (slAddr s.cfg (rowParity s.video.trow)) (slSize s.cfg) else []

/-- The bytes of the first `n` output rows of the frame in slot `k` (44_display_pipeline R276 (f)). -/
def frameRows (c : Config) (m : Memory) (k : Bool) (n : Nat) : List Byte := (List.range n).flatMap (rowBytes c m k)

/-- After the bytes `before`, what is committed to the panel and what is built is exactly the rows built so far of the
frame the consumer took (44_display_pipeline R276 (f)). -/
def FrameStream (before : List Byte) (s : State) : Prop :=
  displayCommitted s ++ builtRow s = before ++ frameRows s.cfg s.mem s.video.consSlot s.video.brow.toNat

/-- A core's store that keeps host duty 1: no byte of a buffer (70_reset_and_hazards R383). -/
def StoreOutside (c : Config) (a : Word) (w : Width) : Prop := ∀ b : Word, Within b a w.bytes → ¬ InBuffers c b

/-- The turn to take leaves a frame in progress intact: it is no reset, no STOP V (word 0x103, 44_display_pipeline R276,
70_reset_and_hazards R379) and no store into a buffer (R383 duty 1). -/
def KeepsFrame (s : State) : Prop :=
  match nextTurn s with
  | .rst => False
  | .clk | .event _ => True
  | .core p =>
    match s.prog p with
    | .write _ _ v :: _ => v ≠ 0x103#32
    | .store a w _ :: _ => StoreOutside s.cfg a w
    | _ => True

end Sys2Proof.Safety
end

