-- ==== Sys2Proof/Certificates/Slice0/Obligations.lean ====
section
/-! DEFINITION. Obligations.lean: the statements about the block, each the formal reading of rules of spec/ (or of what
follows from them). `Ran`-like premises are spelled out: the port is free (10_state R33), the block is live. -/

open Sys2Proof Sys2Proof.Machine Sys2Proof.Safety

/-! ### Encoding (30_encoding) -/

/-- 30_encoding R110, R113, R114: the decoder reads an instruction with the bytes `rest` after it from exactly the
bytes that encode it. -/
def Obligations.DecodeIffEncode : Prop :=
  ∀ (bs : List Byte) (i : Instr) (rest : List Byte), decode bs = .ok (i, rest) ↔ bs = encodeBytes i ++ rest

/-- 30_encoding R115: decoding a command word is total, and exactly these 12 words are commands. -/
def Obligations.TwelveLegalCommandWords : Prop :=
  ∀ (w : Word) (i : Instr), decodeCommand w = .ok i ↔ (w, i) ∈ ([
    (0x000#32, .nop .A), (0x100#32, .nop .V), (0x001#32, .init .A), (0x101#32, .init .V),
    (0x002#32, .start .A), (0x102#32, .start .V), (0x003#32, .stop .A), (0x103#32, .stop .V),
    (0x010#32, .queueSamples), (0x011#32, .bufferReady), (0x120#32, .renderFrame), (0x121#32, .sendFrame)]
    : List (Word × Instr))

/-- 30_encoding R114: exactly these words name the internal steps. -/
def Obligations.EventCodesOfTheTable : Prop :=
  ∀ (w : Word) (i : Instr), (decodeWord w = .ok i ∧ i.isEvent = true) ↔ (w, i) ∈ ([
    (0x080#32, .smEmitA), (0x180#32, .smEmitV), (0x081#32, .smSilence), (0x090#32, .dmaBeat .A),
    (0x190#32, .dmaBeat .V), (0x0A0#32, .airqSwap), (0x1B0#32, .rfCopy), (0x1B1#32, .rfPublish),
    (0x1C0#32, .sfTake), (0x1C1#32, .sfBuild), (0x1C2#32, .sfStart), (0x1C3#32, .sfFinish)] : List (Word × Instr))

/-- 30_encoding R113, R114, R116 on a few words, through the table's decoder. -/
def Obligations.SampleWordsDecode : Prop :=
  decodeTableWord 32 0x101 = some (.init .V) ∧ decodeTableWord 32 0x010 = some .queueSamples ∧
  decodeTableWord 32 0x121 = some .sendFrame ∧ decodeTableWord 32 0x190 = some (.dmaBeat .V) ∧
  decodeTableWord 32 0x0A0 = some .airqSwap ∧ decodeTableWord 32 0x110 = none ∧ decodeTableWord 32 0x200 = none ∧
  decodeTableWord 32 0x0E0 = none

/-! ### A step, and the issue of a command -/

/-- A step runs the instruction its turn decodes to: the agent's turn of an event code is `exec` of that step with the
turn taken off the schedule; a core's 32-bit write of a command to a free `CMDq` that admits it, the block not halted,
is `exec` of the command with the turn and the write taken off; and a turn of `clk` is a clock edge (41_serial_sm R160)
of the state with the turn taken off. The MODEL'S CHOICE, and no rule of the spec: that turns are taken from a schedule
(log 3); that an empty schedule takes one of the turns of the step table, chosen freely (log 5); and the clause on
`withFetchWord`, which places an instruction so that the next step is `exec` of it, a command as a core's register write
and an internal step as its agent's turn (log 4). -/
def Obligations.StepRunsDecodedInstruction : Prop :=
  (∀ (s : State) (code : Word) (i : Instr) (rest : List Turn), s.cfg.WellFormed →
    s.env.sched = .event code :: rest → decodeWord code = .ok i → i.isEvent = true →
    step s = exec i (s.setSched rest)) ∧
  (∀ (s : State) (p q : Port) (w : Word) (i : Instr) (rest : List Turn) (more : List Access), s.cfg.WellFormed →
    s.env.sched = .core p :: rest → s.prog p = .write (cmdOffset q) .word w :: more →
    decodeCommand w = .ok i → i.admits q = true → s.busy q = false → s.halted = false →
    step s = exec i ((s.setSched rest).setProg p more)) ∧
  (∀ (s : State) (i : Instr), s.cfg.WellFormed → (i.isEvent = false → ∀ p, s.busy p = false) →
    step (s.withFetchWord 32 (encode i).toNat) = exec i s) ∧
  (∀ (s : State) (rest : List Turn), s.cfg.WellFormed → s.env.sched = .clk :: rest →
    step s = .next (clkEdge (s.setSched rest))) ∧
  (∀ s : State, s.env.sched = [] → ∃ t ∈ freeTurns,
    step s = step ({ s with env := { s.env with choices := s.env.choices + 1 } }.setSched [t]))

/-- 40_channel_control R140: the issue checks of a 32-bit write of `w` to a free `CMDq`, in their order. `CH` is bit 8
of the word. `u` is `s` with the turn and the write taken off. -/
def Obligations.IssueChecksInOrder : Prop :=
  ∀ (s : State) (p q : Port) (w : Word) (rest : List Turn) (more : List Access), s.cfg.WellFormed →
    s.env.sched = .core p :: rest → s.prog p = .write (cmdOffset q) .word w :: more → s.busy q = false →
    let u := (s.setSched rest).setProg p more
    (s.halted = true → step s = .next u) ∧
    (s.halted = false →
      ((∀ i, decodeCommand w ≠ .ok i) → step s = .next (u.raise .illegalCmd)) ∧
      (∀ i, decodeCommand w = .ok i →
        (i.admits q = false → step s = .next (u.raise .illegalPort)) ∧
        (i.admits q = true →
          ((∃ ch, i = .init ch) → (s.chan (chField w)).inited = true → step s = .next (u.raise .doubleInit)) ∧
          ((∀ ch, i ≠ .init ch) → (∀ ch, i ≠ .nop ch) → (s.chan (chField w)).inited = false →
            step s = .next (u.raise .notInit)) ∧
          (((∃ ch, i = .nop ch) ∨ ((∃ ch, i = .init ch) ↔ (s.chan (chField w)).inited = false)) →
            step s = exec i u))))

/-- 10_state R33: what `CMDp` reads, what `BUSYp` is, and that a write to a busy `CMDq` holds the writing core: nothing
happens and the write stays its next access; once the port is free it issues the command. The hold is stated of a halted
block too, where R333 (b) has a `CMD` write ignored: that a write to a busy port stays held there is the MODEL'S reading
(DEDUCED, unsafe for a claim that a core is held: log 9). -/
def Obligations.BusyPortHoldsWriter : Prop :=
  (∀ (s : State) (p : Port), readReg s (cmdOffset p) = if s.busy p then 1#32 else 0#32) ∧
  (∀ s : State, (s.busy .p0 = true ↔ s.video.pphase ≠ .idle) ∧ (s.busy .p1 = true ↔ s.video.cphase ≠ .idle)) ∧
  (∀ (s : State) (p q : Port) (w : Word) (rest : List Turn) (more : List Access), s.cfg.WellFormed →
    s.env.sched = .core p :: rest → s.prog p = .write (cmdOffset q) .word w :: more →
    (s.busy q = true → step s = .next (s.setSched rest)) ∧
    (s.busy q = false → step s = issue q w ((s.setSched rest).setProg p more)))

/-- 60_exceptions R333: NO_DMA_CHANNEL sets `halted` and no other fault does; while halted (a) no internal step and no
clock edge does anything, (b) a write to a free `CMDq` is ignored, (c) register reads and `ARG` writes behave as usual
and `FAULT` reads with bit 31 set, (d), (e) `BUSYp`, the pins and the output streams keep their values, and only a
reset ends it. -/
def Obligations.HaltedBlockStandsStill : Prop :=
  (∀ (s : State) (f : Fault), (s.raise f).halted = (s.halted || decide (f = .noDmaChannel))) ∧
  (∀ s : State, s.halted = true →
    (∀ i, exec i s = .next s) ∧ clkEdge s = s ∧ s.faultWord.getLsbD 31 = true ∧
    (∀ t, step s = .next t → nextTurn s ≠ .rst →
      t.halted = true ∧ (∀ p, t.busy p = s.busy p) ∧ t.pins = s.pins ∧ t.outA = s.outA ∧ t.outV = s.outV) ∧
    (∀ t, step s = .next t → nextTurn s = .rst → t.halted = false) ∧
    (s.cfg.WellFormed → ∀ (p : Port) (rest : List Turn) (more : List Access), s.env.sched = .core p :: rest →
      let u := (s.setSched rest).setProg p more
      (∀ q w, s.prog p = .write (cmdOffset q) .word w :: more → s.busy q = false → step s = .next u) ∧
      (∀ off, s.prog p = .read off .word :: more → off.toNat % 4 = 0 →
        step s = .next (u.giveBack p (readReg s off))) ∧
      (∀ off v, s.prog p = .write off .word v :: more → off ∈ [0x00#8, 0x04#8, 0x10#8, 0x14#8] →
        ∃ t, step s = .next t ∧ readReg t off = v)))

/-- 60_exceptions R331: to raise a fault adds its code, a second time to no effect, and changes nothing else, but that
NO_DMA_CHANNEL sets `halted`; a step that adds a fault, whether in an instruction or in the issue checks or the access
rule, leaves every field of the block as it was but for that, and a core's access that raised one is over: the core is
not held and nothing retries it. -/
def Obligations.FaultCancelsItsStep : Prop :=
  (∀ (s : State) (f : Fault), s.raise f =
    { s with faults := s.faults ||| (1#10 <<< f.code), halted := s.halted || decide (f = .noDmaChannel) }) ∧
  (∀ (i : Instr) (s t : State), exec i s = .next t →
    (t.faults ≠ s.faults → ∃ f, t = s.raise f) ∧ (t.halted ≠ s.halted → t = s.raise .noDmaChannel)) ∧
  (∀ (s : State) (f : Sys2Proof.Machine.Fault), (s.raise f).raise f = s.raise f) ∧
  (∀ s t : State, step s = .next t → nextTurn s ≠ .rst → t.faults ≠ s.faults →
    (∃ f, t = { s.raise f with env := t.env }) ∧ ∀ p, nextTurn s = .core p → t.prog p = (s.prog p).tail)

/-- 00_scope R10, 60_exceptions R331 ("drop this unit of work and continue"): in a well-formed configuration a step
whose turn names a step of the table answers a next state; no step ever stops with a fault; a configuration that breaks
a constraint has no run.That a turn which names no step is left out is the model's choice (log 18), and that a fault is
recorded and never a stop its reading of R331 (log 8). -/
def Obligations.EveryStepGoesOn : Prop :=
  (∀ s : State, s.cfg.WellFormed →
    (∀ code, nextTurn s = .event code → ∃ i, decodeWord code = .ok i ∧ i.isEvent = true) → ∃ t, step s = .next t) ∧
  (∀ (s : State) (f : Sys2Proof.Machine.Fault), step s ≠ .fault f) ∧
  (∀ s : State, ¬ s.cfg.WellFormed → step s = .refused .badConfig)

/-- 20_memory R87: a register access of another width or alignment raises BAD_ACCESS and has no other effect; a read
then returns 0. It is stated of a halted block too, where 60_exceptions R332 puts the access rule before the issue
checks and R333 (c) lets register accesses behave as usual: that BAD_ACCESS is recorded there is the MODEL'S reading
(DEDUCED, unsafe: log 10). -/
def Obligations.BadAccessIsRecorded : Prop :=
  ∀ (s : State) (p : Port) (off : BitVec 8) (w : Width) (rest : List Turn) (more : List Access), s.cfg.WellFormed →
    s.env.sched = .core p :: rest → ¬ (w = .word ∧ off.toNat % 4 = 0) →
    let u := (s.setSched rest).setProg p more
    (s.prog p = .read off w :: more → step s = .next ((u.raise .badAccess).giveBack p 0#32)) ∧
    (∀ v, s.prog p = .write off w v :: more → step s = .next (u.raise .badAccess))

/-- 10_state R70 (with R59 and 20_memory R89): a 32-bit read returns the register and changes nothing else, an offset
that is mapped to nothing reads 0; a write to a read-only register or to an unmapped offset is ignored; an `ARG`
register stores what is written and reads it back. None of these raises a fault. -/
def Obligations.RegisterAccessRules : Prop :=
  ∀ (s : State) (p : Port) (off : BitVec 8) (rest : List Turn) (more : List Access), s.cfg.WellFormed →
    s.env.sched = .core p :: rest → off.toNat % 4 = 0 →
    let u := (s.setSched rest).setProg p more
    (s.prog p = .read off .word :: more → step s = .next (u.giveBack p (readReg s off))) ∧
    (∀ v, s.prog p = .write off .word v :: more →
      (off = 0x00#8 → step s = .next { u with port0 := { s.port0 with arg0 := v } }) ∧
      (off = 0x04#8 → step s = .next { u with port0 := { s.port0 with arg1 := v } }) ∧
      (off = 0x10#8 → step s = .next { u with port1 := { s.port1 with arg0 := v } }) ∧
      (off = 0x14#8 → step s = .next { u with port1 := { s.port1 with arg1 := v } }) ∧
      (off ∉ [0x00#8, 0x04#8, 0x08#8, 0x10#8, 0x14#8, 0x18#8] → step s = .next u)) ∧
    readReg s 0x00#8 = s.port0.arg0 ∧ readReg s 0x04#8 = s.port0.arg1 ∧
    readReg s 0x10#8 = s.port1.arg0 ∧ readReg s 0x14#8 = s.port1.arg1 ∧
    (off ∉ [0x00#8, 0x04#8, 0x08#8, 0x0C#8, 0x10#8, 0x14#8, 0x18#8, 0x1C#8, 0x40#8, 0x44#8, 0x48#8, 0x4C#8, 0x50#8,
      0x60#8, 0x64#8, 0x68#8, 0x6C#8, 0x70#8, 0x80#8, 0x84#8, 0x88#8, 0xA0#8, 0xA4#8, 0xC0#8] → readReg s off = 0#32)

/-- 10_state R69: `FAULT` shows code `n` in bit `n` for the codes 1 to 9 and `halted` in bit 31, its other bits read 0;
no step but a reset clears a bit, and a reset clears them all. -/
def Obligations.FaultRegisterIsSticky : Prop :=
  (∀ (s : State) (n : Nat), s.faultWord.getLsbD n =
    if 1 ≤ n ∧ n ≤ 9 then s.faults.getLsbD n else if n = 31 then s.halted else false) ∧
  (∀ (s t : State), step s = .next t → nextTurn s ≠ .rst →
    ∀ n, s.faultWord.getLsbD n = true → t.faultWord.getLsbD n = true) ∧
  (∀ (s t : State), step s = .next t → nextTurn s = .rst → t.faultWord = 0#32)

/-- 10_state R58 to R69: the offset of each register, what it reads, and what each bit of the status registers shows,
the phase codes of `HS_STATUS` written out from R67. (The bits of `FAULT` are `FaultRegisterIsSticky`'s.) -/
def Obligations.StatusWordsShowTheirFields : Prop :=
  ∀ s : State,
    (readReg s 0x00#8 = s.port0.arg0 ∧ readReg s 0x04#8 = s.port0.arg1 ∧
      readReg s 0x08#8 = (if s.video.pphase = .idle then 0#32 else 1#32) ∧ readReg s 0x0C#8 = s.port0.result ∧
      readReg s 0x10#8 = s.port1.arg0 ∧ readReg s 0x14#8 = s.port1.arg1 ∧
      readReg s 0x18#8 = (if s.video.cphase = .idle then 0#32 else 1#32) ∧ readReg s 0x1C#8 = s.port1.result ∧
      readReg s 0x40#8 = s.ctrlWord .A ∧ readReg s 0x44#8 = s.dmaStatusWord .A ∧ readReg s 0x48#8 = s.clkdivWord .A ∧
      readReg s 0x4C#8 = s.chanA.dmaAddr ∧ readReg s 0x50#8 = s.chanA.dmaCount ∧
      readReg s 0x60#8 = s.ctrlWord .V ∧ readReg s 0x64#8 = s.dmaStatusWord .V ∧ readReg s 0x68#8 = s.clkdivWord .V ∧
      readReg s 0x6C#8 = s.chanV.dmaAddr ∧ readReg s 0x70#8 = s.chanV.dmaCount ∧
      readReg s 0x80#8 = s.ringStatusWord ∧ readReg s 0x84#8 = s.ring.xferLen ∧
      readReg s 0x88#8 = BitVec.ofNat 32 s.cfg.audCap ∧
      readReg s 0xA0#8 = s.hsStatusWord ∧ readReg s 0xA4#8 = s.hsRowsWord ∧ readReg s 0xC0#8 = s.faultWord) ∧
    (∀ (ch : Channel) (n : Nat),
      ((s.ctrlWord ch).getLsbD n = if n = 0 then (s.chan ch).inited else if n = 1 then (s.chan ch).smEn
        else if n = 2 then (s.chan ch).dmaIe else false) ∧
      ((s.dmaStatusWord ch).getLsbD n = if n = 0 then (s.chan ch).dmaBusy else if n = 1 then (s.chan ch).dmaDone
        else if n = 2 then decide (s.fifoLen ch = 0) else if n = 3 then decide (s.fifoLen ch = s.cfg.fifoDepth)
        else if 8 ≤ n ∧ n ≤ 15 then (s.fifoLen ch).testBit (n - 8) else false) ∧
      ((s.clkdivWord ch).getLsbD n = if n < 16 then (s.chan ch).div.getLsbD n else false)) ∧
    (∀ n : Nat,
      (s.ringStatusWord.getLsbD n = if n = 0 then s.ring.ready else if n = 1 then s.ring.activeId
        else if n = 2 then s.ring.fillId else false) ∧
      (n ∉ [8, 9, 10, 12, 13] →
        s.hsStatusWord.getLsbD n = if n = 0 then s.video.pending else if n = 1 then s.video.fresh
          else if n = 2 then decide (s.video.pphase ≠ .idle)
          else if n = 3 then decide (s.video.cphase ∈ [CPhase.build, CPhase.start, CPhase.drain])
          else if n = 4 then s.video.consSlot else if n = 5 then s.video.pubSlot else if n = 6 then s.video.wrSlot
          else false) ∧
      (s.hsRowsWord.getLsbD n = if n < 16 then s.video.brow.getLsbD n else s.video.trow.getLsbD (n - 16))) ∧
    (∀ (c : CPhase) (k : BitVec 3), (c, k) ∈
        [(CPhase.idle, 0#3), (CPhase.wait, 1#3), (CPhase.build, 2#3), (CPhase.start, 3#3), (CPhase.drain, 4#3)] →
      s.video.cphase = c → s.hsStatusWord.extractLsb' 8 3 = k) ∧
    (∀ (c : PPhase) (k : BitVec 2), (c, k) ∈ [(PPhase.idle, 0#2), (PPhase.copy, 1#2), (PPhase.publish, 2#2)] →
      s.video.pphase = c → s.hsStatusWord.extractLsb' 12 2 = k)

/-! ### Channel control (40_channel_control) -/

/-- 40_channel_control R142, channel A: INIT A of a free, live, not yet initialised block with a DMA channel. Every
byte of both Sample Buffers becomes 0, no other byte changes, and nothing outside channel A changes. -/
def Obligations.InitAudioChannel : Prop :=
  ∀ s : State, s.busy .p0 = false → s.halted = false → s.chanA.inited = false → s.cfg.chAvailA = true →
    ∃ t, exec (.init .A) s = .next t ∧
      t = { s with
        mem := t.mem
        ring := { activeId := false, fillId := true, ready := false, xferLen := 0#32 }
        chanA := { inited := true, smEn := false, div := BitVec.ofNat 16 s.cfg.divA, dmaBusy := false,
                   dmaDone := false, dmaIe := true, dmaAddr := 0#32, dmaCount := 0#32 }
        fifoA := []
        tgA := TgA.idle
        pins := { s.pins with audBck := false, audWs := s.cfg.wsLeft, audDout := false } } ∧
      (∀ a i, Within a (abufAddr s.cfg i) (4 * s.cfg.audCap) → t.mem.read a = 0#8) ∧
      (∀ a, (∀ i, ¬ Within a (abufAddr s.cfg i) (4 * s.cfg.audCap)) → t.mem.read a = s.mem.read a)

/-- 40_channel_control R142, channel V: INIT V zeroes the Scanline Buffers and the snapshot slots, and leaves the
sequencer phases and rows, and all of channel A, alone. -/
def Obligations.InitDisplayChannel : Prop :=
  ∀ s : State, s.busy .p0 = false → s.halted = false → s.chanV.inited = false → s.cfg.chAvailV = true →
    ∃ t, exec (.init .V) s = .next t ∧
      t = { s with
        mem := t.mem
        video := { s.video with pending := false, fresh := false, consSlot := false, pubSlot := false, wrSlot := false }
        chanV := { inited := true, smEn := false, div := BitVec.ofNat 16 s.cfg.divV, dmaBusy := false,
                   dmaDone := false, dmaIe := false, dmaAddr := 0#32, dmaCount := 0#32 }
        fifoV := []
        tgV := TgV.idle
        pins := { s.pins with lcdSck := false, lcdMosi := false } } ∧
      (∀ a i, Within a (slAddr s.cfg i) (2 * s.cfg.outW) ∨ Within a (snapAddr s.cfg i) (2 * s.cfg.srcW * s.cfg.srcH) →
        t.mem.read a = 0#8) ∧
      (∀ a, (∀ i, ¬ Within a (slAddr s.cfg i) (2 * s.cfg.outW) ∧
          ¬ Within a (snapAddr s.cfg i) (2 * s.cfg.srcW * s.cfg.srcH)) → t.mem.read a = s.mem.read a)

/-- 40_channel_control R143, R144: INIT with no DMA channel records NO_DMA_CHANNEL and halts the whole block, channel
not initialised, memory as it was, and only a reset leaves the halted state; INIT of an initialised channel records
DOUBLE_INIT and changes nothing. -/
def Obligations.InitRefusals : Prop :=
  ∀ (ch : Channel) (s : State), s.busy .p0 = false → s.halted = false →
    ((s.chan ch).inited = false → chAvail s.cfg ch = false →
      ∃ t, exec (.init ch) s = .next t ∧
        t = { s with faults := s.faults ||| (1#10 <<< 5), halted := true } ∧ (∀ i, exec i t = .next t) ∧
        clkEdge t = t ∧ (∀ u v, u.halted = true → step u = .next v → nextTurn u ≠ .rst → v.halted = true)) ∧
    ((s.chan ch).inited = true →
      exec (.init ch) s = .next { s with faults := s.faults ||| (1#10 <<< 4) })

/-- 40_channel_control R145: START of a stopped channel resets its timing generator and enables it; of a started one it
changes nothing; before INIT it records NOT_INIT. It touches no FIFO, no transfer and no ring or handoff state. -/
def Obligations.StartChannel : Prop :=
  ∀ s : State, s.busy .p0 = false → s.halted = false →
    (s.chanA.inited = true → s.chanA.smEn = false → exec (.start .A) s = .next { s with
      chanA := { s.chanA with smEn := true }, tgA := TgA.idle,
      pins := { s.pins with audBck := false, audWs := s.cfg.wsLeft, audDout := false } }) ∧
    (s.chanV.inited = true → s.chanV.smEn = false → exec (.start .V) s = .next { s with
      chanV := { s.chanV with smEn := true }, tgV := TgV.idle,
      pins := { s.pins with lcdSck := false, lcdMosi := false } }) ∧
    (∀ ch, (s.chan ch).inited = true → (s.chan ch).smEn = true → exec (.start ch) s = .next s) ∧
    (∀ ch, (s.chan ch).inited = false → exec (.start ch) s = .next { s with faults := s.faults ||| (1#10 <<< 3) }) ∧
    encode (.start .A) = 0x002#32 ∧ encode (.start .V) = 0x102#32 ∧
    (∀ ch, (Instr.start ch).admits .p0 = true ∧ (Instr.start ch).admits .p1 = false)

/-- 40_channel_control R146, 42_dma R194: STOP disables the channel, aborts its transfer (address and count keep their
values), empties its FIFO and resets its generator and pins; the ring, the handoff, the sequencers and memory stay; a
second STOP gives the same state; before INIT it records NOT_INIT. -/
def Obligations.StopChannel : Prop :=
  ∀ s : State, s.busy .p0 = false → s.halted = false →
    (s.chanA.inited = true → ∃ t, exec (.stop .A) s = .next t ∧ exec (.stop .A) t = .next t ∧ t = { s with
      chanA := { s.chanA with smEn := false, dmaBusy := false, dmaDone := false }, fifoA := [], tgA := TgA.idle,
      pins := { s.pins with audBck := false, audWs := s.cfg.wsLeft, audDout := false } }) ∧
    (s.chanV.inited = true → ∃ t, exec (.stop .V) s = .next t ∧ exec (.stop .V) t = .next t ∧ t = { s with
      chanV := { s.chanV with smEn := false, dmaBusy := false, dmaDone := false }, fifoV := [], tgV := TgV.idle,
      pins := { s.pins with lcdSck := false, lcdMosi := false } }) ∧
    (∀ ch, (s.chan ch).inited = false → exec (.stop ch) s = .next { s with faults := s.faults ||| (1#10 <<< 3) }) ∧
    encode (.stop .A) = 0x003#32 ∧ encode (.stop .V) = 0x103#32 ∧
    (∀ ch, (Instr.stop ch).admits .p0 = true ∧ (Instr.stop ch).admits .p1 = false)

/-- 40_channel_control R148: NOP changes no state, in any state, and either port takes it; a word is a NOP only if its
reserved bits are 0. -/
def Obligations.NopChangesNothing : Prop :=
  (∀ (s : State) (ch : Channel), exec (.nop ch) s = .next s) ∧
  (∀ (p : Port) (ch : Channel), (Instr.nop ch).admits p = true) ∧
  encode (.nop .A) = 0x000#32 ∧ encode (.nop .V) = 0x100#32 ∧
  (∀ (w : Word) (ch : Channel), decodeCommand w = .ok (.nop ch) → w.extractLsb' 9 23 = 0#23 ∧ w.extractLsb' 0 8 = 0#8)

/-- 40_channel_control R147: after STOP A no swap follows for the transfer it aborted, even one whose completion was
pending, and the ring keeps its values. -/
def Obligations.StopCancelsSwap : Prop :=
  ∀ s t : State, s.busy .p0 = false → s.halted = false → s.chanA.inited = true → exec (.stop .A) s = .next t →
    t.irqReq .A = false ∧ exec .airqSwap t = .next t ∧ t.ring = s.ring

/-- 70_reset_and_hazards R374: INIT, START and STOP of one channel change no state of the other, but for the fatal
NO_DMA_CHANNEL, which halts. -/
def Obligations.ChannelsAreIndependent : Prop :=
  ∀ (i : Instr) (s t : State), exec i s = .next t →
    (i = .init .A ∨ i = .start .A ∨ i = .stop .A →
      t.chanV = s.chanV ∧ t.fifoV = s.fifoV ∧ t.tgV = s.tgV ∧ t.outV = s.outV ∧ t.video = s.video ∧
      t.pins.lcdSck = s.pins.lcdSck ∧ t.pins.lcdMosi = s.pins.lcdMosi ∧
      (s.cfg.WellFormed → ∀ a k, Within a (slAddr s.cfg k) (slSize s.cfg) ∨ Within a (snapAddr s.cfg k) (snapSize s.cfg) →
        t.mem.read a = s.mem.read a) ∧
      (t.halted ≠ s.halted → t = s.raise .noDmaChannel)) ∧
    (i = .init .V ∨ i = .start .V ∨ i = .stop .V →
      t.chanA = s.chanA ∧ t.fifoA = s.fifoA ∧ t.tgA = s.tgA ∧ t.outA = s.outA ∧ t.ring = s.ring ∧
      t.pins.audBck = s.pins.audBck ∧ t.pins.audWs = s.pins.audWs ∧ t.pins.audDout = s.pins.audDout ∧
      (s.cfg.WellFormed → ∀ a k, Within a (abufAddr s.cfg k) (abufSize s.cfg) → t.mem.read a = s.mem.read a) ∧
      (t.halted ≠ s.halted → t = s.raise .noDmaChannel))

/-! ### Serial state machines and timing generators (41_serial_sm) -/

/-- 41_serial_sm R172: SM_EMIT A moves the oldest FIFO word to the output stream, SM_SILENCE adds a Silence when the
FIFO is empty; neither is enabled on a stopped channel or a halted block. -/
def Obligations.AudioLoadSteps : Prop :=
  ∀ s : State,
    (∀ w rest, s.chanA.smEn = true → s.halted = false → s.fifoA = w :: rest →
      exec .smEmitA s = .next { s with fifoA := rest, outA := s.outA ++ [.frame w] } ∧ exec .smSilence s = .next s) ∧
    (s.chanA.smEn = true → s.halted = false → s.fifoA = [] →
      exec .smSilence s = .next { s with outA := s.outA ++ [.silence] } ∧ exec .smEmitA s = .next s) ∧
    (s.chanA.smEn = false ∨ s.halted = true → exec .smEmitA s = .next s ∧ exec .smSilence s = .next s) ∧
    encode .smEmitA = 0x080#32 ∧ encode .smSilence = 0x081#32

/-- 41_serial_sm R173: SM_EMIT V moves the oldest FIFO byte to the output stream; with the FIFO empty, the channel
stopped or the block halted there is no step. -/
def Obligations.DisplayLoadStep : Prop :=
  ∀ s : State,
    (∀ b rest, s.chanV.smEn = true → s.halted = false → s.fifoV = b :: rest →
      exec .smEmitV s = .next { s with fifoV := rest, outV := s.outV ++ [b] }) ∧
    (s.chanV.smEn = false ∨ s.halted = true ∨ s.fifoV = [] → exec .smEmitV s = .next s) ∧
    encode .smEmitV = 0x180#32

/-- 41_serial_sm R160-R162, R166: on a live block, a `clk` edge leaves a stopped audio channel alone; the first edge
after START loads; then each edge moves the generator on by one of the `64*div` edges of a frame, and at the last it
loads the next word, or a zero frame (Silence) if the FIFO is empty. -/
def Obligations.AudioGeneratorAdvances : Prop :=
  ∀ s : State, s.cfg.WellFormed → PinInv s → s.halted = false →
    let t := clkEdge s
    let loads := audioPos t = 0 ∧ t.tgA.loaded = true ∧
      (∀ w rest, s.fifoA = w :: rest → t.fifoA = rest ∧ t.outA = s.outA ++ [.frame w] ∧ t.tgA.shreg = w) ∧
      (s.fifoA = [] → t.fifoA = [] ∧ t.outA = s.outA ++ [.silence] ∧ t.tgA.shreg = 0#32)
    (s.chanA.smEn = false → t.tgA = s.tgA ∧ t.fifoA = s.fifoA ∧ t.outA = s.outA ∧
      t.pins.audBck = s.pins.audBck ∧ t.pins.audWs = s.pins.audWs ∧ t.pins.audDout = s.pins.audDout) ∧
    (s.chanA.smEn = true → s.tgA.loaded = false → loads) ∧
    (s.chanA.smEn = true → s.tgA.loaded = true →
      audioPos s < 64 * s.chanA.div.toNat ∧
      (audioPos s + 1 < 64 * s.chanA.div.toNat → audioPos t = audioPos s + 1 ∧ t.tgA.loaded = true ∧
        t.fifoA = s.fifoA ∧ t.outA = s.outA ∧ t.tgA.shreg = s.tgA.shreg) ∧
      (audioPos s + 1 = 64 * s.chanA.div.toNat → loads ∧ t.tgA.prevlsb = s.tgA.shreg.getLsbD 0))

/-- 41_serial_sm R160-R162, R167, R169: on a live block, a `clk` edge leaves a stopped display channel alone; while no
byte is loaded it loads the next byte, or stalls with nothing changed if the FIFO is empty; then each edge moves the
generator on by one of the `16*div` edges of a byte, and at the last it loads the next byte or begins to stall. -/
def Obligations.DisplayGeneratorAdvances : Prop :=
  ∀ s : State, s.cfg.WellFormed → PinInv s → s.halted = false →
    let t := clkEdge s
    let loads := ∀ b rest, s.fifoV = b :: rest → displayPos t = 0 ∧ t.tgV.loaded = true ∧ t.fifoV = rest ∧
      t.outV = s.outV ++ [b] ∧ t.tgV.shreg = b
    (s.chanV.smEn = false → t.tgV = s.tgV ∧ t.fifoV = s.fifoV ∧ t.outV = s.outV ∧
      t.pins.lcdSck = s.pins.lcdSck ∧ t.pins.lcdMosi = s.pins.lcdMosi) ∧
    (s.chanV.smEn = true → s.tgV.loaded = false → loads ∧ (s.fifoV = [] → t.tgV = s.tgV ∧ t.fifoV = [] ∧
      t.outV = s.outV ∧ t.pins.lcdSck = false ∧ t.pins.lcdMosi = s.pins.lcdMosi)) ∧
    (s.chanV.smEn = true → s.tgV.loaded = true →
      displayPos s < 16 * s.chanV.div.toNat ∧
      (displayPos s + 1 < 16 * s.chanV.div.toNat → displayPos t = displayPos s + 1 ∧ t.tgV.loaded = true ∧
        t.fifoV = s.fifoV ∧ t.outV = s.outV ∧ t.tgV.shreg = s.tgV.shreg) ∧
      (displayPos s + 1 = 16 * s.chanV.div.toNat → loads ∧ (s.fifoV = [] → t.tgV.loaded = false ∧ t.fifoV = [] ∧
        t.outV = s.outV ∧ t.pins.lcdSck = false ∧ t.pins.lcdMosi = s.pins.lcdMosi)))

/-- 41_serial_sm R160, R161, R163-R165, R167, R168, R170: every step keeps the pins and generators as `PinInv` says. -/
def Obligations.StepKeepsPins : Prop :=
  ∀ s t : State, s.cfg.WellFormed → PinInv s → step s = .next t → PinInv t

/-! ### DMA (42_dma) -/

/-- 42_dma R193: a beat moves one element, four bytes on A and one on V, from memory to the end of the FIFO, and the
beat that empties the count completes the transfer; it is enabled exactly while a transfer is in flight, the FIFO has
space and the block is not halted, whether or not the channel is started. -/
def Obligations.DmaBeatMovesOneElement : Prop :=
  ∀ s : State,
    (s.chanA.dmaBusy = true → s.fifoA.length < s.cfg.fifoDepth → s.halted = false →
      exec (.dmaBeat .A) s = .next { s with
        fifoA := s.fifoA ++ [s.mem.read32 s.chanA.dmaAddr]
        chanA := { s.chanA with
          dmaAddr := s.chanA.dmaAddr + 4#32, dmaCount := s.chanA.dmaCount - 1#32,
          dmaBusy := decide (s.chanA.dmaCount ≠ 1#32),
          dmaDone := if s.chanA.dmaCount = 1#32 then true else s.chanA.dmaDone } }) ∧
    (s.chanV.dmaBusy = true → s.fifoV.length < s.cfg.fifoDepth → s.halted = false →
      exec (.dmaBeat .V) s = .next { s with
        fifoV := s.fifoV ++ [s.mem.read s.chanV.dmaAddr]
        chanV := { s.chanV with
          dmaAddr := s.chanV.dmaAddr + 1#32, dmaCount := s.chanV.dmaCount - 1#32,
          dmaBusy := decide (s.chanV.dmaCount ≠ 1#32),
          dmaDone := if s.chanV.dmaCount = 1#32 then true else s.chanV.dmaDone } }) ∧
    (∀ ch, (s.chan ch).dmaBusy = false ∨ s.cfg.fifoDepth ≤ s.fifoLen ch ∨ s.halted = true →
      exec (.dmaBeat ch) s = .next s) ∧
    encode (.dmaBeat .A) = 0x090#32 ∧ encode (.dmaBeat .V) = 0x190#32

/-- 42_dma R191, R192: `dma_start` raises DMA_START_BUSY on a busy channel, else DMA_MISALIGNED at an address that is
no multiple of the element size, else starts; a zero count completes at once. -/
def Obligations.DmaStartRule : Prop :=
  ∀ (ch : Channel) (addr count : Word) (s : State),
    ((s.chan ch).dmaBusy = true → dmaStart ch addr count s = .error .dmaStartBusy) ∧
    ((s.chan ch).dmaBusy = false → addr.toNat % esz ch ≠ 0 → dmaStart ch addr count s = .error .dmaMisaligned) ∧
    ((s.chan ch).dmaBusy = false → addr.toNat % esz ch = 0 → dmaStart ch addr count s = .ok (s.setChan ch { s.chan ch with
      dmaAddr := addr, dmaCount := count, dmaDone := decide (count = 0#32), dmaBusy := decide (count ≠ 0#32) }))

/-! ### Audio ring (43_audio_ring) -/

/-- 43_audio_ring R222, R223: before INIT A it records NOT_INIT; a null pointer or zero count changes nothing; otherwise
the first `n` words of the fill buffer become the wire words (R221) of the first `n = min(count, P_AUD_CAP)` samples as
they stood before, every other byte stays, and with a transfer in flight the buffer is marked ready, with none the
buffers swap and the transfer starts. -/
def Obligations.QueueSamplesRule : Prop :=
  ∀ s : State, Sound s → s.busy .p0 = false → s.halted = false →
    let n := min s.port0.arg1.toNat s.cfg.audCap
    let fill := abufAddr s.cfg s.ring.fillId
    (s.chanA.inited = false → exec .queueSamples s = .next { s with faults := s.faults ||| (1#10 <<< 3) }) ∧
    encode .queueSamples = 0x010#32 ∧ Instr.queueSamples.admits .p0 = true ∧ Instr.queueSamples.admits .p1 = false ∧
    (s.chanA.inited = true → s.port0.arg0 = 0#32 ∨ s.port0.arg1 = 0#32 → exec .queueSamples s = .next s) ∧
    (s.chanA.inited = true → s.port0.arg0 ≠ 0#32 → s.port0.arg1 ≠ 0#32 → ∃ t, exec .queueSamples s = .next t ∧
      (∀ j, j < n → t.mem.read32 (fill + BitVec.ofNat 32 (4 * j)) =
        ((s.mem.read16 (s.port0.arg0 + BitVec.ofNat 32 (2 * j))).setWidth 32 <<< 16) |||
          (s.mem.read16 (s.port0.arg0 + BitVec.ofNat 32 (2 * j))).setWidth 32) ∧
      (∀ a, ¬ Within a fill (4 * n) → t.mem.read a = s.mem.read a) ∧
      (s.chanA.dmaBusy = true →
        t = { s with mem := t.mem, ring := { s.ring with xferLen := BitVec.ofNat 32 n, ready := true } }) ∧
      (s.chanA.dmaBusy = false → t = { s with
        mem := t.mem
        ring := { activeId := s.ring.fillId, fillId := s.ring.activeId, ready := false, xferLen := BitVec.ofNat 32 n }
        chanA := { s.chanA with
          dmaAddr := fill, dmaCount := BitVec.ofNat 32 n, dmaDone := false, dmaBusy := true } }))

/-- 43_audio_ring R226: BUFFER_READY writes 1 to RESULT0 if the fill buffer is free and 0 if a pending buffer is
unconsumed, and changes nothing else; before INIT A it records NOT_INIT. -/
def Obligations.BufferReadyReports : Prop :=
  ∀ s : State, s.busy .p0 = false → s.halted = false →
    (s.chanA.inited = true → exec .bufferReady s =
      .next { s with port0 := { s.port0 with result := if s.ring.ready then 0#32 else 1#32 } }) ∧
    (s.chanA.inited = false → exec .bufferReady s = .next { s with faults := s.faults ||| (1#10 <<< 3) }) ∧
    encode .bufferReady = 0x011#32 ∧ Instr.bufferReady.admits .p0 = true ∧ Instr.bufferReady.admits .p1 = false

/-- 43_audio_ring R231: AIRQ_SWAP acknowledges; with a filled buffer pending it swaps and starts `xfer_len` words
of the newly active buffer, with none the transfer stays idle; without a request, or halted, there is no step. -/
def Obligations.AirqSwapRule : Prop :=
  ∀ s : State, s.cfg.WellFormed → AudioInv s →
    (s.chanA.dmaDone = true → s.chanA.dmaIe = true → s.halted = false → s.ring.ready = true →
      exec .airqSwap s = .next { s with
        ring := { s.ring with activeId := s.ring.fillId, fillId := s.ring.activeId, ready := false }
        chanA := { s.chanA with
          dmaAddr := abufAddr s.cfg s.ring.fillId, dmaCount := s.ring.xferLen, dmaDone := false, dmaBusy := true } }) ∧
    (s.chanA.dmaDone = true → s.chanA.dmaIe = true → s.halted = false → s.ring.ready = false →
      exec .airqSwap s = .next { s with chanA := { s.chanA with dmaDone := false } }) ∧
    (s.chanA.dmaDone = false ∨ s.chanA.dmaIe = false ∨ s.halted = true → exec .airqSwap s = .next s) ∧
    encode .airqSwap = 0x0A0#32

/-- 43_audio_ring R233, R234: a swap leaves no request behind, so it never runs twice for one completion; and a
`dma_start` by QUEUE_SAMPLES cancels a request still pending. -/
def Obligations.SwapRunsOncePerCompletion : Prop :=
  ∀ s t : State, Sound s → AudioInv s → s.halted = false →
    (exec .airqSwap s = .next t → s.irqReq .A = true → t.irqReq .A = false ∧ exec .airqSwap t = .next t) ∧
    (exec .queueSamples s = .next t → s.ring.activeId ≠ t.ring.activeId →
      t.irqReq .A = false ∧ exec .airqSwap t = .next t)

/-- 43_audio_ring R220, R235, 41_serial_sm R175, 42_dma R195: in order and without loss, mix or repeat, the audio words
the block has taken on grow only when a transfer starts, and then by exactly the words queued: by QUEUE_SAMPLES on an
idle engine the samples' wire words, by AIRQ_SWAP the pending buffer's. Only STOP A and INIT A discard words. -/
def Obligations.AudioWordsNeitherLostNorRepeated : Prop :=
  (∀ (i : Instr) (s t : State), Sound s → AudioInv s → exec i s = .next t → i ≠ .stop .A → i ≠ .init .A →
    audioCommitted t = audioCommitted s ++
      (if s.ring.activeId = t.ring.activeId then []
       else if i = .queueSamples then
         (List.range (accepted s.cfg s.port0.arg1)).map fun j => wire (sample s.mem s.port0.arg0 j)
       else wordsAt s.mem (abufAddr s.cfg s.ring.fillId) s.ring.xferLen.toNat) ∧
    (s.ring.activeId ≠ t.ring.activeId → i = .queueSamples ∨ i = .airqSwap)) ∧
  (∀ s : State, audioCommitted (clkEdge s) = audioCommitted s)

/-! ### Display pipeline (44_display_pipeline) -/

/-- 44_display_pipeline R264: for both forms of the rescaler the source row and column of every output row and column
lie in the source, the maps do not decrease, and so every source pixel address of SF_BUILD lies inside the snapshot slot,
both bytes of it. -/
def Obligations.RescaleInRangeAndMonotone : Prop :=
  ∀ c : Config, c.WellFormed →
    (∀ r, r < c.outH → srow c r < c.srcH) ∧ (∀ x, x < c.outW → scol c x < c.srcW) ∧
    (∀ r r', r ≤ r' → srow c r ≤ srow c r') ∧ (∀ x x', x ≤ x' → scol c x ≤ scol c x') ∧
    (∀ k r x, r < c.outH → x < c.outW →
      Within (pixelAddr c k (scol c x) (srow c r)) (snapAddr c k) (2 * c.srcW * c.srcH) ∧
      Within (pixelAddr c k (scol c x) (srow c r) + 1#32) (snapAddr c k) (2 * c.srcW * c.srcH))

/-- 44_display_pipeline R266, R267: the colour conversion keeps each channel in the high bits of its field, so it is
injective, and takes the values R267 lists; alpha is ignored. -/
def Obligations.ColourConversion : Prop :=
  (∀ r g b : BitVec 4, (rgb565 r g b).extractLsb' 12 4 = r ∧ (rgb565 r g b).extractLsb' 7 4 = g ∧
    (rgb565 r g b).extractLsb' 1 4 = b) ∧
  (∀ r g b r' g' b' : BitVec 4, rgb565 r g b = rgb565 r' g' b' → r = r' ∧ g = g' ∧ b = b') ∧
  rgb565 0xF#4 0xF#4 0xF#4 = 0xFFFF#16 ∧ rgb565 0#4 0#4 0#4 = 0#16 ∧ rgb565 0xF#4 0#4 0#4 = 0xF800#16 ∧
  rgb565 0#4 0xF#4 0#4 = 0x07E0#16 ∧ rgb565 0#4 0#4 0xF#4 = 0x001F#16 ∧ rgb565 8#4 8#4 8#4 = 0x8C51#16 ∧
  (∀ pix pix' : HalfWord, pix.extractLsb' 4 12 = pix'.extractLsb' 4 12 →
    pixelColour PixelLayout.default pix = pixelColour PixelLayout.default pix')

/-- 44_display_pipeline R270: SEND_FRAME enters C_WAIT, so BUSY1 reads 1, and changes nothing else; before INIT V it
records NOT_INIT. -/
def Obligations.SendFrameWaits : Prop :=
  ∀ s : State, s.busy .p1 = false → s.halted = false →
    (s.chanV.inited = true → exec .sendFrame s = .next { s with video := { s.video with cphase := .wait } }) ∧
    (s.chanV.inited = true → ∀ t, exec .sendFrame s = .next t → t.busy .p1 = true) ∧
    (s.chanV.inited = false → exec .sendFrame s = .next { s with faults := s.faults ||| (1#10 <<< 3) }) ∧
    encode .sendFrame = 0x121#32 ∧ Instr.sendFrame.admits .p0 = false ∧ Instr.sendFrame.admits .p1 = true

/-- 44_display_pipeline R272: SF_TAKE takes the published slot and starts a frame; it waits while the producer copies,
while nothing is fresh, and outside C_WAIT. `pending` stays. -/
def Obligations.SfTakeRule : Prop :=
  ∀ s : State,
    (s.video.cphase = .wait → s.video.fresh = true → s.video.pphase = .idle → s.halted = false →
      exec .sfTake s = .next { s with video := { s.video with
        consSlot := s.video.pubSlot, fresh := false, brow := 0#16, trow := 0#16, cphase := .build } }) ∧
    (s.video.cphase ≠ .wait ∨ s.video.fresh = false ∨ s.video.pphase ≠ .idle ∨ s.halted = true →
      exec .sfTake s = .next s) ∧
    encode .sfTake = 0x1C0#32

/-- 44_display_pipeline R273: SF_BUILD stores, for each output column, the colour of the source pixel the maps give,
high byte first, into Scanline Buffer `brow mod 2`; every other byte stays. It is enabled in C_BUILD alone. In the
default pixel layout the nibbles are those R273 writes out; that another layout is four different nibble places is the
MODEL'S reading (DEDUCED, safe: log 15). -/
def Obligations.SfBuildRule : Prop :=
  ∀ s : State, Sound s →
    (s.video.cphase = .build → s.halted = false → ∃ t, exec .sfBuild s = .next t ∧
      (∀ x, x < s.cfg.outW →
        let pix := s.mem.read16 (snapAddr s.cfg s.video.consSlot +
          BitVec.ofNat 32 (2 * (srow s.cfg s.video.brow.toNat * s.cfg.srcW + scol s.cfg x)))
        let p := rgb565 (nibble pix s.cfg.layout.r) (nibble pix s.cfg.layout.g) (nibble pix s.cfg.layout.b)
        let row := slAddr s.cfg (decide (s.video.brow.toNat % 2 = 1))
        (s.cfg.layout = PixelLayout.default →
          p = rgb565 (pix.extractLsb' 12 4) (pix.extractLsb' 8 4) (pix.extractLsb' 4 4)) ∧
        t.mem.read (row + BitVec.ofNat 32 (2 * x)) = p.extractLsb' 8 8 ∧
        t.mem.read (row + BitVec.ofNat 32 (2 * x + 1)) = p.extractLsb' 0 8) ∧
      (∀ a, ¬ Within a (slAddr s.cfg (decide (s.video.brow.toNat % 2 = 1))) (2 * s.cfg.outW) →
        t.mem.read a = s.mem.read a) ∧
      t = { s with mem := t.mem, video := { s.video with brow := s.video.brow + 1#16, cphase := .start } }) ∧
    (s.video.cphase ≠ .build ∨ s.halted = true → exec .sfBuild s = .next s) ∧
    encode .sfBuild = 0x1C1#32

/-- 44_display_pipeline R274: SF_START starts the transfer of row `trow` from Scanline Buffer `trow mod 2`, once the
previous transfer has completed; after the last row the sequencer drains. -/
def Obligations.SfStartRule : Prop :=
  ∀ s : State, s.cfg.WellFormed →
    (s.video.cphase = .start → s.chanV.dmaBusy = false → s.halted = false → exec .sfStart s = .next { s with
      chanV := { s.chanV with
        dmaAddr := slAddr s.cfg (decide (s.video.trow.toNat % 2 = 1)), dmaCount := BitVec.ofNat 32 (2 * s.cfg.outW),
        dmaDone := false, dmaBusy := true }
      video := { s.video with
        trow := s.video.trow + 1#16
        cphase := if s.video.brow.toNat < s.cfg.outH then .build else .drain } }) ∧
    (s.video.cphase ≠ .start ∨ s.chanV.dmaBusy = true ∨ s.halted = true → exec .sfStart s = .next s) ∧
    encode .sfStart = 0x1C2#32

/-- 44_display_pipeline R275: SF_FINISH ends the frame once the last transfer has completed; a frame published
meanwhile stays pending. -/
def Obligations.SfFinishRule : Prop :=
  ∀ s : State,
    (s.video.cphase = .drain → s.chanV.dmaBusy = false → s.halted = false →
      exec .sfFinish s = .next { s with video := { s.video with pending := s.video.fresh, cphase := .idle } } ∧
      ∀ t, exec .sfFinish s = .next t → t.busy .p1 = false) ∧
    (s.video.cphase ≠ .drain ∨ s.chanV.dmaBusy = true ∨ s.halted = true → exec .sfFinish s = .next s) ∧
    encode .sfFinish = 0x1C3#32

/-- 44_display_pipeline R272, R276 (f): SF_TAKE opens the stream of the frame it takes, after the bytes already
committed to the panel. -/
def Obligations.TakeOpensFrameStream : Prop :=
  ∀ s t : State, Sound s → VideoInv s → s.video.cphase = .wait → s.video.fresh = true → s.video.pphase = .idle →
    s.halted = false → exec .sfTake s = .next t →
    t.consuming = true ∧ t.video.consSlot = s.video.pubSlot ∧ FrameStream (s.outV ++ s.fifoV) t

/-- 44_display_pipeline R276, 45_frame_handoff R305: while a frame is consumed, every step that is no reset, no STOP V
and no store into a buffer keeps the panel's bytes exactly the rows built so far of the frame taken, in order and
unmixed; and the step that ends the frame leaves all `P_OUT_H` rows emitted or in the FIFO. -/
def Obligations.StepKeepsFrameStream : Prop :=
  ∀ (s t : State) (before : List Byte), Sound s → VideoInv s → KeepsFrame s → s.consuming = true →
    FrameStream before s → step s = .next t →
    (t.consuming = true ∧ FrameStream before t) ∨
    (t.video.cphase = .idle ∧ t.outV ++ t.fifoV = before ++ frameRows s.cfg s.mem s.video.consSlot s.cfg.outH)

/-! ### Frame handoff (45_frame_handoff) -/

/-- 45_frame_handoff R301: RENDER_FRAME notes the framebuffer, picks the slot the consumer is not reading and begins a
copy; a null framebuffer changes nothing; before INIT V it records NOT_INIT. -/
def Obligations.RenderFrameBeginsCopy : Prop :=
  ∀ s : State, s.busy .p0 = false → s.halted = false →
    (s.chanV.inited = true → s.port0.arg0 = 0#32 → exec .renderFrame s = .next s) ∧
    (s.chanV.inited = true → s.port0.arg0 ≠ 0#32 → exec .renderFrame s = .next { s with video := { s.video with
      rfSrc := s.port0.arg0, wrSlot := !s.video.consSlot, pphase := .copy } }) ∧
    (s.chanV.inited = false → exec .renderFrame s = .next { s with faults := s.faults ||| (1#10 <<< 3) }) ∧
    encode .renderFrame = 0x120#32 ∧ Instr.renderFrame.admits .p0 = true ∧ Instr.renderFrame.admits .p1 = false

/-- 45_frame_handoff R302: RF_COPY copies the framebuffer, as it stood before the step, byte for byte into the write
slot; every other byte stays. It is enabled in P_COPY alone. -/
def Obligations.RfCopyRule : Prop :=
  ∀ s : State, Sound s →
    (s.video.pphase = .copy → s.halted = false → ∃ t, exec .rfCopy s = .next t ∧
      (∀ j, j < 2 * s.cfg.srcW * s.cfg.srcH →
        t.mem.read (snapAddr s.cfg s.video.wrSlot + BitVec.ofNat 32 j) =
          s.mem.read (s.video.rfSrc + BitVec.ofNat 32 j)) ∧
      (∀ a, ¬ Within a (snapAddr s.cfg s.video.wrSlot) (2 * s.cfg.srcW * s.cfg.srcH) → t.mem.read a = s.mem.read a) ∧
      t = { s with mem := t.mem, video := { s.video with pphase := .publish } }) ∧
    (s.video.pphase ≠ .copy ∨ s.halted = true → exec .rfCopy s = .next s) ∧
    encode .rfCopy = 0x1B0#32

/-- 45_frame_handoff R303: RF_PUBLISH publishes the copied slot and frees port 0. It is enabled in P_PUBLISH alone. -/
def Obligations.RfPublishRule : Prop :=
  ∀ s : State,
    (s.video.pphase = .publish → s.halted = false → exec .rfPublish s = .next { s with video := { s.video with
      pubSlot := s.video.wrSlot, fresh := true, pending := true, pphase := .idle } }) ∧
    (s.video.pphase ≠ .publish ∨ s.halted = true → exec .rfPublish s = .next s) ∧
    encode .rfPublish = 0x1B1#32

/-- 45_frame_handoff R305: while a copy is incomplete the slot SF_BUILD reads is not the slot being copied into; while a
frame is consumed RF_COPY leaves every byte of its slot alone; no frame is taken while a copy is in progress; and the
slot read stays the same slot. -/
def Obligations.NeverReadMidWrite : Prop :=
  (∀ s : State, VideoInv s → s.video.cphase = .build → s.copying = true → s.video.wrSlot ≠ s.video.consSlot) ∧
  (∀ s t : State, Sound s → VideoInv s → s.consuming = true → exec .rfCopy s = .next t →
    ∀ a, Within a (snapAddr s.cfg s.video.consSlot) (snapSize s.cfg) → t.mem.read a = s.mem.read a) ∧
  (∀ s : State, s.copying = true → exec .sfTake s = .next s) ∧
  (∀ (i : Instr) (s t : State), VideoInv s → s.consuming = true → exec i s = .next t →
    t.video.consSlot = s.video.consSlot)

/-- 45_frame_handoff R307 (and 40_channel_control R142, which resets the flags at INIT V): which instruction writes
which handoff field. -/
def Obligations.SingleWriterPerField : Prop :=
  ∀ (i : Instr) (s t : State), exec i s = .next t →
    (t.video.rfSrc ≠ s.video.rfSrc → i = .renderFrame) ∧
    (t.video.wrSlot ≠ s.video.wrSlot → i = .renderFrame ∨ i = .init .V) ∧
    (t.video.pubSlot ≠ s.video.pubSlot → i = .rfPublish ∨ i = .init .V) ∧
    (t.video.consSlot ≠ s.video.consSlot → i = .sfTake ∨ i = .init .V) ∧
    (t.video.fresh = true → s.video.fresh = false → i = .rfPublish) ∧
    (t.video.fresh = false → s.video.fresh = true → i = .sfTake ∨ i = .init .V) ∧
    (t.video.pending = true → s.video.pending = false → i = .rfPublish ∨ i = .sfFinish) ∧
    (t.video.pending = false → s.video.pending = true → i = .sfFinish ∨ i = .init .V)

/-- 45_frame_handoff R306: whatever the consumer's state, RENDER_FRAME begins a copy, and a render in progress on a live
block is published by two steps of the producer, which no other instruction undoes or advances; only the producer's own
unfinished render holds port 0. -/
def Obligations.ProducerNeverWaitsForConsumer : Prop :=
  (∀ s : State, s.halted = false → s.chanV.inited = true → s.video.pphase = .idle → s.port0.arg0 ≠ 0#32 →
    ∃ t, exec .renderFrame s = .next t ∧ t.halted = false ∧ t.video.pphase = .copy) ∧
  (∀ s : State, s.halted = false → s.video.pphase = .copy →
    ∃ t, exec .rfCopy s = .next t ∧ t.halted = false ∧ t.video.pphase = .publish ∧
      ∃ u, exec .rfPublish t = .next u ∧ u.busy .p0 = false) ∧
  (∀ (i : Instr) (s t : State), exec i s = .next t → i ≠ .renderFrame → i ≠ .rfCopy → i ≠ .rfPublish →
    t.video.pphase = s.video.pphase) ∧
  (∀ s : State, s.busy .p0 = true ↔ s.video.pphase ≠ .idle) ∧
  (∀ s t : State, s.video.pphase ≠ .idle → exec .renderFrame s = .next t → t = s)

/-! ### Memory (20_memory) -/

/-- 20_memory R83: no instruction changes a byte outside the six buffers, only INIT, QUEUE_SAMPLES, RF_COPY and SF_BUILD
change memory at all, and a `clk` edge does not. -/
def Obligations.BlockWritesOnlyItsBuffers : Prop :=
  ∀ (i : Instr) (s t : State), Sound s → exec i s = .next t →
    (∀ a, ¬ InBuffers s.cfg a → t.mem.read a = s.mem.read a) ∧
    (i ∉ [.init .A, .init .V, .queueSamples, .rfCopy, .sfBuild] → t.mem = s.mem) ∧ (clkEdge s).mem = s.mem

/-- 20_memory R82: memory is little-endian, in reads and writes of one, two and four bytes. -/
def Obligations.MemoryIsLittleEndian : Prop :=
  ∀ (m : Memory) (a v : Word), m.wf = true →
    (∀ w : Width, (m.readWidth a w).toNat =
      ((List.range w.bytes).map fun k => (m.read (a + BitVec.ofNat 32 k)).toNat <<< (8 * k)).sum) ∧
    (m.readWidth a .half = (m.read16 a).setWidth 32 ∧ m.readWidth a .word = m.read32 a) ∧
    (∀ (w : Width) (k : Nat), k < w.bytes →
      (m.writeWidth a w v).read (a + BitVec.ofNat 32 k) = v.extractLsb' (8 * k) 8) ∧
    (∀ (w : Width) (b : Word), ¬ Within b a w.bytes → (m.writeWidth a w v).read b = m.read b) ∧
    (m.writeWidth a .word v = m.write32 a v ∧ (m.write32 a v).read32 a = v)

/-! ### Reset and the invariants (10_state R71, R75, 70_reset_and_hazards) -/

/-- 10_state R71, 70_reset_and_hazards R370: a reset gives every field its reset value and leaves memory alone; that a
reset is one turn is the model's choice (log 14), and so is what the outside world keeps (log 4). -/
def Obligations.ResetGivesResetValues : Prop :=
  (∀ (s : State) (rest : List Turn), s.cfg.WellFormed → s.env.sched = .rst :: rest →
    ∃ t, step s = .next t ∧ t = {
      cfg := s.cfg, mem := s.mem, port0 := ⟨0#32, 0#32, 0#32⟩, port1 := ⟨0#32, 0#32, 0#32⟩,
      chanA := ⟨false, false, 0#16, false, false, false, 0#32, 0#32⟩,
      chanV := ⟨false, false, 0#16, false, false, false, 0#32, 0#32⟩, fifoA := [], fifoV := [],
      tgA := ⟨0#16, .low, 0, 0#32, false, false⟩, tgV := ⟨0#16, .low, 0, 0#8, false⟩,
      pins := { audBck := false, audWs := s.cfg.wsLeft, audDout := false, lcdSck := false, lcdMosi := false },
      outA := [], outV := [],
      ring := { activeId := false, fillId := true, ready := false, xferLen := 0#32 },
      video := { pending := false, fresh := false, consSlot := false, pubSlot := false, wrSlot := false,
                 pphase := .idle, rfSrc := 0#32, cphase := .idle, brow := 0#16, trow := 0#16 },
      faults := 0#10, halted := false, env := { s.env with sched := rest } } ∧
    (∀ i, i.isEvent = true → exec i t = .next t)) ∧
  State.reset = State.resetIn Config.reference [] ⟨[], [], [], [], [], 0⟩

/-- The invariants hold right after a reset, in every well-formed configuration and so in that of `State.reset`. -/
def Obligations.ResetMeetsInvariants : Prop :=
  Config.reference.WellFormed ∧
  ∀ (c : Config) (m : Memory) (e : Env), c.WellFormed → m.wf = true →
    let s := State.resetIn c m e
    Sound s ∧ AudioInv s ∧ VideoInv s ∧ FifoInv s ∧ FaultInv s ∧ PinInv s

/-- 10_state R75 (iii), 00_scope R9: every step keeps memory in canonical form, the configuration as it is, and the
FIFOs within their depth. -/
def Obligations.StepKeepsMemoryConfigAndFifos : Prop :=
  ∀ s t : State, Sound s → step s = .next t → Sound t ∧ t.cfg = s.cfg ∧ (FifoInv s → FifoInv t)

/-- 10_state R75 (i), (ii), (iv), 43_audio_ring R220, 20_memory R86: every step keeps the audio ring's invariant. -/
def Obligations.StepKeepsAudioRing : Prop :=
  ∀ s t : State, Sound s → AudioInv s → step s = .next t → AudioInv t

/-- 10_state R75 (v)-(vii), 44_display_pipeline R276, 60_exceptions R335: every step keeps the handoff's and the
scanline sequencer's invariant. -/
def Obligations.StepKeepsHandoff : Prop :=
  ∀ s t : State, Sound s → VideoInv s → step s = .next t → VideoInv t

/-- 42_dma R191, 60_exceptions R338, R347: the faults that no legal sequence reaches stay unrecorded. -/
def Obligations.StepKeepsUnreachableFaultsClear : Prop :=
  ∀ s t : State, Sound s → AudioInv s → VideoInv s → FaultInv s → step s = .next t → FaultInv t

/-- 10_state R75: (i) to (vii) hold in every state a run from a reset reaches, whatever the configuration, the memory,
the programs and the order of turns.It gathers what `ResetMeetsInvariants` and the step statements
(`StepKeepsMemoryConfigAndFifos`, `StepKeepsAudioRing`, `StepKeepsHandoff`) say of a run. -/
def Obligations.ReachableStatesMeetR75 : Prop :=
  ∀ s : State, Reachable s → R75 s

/-- 70_reset_and_hazards R377: on a quiet channel A only SM_SILENCE is enabled, and only if the channel is started; on
a quiet channel V no step is; in a quiescent block with audio stopped no internal step is. -/
def Obligations.QuietBlockHasNoStep : Prop :=
  ∀ s : State,
    (QuietA s → exec .smEmitA s = .next s ∧ exec (.dmaBeat .A) s = .next s ∧ exec .airqSwap s = .next s ∧
      (s.chanA.smEn = false → exec .smSilence s = .next s)) ∧
    (QuietV s → ∀ i, i ∈ [.smEmitV, .dmaBeat .V, .rfCopy, .rfPublish, .sfTake, .sfBuild, .sfStart, .sfFinish] →
      exec i s = .next s) ∧
    (QuietA s → QuietV s → s.chanA.smEn = false → ∀ i : Instr, i.isEvent = true → exec i s = .next s)

/-! ### A core's own loads and stores (20_memory) -/

/-- 20_memory R80, R89: a core's load returns the bytes of the shared memory at its address and changes nothing else;
its store changes those bytes and nothing else, in the block or outside it. What a read and a write of each width are is
`MemoryIsLittleEndian`. That a core's access is of 1, 2 or 4 bytes at any alignment, and reaches memory at the window's
addresses too, is the MODEL'S CHOICE (log 17); so is the core as a list of accesses (log 4). -/
def Obligations.CoreLoadsAndStores : Prop :=
  ∀ (s : State) (p : Port) (a : Word) (w : Width) (rest : List Turn) (more : List Access), s.cfg.WellFormed →
    s.env.sched = .core p :: rest →
    let u := (s.setSched rest).setProg p more
    (s.prog p = .load a w :: more → step s = .next (u.giveBack p (s.mem.readWidth a w))) ∧
    (∀ v, s.prog p = .store a w v :: more → step s = .next { u with mem := s.mem.writeWidth a w v })
end

