-- ==== Sys2Proof/Laws/Memory.lean ====
section
/-! SUPPORT. Memory.lean: the laws of the memory operations: what a byte reads as after a write, a block write or a
zeroing, and that each of them keeps the canonical form. -/

namespace Sys2Proof.Machine

/-- The addresses rise strictly. -/
abbrev Memory.Sorted (m : Memory) : Prop := m.Pairwise (fun x y => x.1 < y.1)

theorem Memory.wf_iff (m : Memory) :
    m.wf = true ↔ m.Sorted ∧ ∀ c ∈ m, c.1 < 2 ^ 32 ∧ c.2 ≠ Memory.unlisted := by
  simp [Memory.wf, Memory.Sorted, List.all_eq_true]

theorem Memory.wf_sorted {m : Memory} (h : m.wf = true) : m.Sorted := ((Memory.wf_iff m).1 h).1

theorem Memory.lookup_of_below {k : Nat} : ∀ {m : Memory}, (∀ c ∈ m, k < c.1) → Memory.lookup k m = Memory.unlisted
  | [], _ => rfl
  | (k', b) :: rest, h => by
    have h1 : k < k' := h (k', b) (by simp)
    have h2 : ¬ k' = k := by omega
    simp only [Memory.lookup, h2, if_false]
    exact Memory.lookup_of_below fun c hc => h c (by simp [hc])

theorem Memory.lookup_put {m : Memory} (hm : m.Sorted) (k k' : Nat) (b : Byte) :
    Memory.lookup k (Memory.put k' b m) = if k = k' then b else Memory.lookup k m := by
  induction m with
  | nil =>
    by_cases hb : b = Memory.unlisted
    · simp only [Memory.put, hb, if_true, Memory.lookup]; split <;> rfl
    · simp only [Memory.put, hb, if_false, Memory.lookup, eq_comm]
  | cons c rest ih =>
    obtain ⟨k1, b1⟩ := c
    have hr : Memory.Sorted rest := (List.pairwise_cons.1 hm).2
    have hhead : ∀ x ∈ rest, k1 < x.1 := fun x hx => (List.pairwise_cons.1 hm).1 x hx
    have ih := ih hr
    by_cases h1 : k' < k1
    · have habs : Memory.lookup k' ((k1, b1) :: rest) = Memory.unlisted :=
        Memory.lookup_of_below fun c hc => by
          rcases List.mem_cons.1 hc with rfl | hc
          · exact h1
          · exact lt_trans h1 (hhead c hc)
      by_cases hb : b = Memory.unlisted
      · simp only [Memory.put, h1, hb, if_true]
        by_cases hk : k = k'
        · subst hk; simp [habs]
        · simp [hk]
      · simp only [Memory.put, h1, hb, if_true, if_false]
        by_cases hk : k = k'
        · subst hk; simp [Memory.lookup]
        · have : ¬ k' = k := fun h => hk h.symm
          simp [Memory.lookup, hk, this]
    · by_cases h2 : k' = k1
      · subst h2
        have hrest : Memory.lookup k' rest = Memory.unlisted := Memory.lookup_of_below hhead
        by_cases hb : b = Memory.unlisted
        · simp only [Memory.put, lt_irrefl, hb, if_true, if_false]
          by_cases hk : k = k'
          · subst hk; simp [hrest]
          · have : ¬ k' = k := fun h => hk h.symm
            simp [Memory.lookup, hk, this]
        · simp only [Memory.put, lt_irrefl, hb, if_true, if_false]
          by_cases hk : k = k'
          · subst hk; simp [Memory.lookup]
          · have : ¬ k' = k := fun h => hk h.symm
            simp [Memory.lookup, hk, this]
      · simp only [Memory.put, h1, h2, if_false, Memory.lookup, ih]
        by_cases hk : k = k'
        · subst hk
          have : ¬ k1 = k := fun h => h2 h.symm
          simp [this]
        · simp [hk]

/-- A key of `put` is the key put or one that was there. -/
theorem Memory.mem_put {k : Nat} {b : Byte} {c : Host.Cell} :
    ∀ {m : Memory}, c ∈ Memory.put k b m → (c = (k, b) ∧ b ≠ Memory.unlisted) ∨ c ∈ m
  | [], h => by
    by_cases hb : b = Memory.unlisted
    · simp [Memory.put, hb] at h
    · simp only [Memory.put, hb, if_false, List.mem_singleton] at h; exact .inl ⟨h, hb⟩
  | (k1, b1) :: rest, h => by
    simp only [Memory.put] at h
    split at h
    · split at h
      · exact .inr h
      · rcases List.mem_cons.1 h with rfl | h
        · exact .inl ⟨rfl, ‹_›⟩
        · exact .inr h
    · split at h
      · split at h
        · exact .inr (List.mem_cons_of_mem _ h)
        · rcases List.mem_cons.1 h with rfl | h
          · exact .inl ⟨rfl, ‹_›⟩
          · exact .inr (List.mem_cons_of_mem _ h)
      · rcases List.mem_cons.1 h with rfl | h
        · exact .inr (by simp)
        · rcases Memory.mem_put h with h | h
          · exact .inl h
          · exact .inr (List.mem_cons_of_mem _ h)

theorem Memory.sorted_put {k : Nat} {b : Byte} : ∀ {m : Memory}, m.Sorted → Memory.Sorted (Memory.put k b m)
  | [], _ => by simp only [Memory.put]; split <;> simp [Memory.Sorted]
  | (k1, b1) :: rest, h => by
    have hhead := (List.pairwise_cons.1 h).1
    have hrest : Memory.Sorted rest := (List.pairwise_cons.1 h).2
    simp only [Memory.put]
    split
    · rename_i hlt
      split
      · exact h
      · refine List.pairwise_cons.2 ⟨fun x hx => ?_, h⟩
        rcases List.mem_cons.1 hx with rfl | hx
        · exact hlt
        · exact lt_trans hlt (hhead x hx)
    · split
      · rename_i hlt heq
        subst heq
        split
        · exact hrest
        · exact List.pairwise_cons.2 ⟨hhead, hrest⟩
      · refine List.pairwise_cons.2 ⟨fun x hx => ?_, Memory.sorted_put hrest⟩
        rcases Memory.mem_put hx with ⟨rfl, _⟩ | hx
        · show k1 < k
          omega
        · exact hhead x hx

theorem Memory.wf_put {m : Memory} {k : Nat} {b : Byte} (hm : m.wf = true) (hk : k < 2 ^ 32) :
    Memory.wf (Memory.put k b m) = true := by
  obtain ⟨hs, hc⟩ := (Memory.wf_iff m).1 hm
  refine (Memory.wf_iff _).2 ⟨Memory.sorted_put hs, fun c h => ?_⟩
  rcases Memory.mem_put h with ⟨rfl, hb⟩ | h
  · exact ⟨hk, hb⟩
  · exact hc c h

theorem Memory.wf_nil : Memory.wf [] = true := rfl

theorem Memory.read_nil (a : Word) : Memory.read [] a = 0 := rfl

theorem Memory.wf_write {m : Memory} (hm : m.wf = true) (a : Word) (b : Byte) : (m.write a b).wf = true :=
  Memory.wf_put hm a.isLt

/-- A write changes the byte at its address and no other. -/
theorem Memory.read_write {m : Memory} (hm : m.wf = true) (a c : Word) (b : Byte) :
    (m.write a b).read c = if c = a then b else m.read c := by
  simp only [Memory.read, Memory.write, Memory.lookup_put (Memory.wf_sorted hm), BitVec.toNat_inj]

theorem Memory.wf_writeBytes {bs : List Byte} :
    ∀ {m : Memory}, m.wf = true → ∀ a : Word, (m.writeBytes a bs).wf = true := by
  induction bs with
  | nil => intro m hm a; exact hm
  | cons b bs ih => intro m hm a; exact ih (Memory.wf_write hm a b) _

/-- The distance from `a + 1` is one less than the distance from `a`, but at `a` itself. -/
theorem sub_succ_toNat {a c : Word} (h : c ≠ a) : (c - (a + 1#32)).toNat + 1 = (c - a).toNat := by
  have : c.toNat ≠ a.toNat := fun h' => h (BitVec.eq_of_toNat_eq h')
  have h1 := a.isLt
  have h2 := c.isLt
  simp only [BitVec.toNat_sub, BitVec.toNat_add, BitVec.toNat_ofNat]
  omega

/-- A block write changes exactly the bytes it stores. -/
theorem Memory.read_writeBytes {bs : List Byte} : ∀ {m : Memory}, m.wf = true → bs.length ≤ 2 ^ 32 → ∀ a c : Word,
    (m.writeBytes a bs).read c = (bs[(c - a).toNat]?).getD (m.read c) := by
  induction bs with
  | nil => intro m _ _ a c; simp [Memory.writeBytes]
  | cons b bs ih =>
    intro m hm hlen a c
    simp only [List.length_cons] at hlen
    rw [Memory.writeBytes, ih (Memory.wf_write hm a b) (by omega), Memory.read_write hm]
    by_cases h : c = a
    · subst h
      have h1 : (c - (c + 1#32)).toNat = 2 ^ 32 - 1 := by
        have := c.isLt
        simp only [BitVec.toNat_sub, BitVec.toNat_add, BitVec.toNat_ofNat]
        omega
      have h2 : bs[(c - (c + 1#32)).toNat]? = none := by
        rw [h1]; exact List.getElem?_eq_none (by omega)
      rw [h2]
      simp
    · rw [← sub_succ_toNat h, List.getElem?_cons_succ]
      simp [h]

theorem Memory.read_writeBytes_of_lt {m : Memory} (hm : m.wf = true) {bs : List Byte} (hl : bs.length ≤ 2 ^ 32)
    {a c : Word} (h : (c - a).toNat < bs.length) : (m.writeBytes a bs).read c = bs[(c - a).toNat] := by
  rw [Memory.read_writeBytes hm hl, List.getElem?_eq_getElem h]; rfl

theorem Memory.read_writeBytes_of_ge {m : Memory} (hm : m.wf = true) {bs : List Byte} (hl : bs.length ≤ 2 ^ 32)
    {a c : Word} (h : bs.length ≤ (c - a).toNat) : (m.writeBytes a bs).read c = m.read c := by
  rw [Memory.read_writeBytes hm hl, List.getElem?_eq_none h]; rfl

theorem Memory.wf_zero {m : Memory} (hm : m.wf = true) (a : Word) (n : Nat) : (m.zero a n).wf = true := by
  obtain ⟨hs, hc⟩ := (Memory.wf_iff m).1 hm
  exact (Memory.wf_iff _).2 ⟨hs.filter _, fun c h => hc c (List.mem_of_mem_filter h)⟩

theorem Memory.lookup_filter_key {p : Nat → Bool} {k : Nat} : ∀ (m : Memory),
    Memory.lookup k (m.filter fun c => p c.1) = if p k then Memory.lookup k m else Memory.unlisted
  | [] => by simp [Memory.lookup]
  | (k', b) :: rest => by
    have ih := Memory.lookup_filter_key (p := p) (k := k) rest
    by_cases hp : p k'
    · rw [List.filter_cons_of_pos (by exact hp), Memory.lookup, Memory.lookup, ih]
      by_cases hk : k' = k
      · subst hk; simp [hp]
      · simp [hk]
    · rw [List.filter_cons_of_neg (by exact hp), ih, Memory.lookup]
      by_cases hk : k' = k
      · subst hk; simp [hp]
      · simp [hk]

/-- A zeroing changes exactly its `n` bytes, to 0. -/
theorem Memory.read_zero (m : Memory) (a c : Word) (n : Nat) :
    (m.zero a n).read c = if (c - a).toNat < n then 0 else m.read c := by
  have h : (m.zero a n).read c = if !inRange a n c.toNat then m.read c else Memory.unlisted :=
    Memory.lookup_filter_key (p := fun k => !inRange a n k) m
  rw [h, inRange, BitVec.ofNat_toNat, BitVec.setWidth_eq]
  by_cases h : (c - a).toNat < n
  · rw [decide_eq_true h, if_pos h]; rfl
  · rw [decide_eq_false h, if_neg h]; rfl

@[simp] theorem Memory.length_readBytes (m : Memory) (a : Word) (n : Nat) : (m.readBytes a n).length = n := by
  simp [Memory.readBytes]

@[simp] theorem Memory.getElem_readBytes (m : Memory) (a : Word) (n i : Nat) (h : i < (m.readBytes a n).length) :
    (m.readBytes a n)[i] = m.read (a + BitVec.ofNat 32 i) := by
  simp [Memory.readBytes]

/-- Two memories that agree on a stretch give the same bytes there. -/
theorem Memory.readBytes_congr {m m' : Memory} {a : Word} {n : Nat}
    (h : ∀ i, i < n → m'.read (a + BitVec.ofNat 32 i) = m.read (a + BitVec.ofNat 32 i)) :
    m'.readBytes a n = m.readBytes a n := by
  simp only [Memory.readBytes]
  exact List.map_congr_left fun i hi => h i (List.mem_range.1 hi)

/-- One byte more at the front. -/
theorem Memory.readBytes_succ (m : Memory) (a : Word) (n : Nat) :
    m.readBytes a (n + 1) = m.read a :: m.readBytes (a + 1#32) n := by
  simp only [Memory.readBytes, List.range_succ_eq_map, List.map_cons, List.map_map]
  refine congrArg₂ _ (by simp) (List.map_congr_left fun i _ => ?_)
  simp only [Function.comp_apply, BitVec.add_assoc]
  congr 2
  apply BitVec.eq_of_toNat_eq
  simp only [BitVec.toNat_ofNat, BitVec.toNat_add]
  omega

/-- In a stretch that does not pass the top of the address space, a small distance is an interval of addresses. -/
theorem sub_toNat_lt_iff {a c : Word} {n : Nat} (h : a.toNat + n ≤ 2 ^ 32) :
    (c - a).toNat < n ↔ a.toNat ≤ c.toNat ∧ c.toNat < a.toNat + n := by
  have h1 := a.isLt
  have h2 := c.isLt
  simp only [BitVec.toNat_sub]
  omega

@[simp] theorem length_wordBytes (w : Word) : (wordBytes w).length = 4 := rfl

end Sys2Proof.Machine
end

