-- ==== Sys2Proof/Laws/Buffers.lean ====
section
/-! SUPPORT. Buffers.lean: the byte sequences the block stores: how long they are, which byte stands where, and that a
block of words reads back. -/

namespace Sys2Proof.Machine

/-- Pieces of one length, joined. -/
theorem length_flatMap_const {α β : Type} (l : List α) (f : α → List β) (k : Nat) (h : ∀ x, (f x).length = k) :
    (l.flatMap f).length = l.length * k := by
  induction l with
  | nil => simp
  | cons a l ih => simp [ih, h]; ring

theorem length_wireBytes (m : Memory) (ptr : Word) (n : Nat) : (wireBytes m ptr n).length = 4 * n := by
  rw [wireBytes, length_flatMap_const _ _ 4 (fun _ => rfl)]; simp; ring

theorem length_rowBytes (c : Config) (m : Memory) (k : Bool) (r : Nat) : (rowBytes c m k r).length = slSize c := by
  rw [rowBytes, length_flatMap_const _ _ 2 (fun _ => rfl)]; simp [slSize]; ring

/-- Where a byte of one piece stands among pieces of one length. -/
theorem getElem?_flatMap_range {β : Type} (n k : Nat) (f : Nat → List β) (h : ∀ x, (f x).length = k) (j i : Nat)
    (hj : j < n) (hi : i < k) :
    ((List.range n).flatMap f)[k * j + i]? = (f j)[i]? := by
  induction n with
  | zero => omega
  | succ n ih =>
    rw [List.range_succ, List.flatMap_append]
    have hl : ((List.range n).flatMap f).length = n * k := by rw [length_flatMap_const _ _ k h]; simp
    by_cases hjn : j < n
    · rw [List.getElem?_append_left, ih hjn]
      rw [hl]; nlinarith
    · have : j = n := by omega
      subst this
      rw [List.getElem?_append_right (by rw [hl]; nlinarith), hl]
      have : k * j + i - j * k = i := by rw [Nat.mul_comm k j]; omega
      rw [this]; simp

/-- The distance of an address from a base below it. -/
theorem off_toNat (a : Word) (k : Nat) (h : k < 2^32) : ((a + BitVec.ofNat 32 k) - a).toNat = k := by
  have := a.isLt
  simp only [BitVec.toNat_sub, BitVec.toNat_add, BitVec.toNat_ofNat]; omega

theorem add_ofNat (a : Word) (i j : Nat) :
    a + BitVec.ofNat 32 i + BitVec.ofNat 32 j = a + BitVec.ofNat 32 (i + j) := by
  rw [BitVec.add_assoc, BitVec.ofNat_add]

/-- A word is its four bytes (20_memory R82). -/
theorem concat_wordBytes (w : Word) :
    w.extractLsb' 24 8 ++ w.extractLsb' 16 8 ++ w.extractLsb' 8 8 ++ w.extractLsb' 0 8 = w := by
  apply BitVec.eq_of_getLsbD_eq
  intro i hi
  simp only [BitVec.getLsbD_append, BitVec.getLsbD_extractLsb']
  by_cases h1 : i < 8
  · simp [h1]
  · by_cases h2 : i < 16
    · have : i - 8 < 8 := by omega
      have e : 8 + (i - 8) = i := by omega
      simp [h1, this, e]
    · by_cases h3 : i < 24
      · have a1 : ¬ i - 8 < 8 := by omega
        have a2 : i - 8 - 8 < 8 := by omega
        have e : 16 + (i - 8 - 8) = i := by omega
        simp [h1, a1, a2, e]
      · have a1 : ¬ i - 8 < 8 := by omega
        have a2 : ¬ i - 8 - 8 < 8 := by omega
        have a3 : i - 8 - 8 - 8 < 8 := by omega
        have e : 24 + (i - 8 - 8 - 8) = i := by omega
        simp [h1, a1, a2, a3, e]

/-- A word of a block write of words reads back. -/
theorem read32_writeBytes_words {m : Memory} (hm : m.wf = true) (a : Word) (n : Nat) (f : Nat → Word)
    (hn : 4 * n ≤ 2 ^ 32) (j : Nat) (hj : j < n) :
    (m.writeBytes a ((List.range n).flatMap fun i => wordBytes (f i))).read32 (a + BitVec.ofNat 32 (4 * j)) = f j := by
  have hl : ((List.range n).flatMap fun i => wordBytes (f i)).length = 4 * n := by
    rw [length_flatMap_const _ _ 4 (fun _ => rfl)]; simp; ring
  have key : ∀ i, i < 4 → (m.writeBytes a ((List.range n).flatMap fun i => wordBytes (f i))).read
      (a + BitVec.ofNat 32 (4 * j) + BitVec.ofNat 32 i) = (wordBytes (f j))[i]?.getD 0 := by
    intro i hi
    rw [add_ofNat, Memory.read_writeBytes hm (by omega), off_toNat _ _ (by omega),
      getElem?_flatMap_range n 4 _ (fun _ => rfl) j i hj hi]
    have : i < (wordBytes (f j)).length := by simpa using hi
    rw [List.getElem?_eq_getElem this]; rfl
  have k0 := key 0 (by omega)
  have k1 := key 1 (by omega)
  have k2 := key 2 (by omega)
  have k3 := key 3 (by omega)
  simp only [BitVec.ofNat_eq_ofNat] at k0
  have z : a + BitVec.ofNat 32 (4 * j) + 0#32 = a + BitVec.ofNat 32 (4 * j) := by simp
  rw [z] at k0
  unfold Memory.read32
  rw [k0, k1, k2, k3]
  exact concat_wordBytes _

/-- The parity of a row number as a buffer index. -/
theorem rowParity_eq (r : BitVec 16) : rowParity r = decide (r.toNat % 2 = 1) := by
  simp [rowParity, BitVec.getLsbD, Nat.testBit_zero]

end Sys2Proof.Machine
end

