-- ==== Sys2Proof/Laws/Clock.lean ====
section
/-! SUPPORT. Clock.lean: which fields a register write and a `clk` edge can change. -/

namespace Sys2Proof.Machine

/-- A register write changes `ARG` registers alone. -/
theorem writeReg_fields (s : State) (o : BitVec 8) (v : Word) :
    ∃ p0 p1, writeReg s o v = { s with port0 := p0, port1 := p1 } := by
  unfold writeReg; split <;> exact ⟨_, _, rfl⟩
/-- One edge of the display generator takes at most one byte off its FIFO. -/
theorem clkV_fields (s : State) :
    ∃ a b c d, clkV s = { s with fifoV := a, tgV := b, outV := c, pins := d } ∧ (a = s.fifoV ∨ ∃ x, s.fifoV = x :: a) := by
  unfold clkV
  split; · exact ⟨_, _, _, _, rfl, .inl rfl⟩
  split
  · split
    · exact ⟨_, _, _, _, rfl, .inr ⟨_, ‹_›⟩⟩
    · exact ⟨_, _, _, _, rfl, .inl rfl⟩
  · dsimp only
    split; · exact ⟨_, _, _, _, rfl, .inl rfl⟩
    split
    · exact ⟨_, _, _, _, rfl, .inl rfl⟩
    · unfold nextSlotV; split
      · split
        · exact ⟨_, _, _, _, rfl, .inr ⟨_, ‹_›⟩⟩
        · exact ⟨_, _, _, _, rfl, .inl rfl⟩
      · exact ⟨_, _, _, _, rfl, .inl rfl⟩

/-- A load takes at most one word off the FIFO. -/
theorem loadA_fields (s : State) :
    ∃ a b c, loadA s = { s with fifoA := a, tgA := b, outA := c } ∧ (a = s.fifoA ∨ ∃ x, s.fifoA = x :: a) := by
  unfold loadA; split
  · exact ⟨_, _, _, rfl, .inr ⟨_, ‹_›⟩⟩
  · exact ⟨_, _, _, rfl, .inl rfl⟩

/-- One edge of the audio generator takes at most one word off its FIFO. -/
theorem clkA_fields (s : State) :
    ∃ a b c d, clkA s = { s with fifoA := a, tgA := b, outA := c, pins := d } ∧ (a = s.fifoA ∨ ∃ x, s.fifoA = x :: a) := by
  unfold clkA
  split; · exact ⟨_, _, _, _, rfl, .inl rfl⟩
  split
  · obtain ⟨a, b, c, h, h'⟩ := loadA_fields s
    rw [h]; exact ⟨_, _, _, _, rfl, h'⟩
  · dsimp only
    split; · exact ⟨_, _, _, _, rfl, .inl rfl⟩
    split
    · exact ⟨_, _, _, _, rfl, .inl rfl⟩
    · unfold nextSlotA; split
      · obtain ⟨a, b, c, h, h'⟩ := loadA_fields { s with
          tgA := { s.tgA with ctr := (divider s.chanA.div s.tgA.ctr).1, half := .low },
          pins := { s.pins with audBck := false } }
        rw [h]; exact ⟨_, _, _, _, rfl, h'⟩
      · exact ⟨_, _, _, _, rfl, .inl rfl⟩

/-- A `clk` edge changes the generators, their FIFOs, streams and pins alone. -/
theorem clkEdge_fields (s : State) :
    ∃ a b c d e f g, clkEdge s = { s with fifoA := a, tgA := b, outA := c, fifoV := d, tgV := e, outV := f, pins := g } ∧
     (a = s.fifoA ∨ ∃ x, s.fifoA = x :: a) ∧ (d = s.fifoV ∨ ∃ x, s.fifoV = x :: d) := by
  unfold clkEdge; split
  · exact ⟨_, _, _, _, _, _, _, rfl, .inl rfl, .inl rfl⟩
  · obtain ⟨a, b, c, d, h, h1⟩ := clkA_fields s
    obtain ⟨a', b', c', d', h', h2⟩ := clkV_fields (clkA s)
    rw [h', h]; rw [h] at h2; exact ⟨_, _, _, _, _, _, _, rfl, h1, h2⟩

/-- The display generator leaves the audio side alone. -/
theorem clkV_audio (s : State) :
    (clkV s).tgA = s.tgA ∧ (clkV s).fifoA = s.fifoA ∧ (clkV s).outA = s.outA ∧
    (clkV s).chanA = s.chanA ∧ (clkV s).chanV = s.chanV ∧ (clkV s).cfg = s.cfg ∧
    (clkV s).pins.audBck = s.pins.audBck ∧ (clkV s).pins.audWs = s.pins.audWs ∧ (clkV s).pins.audDout = s.pins.audDout := by
  unfold clkV
  split; · simp
  split
  · split <;> simp [loadV]
  · dsimp only
    split; · simp
    split
    · simp
    · unfold nextSlotV; split
      · split <;> simp [loadV]
      · simp

/-- The audio generator leaves the display side alone. -/
theorem clkA_video (s : State) :
    (clkA s).tgV = s.tgV ∧ (clkA s).fifoV = s.fifoV ∧ (clkA s).outV = s.outV ∧
    (clkA s).chanA = s.chanA ∧ (clkA s).chanV = s.chanV ∧ (clkA s).cfg = s.cfg ∧
    (clkA s).pins.lcdSck = s.pins.lcdSck ∧ (clkA s).pins.lcdMosi = s.pins.lcdMosi := by
  unfold clkA
  split; · simp
  split
  · unfold driveA loadA; split <;> simp
  · dsimp only
    split; · simp
    split
    · simp
    · unfold nextSlotA driveA loadA; split
      · split <;> simp
      · simp

end Sys2Proof.Machine
end

