-- ==== Sys2Proof/Laws/State.lean ====
section
/-! SUPPORT. State.lean: for each update of the state declared beside it, what every field reads after it. -/

namespace Sys2Proof.Machine

@[simp] theorem State.setChan_cfg (s : State) (ch : Channel) (c : Chan) : (s.setChan ch c).cfg = s.cfg := by cases ch <;> rfl
@[simp] theorem State.setChan_mem (s : State) (ch : Channel) (c : Chan) : (s.setChan ch c).mem = s.mem := by cases ch <;> rfl
@[simp] theorem State.setChan_port0 (s : State) (ch : Channel) (c : Chan) : (s.setChan ch c).port0 = s.port0 := by cases ch <;> rfl
@[simp] theorem State.setChan_port1 (s : State) (ch : Channel) (c : Chan) : (s.setChan ch c).port1 = s.port1 := by cases ch <;> rfl
@[simp] theorem State.setChan_fifoA (s : State) (ch : Channel) (c : Chan) : (s.setChan ch c).fifoA = s.fifoA := by cases ch <;> rfl
@[simp] theorem State.setChan_fifoV (s : State) (ch : Channel) (c : Chan) : (s.setChan ch c).fifoV = s.fifoV := by cases ch <;> rfl
@[simp] theorem State.setChan_tgA (s : State) (ch : Channel) (c : Chan) : (s.setChan ch c).tgA = s.tgA := by cases ch <;> rfl
@[simp] theorem State.setChan_tgV (s : State) (ch : Channel) (c : Chan) : (s.setChan ch c).tgV = s.tgV := by cases ch <;> rfl
@[simp] theorem State.setChan_pins (s : State) (ch : Channel) (c : Chan) : (s.setChan ch c).pins = s.pins := by cases ch <;> rfl
@[simp] theorem State.setChan_outA (s : State) (ch : Channel) (c : Chan) : (s.setChan ch c).outA = s.outA := by cases ch <;> rfl
@[simp] theorem State.setChan_outV (s : State) (ch : Channel) (c : Chan) : (s.setChan ch c).outV = s.outV := by cases ch <;> rfl
@[simp] theorem State.setChan_ring (s : State) (ch : Channel) (c : Chan) : (s.setChan ch c).ring = s.ring := by cases ch <;> rfl
@[simp] theorem State.setChan_video (s : State) (ch : Channel) (c : Chan) : (s.setChan ch c).video = s.video := by cases ch <;> rfl
@[simp] theorem State.setChan_faults (s : State) (ch : Channel) (c : Chan) : (s.setChan ch c).faults = s.faults := by cases ch <;> rfl
@[simp] theorem State.setChan_halted (s : State) (ch : Channel) (c : Chan) : (s.setChan ch c).halted = s.halted := by cases ch <;> rfl
@[simp] theorem State.setChan_env (s : State) (ch : Channel) (c : Chan) : (s.setChan ch c).env = s.env := by cases ch <;> rfl

@[simp] theorem State.setChan_A_chanA (s : State) (c : Chan) : (s.setChan .A c).chanA = c := rfl
@[simp] theorem State.setChan_A_chanV (s : State) (c : Chan) : (s.setChan .A c).chanV = s.chanV := rfl
@[simp] theorem State.setChan_V_chanA (s : State) (c : Chan) : (s.setChan .V c).chanA = s.chanA := rfl
@[simp] theorem State.setChan_V_chanV (s : State) (c : Chan) : (s.setChan .V c).chanV = c := rfl
@[simp] theorem State.chan_A (s : State) : s.chan .A = s.chanA := rfl
@[simp] theorem State.chan_V (s : State) : s.chan .V = s.chanV := rfl
@[simp] theorem State.chan_setChan_same (s : State) (ch : Channel) (c : Chan) : (s.setChan ch c).chan ch = c := by
  cases ch <;> rfl
theorem State.chan_setChan_other (s : State) (ch ch' : Channel) (c : Chan) (h : ch' ≠ ch) :
    (s.setChan ch c).chan ch' = s.chan ch' := by
  cases ch <;> cases ch' <;> first | rfl | exact absurd rfl h

@[simp] theorem State.setPort_cfg (s : State) (p : Port) (r : PortRegs) : (s.setPort p r).cfg = s.cfg := by cases p <;> rfl
@[simp] theorem State.setPort_mem (s : State) (p : Port) (r : PortRegs) : (s.setPort p r).mem = s.mem := by cases p <;> rfl
@[simp] theorem State.setPort_chanA (s : State) (p : Port) (r : PortRegs) : (s.setPort p r).chanA = s.chanA := by cases p <;> rfl
@[simp] theorem State.setPort_chanV (s : State) (p : Port) (r : PortRegs) : (s.setPort p r).chanV = s.chanV := by cases p <;> rfl
@[simp] theorem State.setPort_fifoA (s : State) (p : Port) (r : PortRegs) : (s.setPort p r).fifoA = s.fifoA := by cases p <;> rfl
@[simp] theorem State.setPort_fifoV (s : State) (p : Port) (r : PortRegs) : (s.setPort p r).fifoV = s.fifoV := by cases p <;> rfl
@[simp] theorem State.setPort_tgA (s : State) (p : Port) (r : PortRegs) : (s.setPort p r).tgA = s.tgA := by cases p <;> rfl
@[simp] theorem State.setPort_tgV (s : State) (p : Port) (r : PortRegs) : (s.setPort p r).tgV = s.tgV := by cases p <;> rfl
@[simp] theorem State.setPort_pins (s : State) (p : Port) (r : PortRegs) : (s.setPort p r).pins = s.pins := by cases p <;> rfl
@[simp] theorem State.setPort_outA (s : State) (p : Port) (r : PortRegs) : (s.setPort p r).outA = s.outA := by cases p <;> rfl
@[simp] theorem State.setPort_outV (s : State) (p : Port) (r : PortRegs) : (s.setPort p r).outV = s.outV := by cases p <;> rfl
@[simp] theorem State.setPort_ring (s : State) (p : Port) (r : PortRegs) : (s.setPort p r).ring = s.ring := by cases p <;> rfl
@[simp] theorem State.setPort_video (s : State) (p : Port) (r : PortRegs) : (s.setPort p r).video = s.video := by cases p <;> rfl
@[simp] theorem State.setPort_faults (s : State) (p : Port) (r : PortRegs) : (s.setPort p r).faults = s.faults := by cases p <;> rfl
@[simp] theorem State.setPort_halted (s : State) (p : Port) (r : PortRegs) : (s.setPort p r).halted = s.halted := by cases p <;> rfl
@[simp] theorem State.setPort_env (s : State) (p : Port) (r : PortRegs) : (s.setPort p r).env = s.env := by cases p <;> rfl

@[simp] theorem State.port_setPort_same (s : State) (p : Port) (r : PortRegs) : (s.setPort p r).port p = r := by
  cases p <;> rfl

@[simp] theorem State.setProg_cfg (s : State) (p : Port) (l : List Access) : (s.setProg p l).cfg = s.cfg := by cases p <;> rfl
@[simp] theorem State.setProg_mem (s : State) (p : Port) (l : List Access) : (s.setProg p l).mem = s.mem := by cases p <;> rfl
@[simp] theorem State.setProg_port0 (s : State) (p : Port) (l : List Access) : (s.setProg p l).port0 = s.port0 := by cases p <;> rfl
@[simp] theorem State.setProg_port1 (s : State) (p : Port) (l : List Access) : (s.setProg p l).port1 = s.port1 := by cases p <;> rfl
@[simp] theorem State.setProg_chanA (s : State) (p : Port) (l : List Access) : (s.setProg p l).chanA = s.chanA := by cases p <;> rfl
@[simp] theorem State.setProg_chanV (s : State) (p : Port) (l : List Access) : (s.setProg p l).chanV = s.chanV := by cases p <;> rfl
@[simp] theorem State.setProg_fifoA (s : State) (p : Port) (l : List Access) : (s.setProg p l).fifoA = s.fifoA := by cases p <;> rfl
@[simp] theorem State.setProg_fifoV (s : State) (p : Port) (l : List Access) : (s.setProg p l).fifoV = s.fifoV := by cases p <;> rfl
@[simp] theorem State.setProg_tgA (s : State) (p : Port) (l : List Access) : (s.setProg p l).tgA = s.tgA := by cases p <;> rfl
@[simp] theorem State.setProg_tgV (s : State) (p : Port) (l : List Access) : (s.setProg p l).tgV = s.tgV := by cases p <;> rfl
@[simp] theorem State.setProg_pins (s : State) (p : Port) (l : List Access) : (s.setProg p l).pins = s.pins := by cases p <;> rfl
@[simp] theorem State.setProg_outA (s : State) (p : Port) (l : List Access) : (s.setProg p l).outA = s.outA := by cases p <;> rfl
@[simp] theorem State.setProg_outV (s : State) (p : Port) (l : List Access) : (s.setProg p l).outV = s.outV := by cases p <;> rfl
@[simp] theorem State.setProg_ring (s : State) (p : Port) (l : List Access) : (s.setProg p l).ring = s.ring := by cases p <;> rfl
@[simp] theorem State.setProg_video (s : State) (p : Port) (l : List Access) : (s.setProg p l).video = s.video := by cases p <;> rfl
@[simp] theorem State.setProg_faults (s : State) (p : Port) (l : List Access) : (s.setProg p l).faults = s.faults := by cases p <;> rfl
@[simp] theorem State.setProg_halted (s : State) (p : Port) (l : List Access) : (s.setProg p l).halted = s.halted := by cases p <;> rfl

@[simp] theorem State.prog_setProg_same (s : State) (p : Port) (l : List Access) : (s.setProg p l).prog p = l := by
  cases p <;> rfl
@[simp] theorem State.setProg_sched (s : State) (p : Port) (l : List Access) :
    (s.setProg p l).env.sched = s.env.sched := by
  cases p <;> rfl

@[simp] theorem State.giveBack_cfg (s : State) (p : Port) (v : Word) : (s.giveBack p v).cfg = s.cfg := by cases p <;> rfl
@[simp] theorem State.giveBack_mem (s : State) (p : Port) (v : Word) : (s.giveBack p v).mem = s.mem := by cases p <;> rfl
@[simp] theorem State.giveBack_port0 (s : State) (p : Port) (v : Word) : (s.giveBack p v).port0 = s.port0 := by cases p <;> rfl
@[simp] theorem State.giveBack_port1 (s : State) (p : Port) (v : Word) : (s.giveBack p v).port1 = s.port1 := by cases p <;> rfl
@[simp] theorem State.giveBack_chanA (s : State) (p : Port) (v : Word) : (s.giveBack p v).chanA = s.chanA := by cases p <;> rfl
@[simp] theorem State.giveBack_chanV (s : State) (p : Port) (v : Word) : (s.giveBack p v).chanV = s.chanV := by cases p <;> rfl
@[simp] theorem State.giveBack_fifoA (s : State) (p : Port) (v : Word) : (s.giveBack p v).fifoA = s.fifoA := by cases p <;> rfl
@[simp] theorem State.giveBack_fifoV (s : State) (p : Port) (v : Word) : (s.giveBack p v).fifoV = s.fifoV := by cases p <;> rfl
@[simp] theorem State.giveBack_tgA (s : State) (p : Port) (v : Word) : (s.giveBack p v).tgA = s.tgA := by cases p <;> rfl
@[simp] theorem State.giveBack_tgV (s : State) (p : Port) (v : Word) : (s.giveBack p v).tgV = s.tgV := by cases p <;> rfl
@[simp] theorem State.giveBack_pins (s : State) (p : Port) (v : Word) : (s.giveBack p v).pins = s.pins := by cases p <;> rfl
@[simp] theorem State.giveBack_outA (s : State) (p : Port) (v : Word) : (s.giveBack p v).outA = s.outA := by cases p <;> rfl
@[simp] theorem State.giveBack_outV (s : State) (p : Port) (v : Word) : (s.giveBack p v).outV = s.outV := by cases p <;> rfl
@[simp] theorem State.giveBack_ring (s : State) (p : Port) (v : Word) : (s.giveBack p v).ring = s.ring := by cases p <;> rfl
@[simp] theorem State.giveBack_video (s : State) (p : Port) (v : Word) : (s.giveBack p v).video = s.video := by cases p <;> rfl
@[simp] theorem State.giveBack_faults (s : State) (p : Port) (v : Word) : (s.giveBack p v).faults = s.faults := by cases p <;> rfl
@[simp] theorem State.giveBack_halted (s : State) (p : Port) (v : Word) : (s.giveBack p v).halted = s.halted := by cases p <;> rfl

@[simp] theorem State.returned_giveBack_same (s : State) (p : Port) (v : Word) :
    (s.giveBack p v).returned p = s.returned p ++ [v] := by
  cases p <;> rfl
@[simp] theorem State.giveBack_sched (s : State) (p : Port) (v : Word) :
    (s.giveBack p v).env.sched = s.env.sched := by
  cases p <;> rfl

@[simp] theorem State.setSched_cfg (s : State) (l : List Turn) : (s.setSched l).cfg = s.cfg := rfl
@[simp] theorem State.setSched_mem (s : State) (l : List Turn) : (s.setSched l).mem = s.mem := rfl
@[simp] theorem State.setSched_port0 (s : State) (l : List Turn) : (s.setSched l).port0 = s.port0 := rfl
@[simp] theorem State.setSched_port1 (s : State) (l : List Turn) : (s.setSched l).port1 = s.port1 := rfl
@[simp] theorem State.setSched_chanA (s : State) (l : List Turn) : (s.setSched l).chanA = s.chanA := rfl
@[simp] theorem State.setSched_chanV (s : State) (l : List Turn) : (s.setSched l).chanV = s.chanV := rfl
@[simp] theorem State.setSched_fifoA (s : State) (l : List Turn) : (s.setSched l).fifoA = s.fifoA := rfl
@[simp] theorem State.setSched_fifoV (s : State) (l : List Turn) : (s.setSched l).fifoV = s.fifoV := rfl
@[simp] theorem State.setSched_tgA (s : State) (l : List Turn) : (s.setSched l).tgA = s.tgA := rfl
@[simp] theorem State.setSched_tgV (s : State) (l : List Turn) : (s.setSched l).tgV = s.tgV := rfl
@[simp] theorem State.setSched_pins (s : State) (l : List Turn) : (s.setSched l).pins = s.pins := rfl
@[simp] theorem State.setSched_outA (s : State) (l : List Turn) : (s.setSched l).outA = s.outA := rfl
@[simp] theorem State.setSched_outV (s : State) (l : List Turn) : (s.setSched l).outV = s.outV := rfl
@[simp] theorem State.setSched_ring (s : State) (l : List Turn) : (s.setSched l).ring = s.ring := rfl
@[simp] theorem State.setSched_video (s : State) (l : List Turn) : (s.setSched l).video = s.video := rfl
@[simp] theorem State.setSched_faults (s : State) (l : List Turn) : (s.setSched l).faults = s.faults := rfl
@[simp] theorem State.setSched_halted (s : State) (l : List Turn) : (s.setSched l).halted = s.halted := rfl

@[simp] theorem State.setSched_sched (s : State) (l : List Turn) : (s.setSched l).env.sched = l := rfl
@[simp] theorem State.prog_setSched (s : State) (p : Port) (l : List Turn) : (s.setSched l).prog p = s.prog p := by
  cases p <;> rfl

/-- Nothing but the outside world differs. -/
def SameBlock (s t : State) : Prop := t = { s with env := t.env }

theorem SameBlock.refl (s : State) : SameBlock s s := rfl

theorem SameBlock.trans {s t u : State} (h : SameBlock s t) (h' : SameBlock t u) : SameBlock s u := by
  unfold SameBlock at *; rw [h', h]

theorem sameBlock_setSched (s : State) (l : List Turn) : SameBlock s (s.setSched l) := rfl

theorem sameBlock_setProg (s : State) (p : Port) (l : List Access) : SameBlock s (s.setProg p l) := by
  cases p <;> rfl

theorem sameBlock_giveBack (s : State) (p : Port) (v : Word) : SameBlock s (s.giveBack p v) := by
  cases p <;> rfl

end Sys2Proof.Machine
end

