-- ==== Sys2Proof/Laws/Ops.lean ====
section
/-! SUPPORT. Ops.lean: what each shared operation does, once: the fields after each update, and for each operation
that answers an outcome the cases of its answer. -/

namespace Sys2Proof.Machine

@[simp] theorem State.raise_cfg (s : State) (f : Fault) : (s.raise f).cfg = s.cfg := rfl
@[simp] theorem State.raise_mem (s : State) (f : Fault) : (s.raise f).mem = s.mem := rfl
@[simp] theorem State.raise_port0 (s : State) (f : Fault) : (s.raise f).port0 = s.port0 := rfl
@[simp] theorem State.raise_port1 (s : State) (f : Fault) : (s.raise f).port1 = s.port1 := rfl
@[simp] theorem State.raise_chanA (s : State) (f : Fault) : (s.raise f).chanA = s.chanA := rfl
@[simp] theorem State.raise_chanV (s : State) (f : Fault) : (s.raise f).chanV = s.chanV := rfl
@[simp] theorem State.raise_fifoA (s : State) (f : Fault) : (s.raise f).fifoA = s.fifoA := rfl
@[simp] theorem State.raise_fifoV (s : State) (f : Fault) : (s.raise f).fifoV = s.fifoV := rfl
@[simp] theorem State.raise_tgA (s : State) (f : Fault) : (s.raise f).tgA = s.tgA := rfl
@[simp] theorem State.raise_tgV (s : State) (f : Fault) : (s.raise f).tgV = s.tgV := rfl
@[simp] theorem State.raise_pins (s : State) (f : Fault) : (s.raise f).pins = s.pins := rfl
@[simp] theorem State.raise_outA (s : State) (f : Fault) : (s.raise f).outA = s.outA := rfl
@[simp] theorem State.raise_outV (s : State) (f : Fault) : (s.raise f).outV = s.outV := rfl
@[simp] theorem State.raise_ring (s : State) (f : Fault) : (s.raise f).ring = s.ring := rfl
@[simp] theorem State.raise_video (s : State) (f : Fault) : (s.raise f).video = s.video := rfl
@[simp] theorem State.raise_env (s : State) (f : Fault) : (s.raise f).env = s.env := rfl

@[simp] theorem State.raise_faults (s : State) (f : Fault) : (s.raise f).faults = s.faults ||| f.bit := rfl
@[simp] theorem State.raise_halted (s : State) (f : Fault) :
    (s.raise f).halted = (s.halted || decide (f = .noDmaChannel)) := rfl

@[simp] theorem tgReset_cfg (s : State) (ch : Channel) : (tgReset ch s).cfg = s.cfg := by cases ch <;> rfl
@[simp] theorem tgReset_mem (s : State) (ch : Channel) : (tgReset ch s).mem = s.mem := by cases ch <;> rfl
@[simp] theorem tgReset_port0 (s : State) (ch : Channel) : (tgReset ch s).port0 = s.port0 := by cases ch <;> rfl
@[simp] theorem tgReset_port1 (s : State) (ch : Channel) : (tgReset ch s).port1 = s.port1 := by cases ch <;> rfl
@[simp] theorem tgReset_chanA (s : State) (ch : Channel) : (tgReset ch s).chanA = s.chanA := by cases ch <;> rfl
@[simp] theorem tgReset_chanV (s : State) (ch : Channel) : (tgReset ch s).chanV = s.chanV := by cases ch <;> rfl
@[simp] theorem tgReset_fifoA (s : State) (ch : Channel) : (tgReset ch s).fifoA = s.fifoA := by cases ch <;> rfl
@[simp] theorem tgReset_fifoV (s : State) (ch : Channel) : (tgReset ch s).fifoV = s.fifoV := by cases ch <;> rfl
@[simp] theorem tgReset_outA (s : State) (ch : Channel) : (tgReset ch s).outA = s.outA := by cases ch <;> rfl
@[simp] theorem tgReset_outV (s : State) (ch : Channel) : (tgReset ch s).outV = s.outV := by cases ch <;> rfl
@[simp] theorem tgReset_ring (s : State) (ch : Channel) : (tgReset ch s).ring = s.ring := by cases ch <;> rfl
@[simp] theorem tgReset_video (s : State) (ch : Channel) : (tgReset ch s).video = s.video := by cases ch <;> rfl
@[simp] theorem tgReset_faults (s : State) (ch : Channel) : (tgReset ch s).faults = s.faults := by cases ch <;> rfl
@[simp] theorem tgReset_halted (s : State) (ch : Channel) : (tgReset ch s).halted = s.halted := by cases ch <;> rfl
@[simp] theorem tgReset_env (s : State) (ch : Channel) : (tgReset ch s).env = s.env := by cases ch <;> rfl

@[simp] theorem flushFifo_cfg (s : State) (ch : Channel) : (flushFifo ch s).cfg = s.cfg := by cases ch <;> rfl
@[simp] theorem flushFifo_mem (s : State) (ch : Channel) : (flushFifo ch s).mem = s.mem := by cases ch <;> rfl
@[simp] theorem flushFifo_port0 (s : State) (ch : Channel) : (flushFifo ch s).port0 = s.port0 := by cases ch <;> rfl
@[simp] theorem flushFifo_port1 (s : State) (ch : Channel) : (flushFifo ch s).port1 = s.port1 := by cases ch <;> rfl
@[simp] theorem flushFifo_chanA (s : State) (ch : Channel) : (flushFifo ch s).chanA = s.chanA := by cases ch <;> rfl
@[simp] theorem flushFifo_chanV (s : State) (ch : Channel) : (flushFifo ch s).chanV = s.chanV := by cases ch <;> rfl
@[simp] theorem flushFifo_tgA (s : State) (ch : Channel) : (flushFifo ch s).tgA = s.tgA := by cases ch <;> rfl
@[simp] theorem flushFifo_tgV (s : State) (ch : Channel) : (flushFifo ch s).tgV = s.tgV := by cases ch <;> rfl
@[simp] theorem flushFifo_pins (s : State) (ch : Channel) : (flushFifo ch s).pins = s.pins := by cases ch <;> rfl
@[simp] theorem flushFifo_outA (s : State) (ch : Channel) : (flushFifo ch s).outA = s.outA := by cases ch <;> rfl
@[simp] theorem flushFifo_outV (s : State) (ch : Channel) : (flushFifo ch s).outV = s.outV := by cases ch <;> rfl
@[simp] theorem flushFifo_ring (s : State) (ch : Channel) : (flushFifo ch s).ring = s.ring := by cases ch <;> rfl
@[simp] theorem flushFifo_video (s : State) (ch : Channel) : (flushFifo ch s).video = s.video := by cases ch <;> rfl
@[simp] theorem flushFifo_faults (s : State) (ch : Channel) : (flushFifo ch s).faults = s.faults := by cases ch <;> rfl
@[simp] theorem flushFifo_halted (s : State) (ch : Channel) : (flushFifo ch s).halted = s.halted := by cases ch <;> rfl
@[simp] theorem flushFifo_env (s : State) (ch : Channel) : (flushFifo ch s).env = s.env := by cases ch <;> rfl

@[simp] theorem dmaAbort_cfg (s : State) (ch : Channel) : (dmaAbort ch s).cfg = s.cfg := by cases ch <;> rfl
@[simp] theorem dmaAbort_mem (s : State) (ch : Channel) : (dmaAbort ch s).mem = s.mem := by cases ch <;> rfl
@[simp] theorem dmaAbort_port0 (s : State) (ch : Channel) : (dmaAbort ch s).port0 = s.port0 := by cases ch <;> rfl
@[simp] theorem dmaAbort_port1 (s : State) (ch : Channel) : (dmaAbort ch s).port1 = s.port1 := by cases ch <;> rfl
@[simp] theorem dmaAbort_fifoA (s : State) (ch : Channel) : (dmaAbort ch s).fifoA = s.fifoA := by cases ch <;> rfl
@[simp] theorem dmaAbort_fifoV (s : State) (ch : Channel) : (dmaAbort ch s).fifoV = s.fifoV := by cases ch <;> rfl
@[simp] theorem dmaAbort_tgA (s : State) (ch : Channel) : (dmaAbort ch s).tgA = s.tgA := by cases ch <;> rfl
@[simp] theorem dmaAbort_tgV (s : State) (ch : Channel) : (dmaAbort ch s).tgV = s.tgV := by cases ch <;> rfl
@[simp] theorem dmaAbort_pins (s : State) (ch : Channel) : (dmaAbort ch s).pins = s.pins := by cases ch <;> rfl
@[simp] theorem dmaAbort_outA (s : State) (ch : Channel) : (dmaAbort ch s).outA = s.outA := by cases ch <;> rfl
@[simp] theorem dmaAbort_outV (s : State) (ch : Channel) : (dmaAbort ch s).outV = s.outV := by cases ch <;> rfl
@[simp] theorem dmaAbort_ring (s : State) (ch : Channel) : (dmaAbort ch s).ring = s.ring := by cases ch <;> rfl
@[simp] theorem dmaAbort_video (s : State) (ch : Channel) : (dmaAbort ch s).video = s.video := by cases ch <;> rfl
@[simp] theorem dmaAbort_faults (s : State) (ch : Channel) : (dmaAbort ch s).faults = s.faults := by cases ch <;> rfl
@[simp] theorem dmaAbort_halted (s : State) (ch : Channel) : (dmaAbort ch s).halted = s.halted := by cases ch <;> rfl
@[simp] theorem dmaAbort_env (s : State) (ch : Channel) : (dmaAbort ch s).env = s.env := by cases ch <;> rfl

@[simp] theorem dmaAck_cfg (s : State) (ch : Channel) : (dmaAck ch s).cfg = s.cfg := by cases ch <;> rfl
@[simp] theorem dmaAck_mem (s : State) (ch : Channel) : (dmaAck ch s).mem = s.mem := by cases ch <;> rfl
@[simp] theorem dmaAck_port0 (s : State) (ch : Channel) : (dmaAck ch s).port0 = s.port0 := by cases ch <;> rfl
@[simp] theorem dmaAck_port1 (s : State) (ch : Channel) : (dmaAck ch s).port1 = s.port1 := by cases ch <;> rfl
@[simp] theorem dmaAck_fifoA (s : State) (ch : Channel) : (dmaAck ch s).fifoA = s.fifoA := by cases ch <;> rfl
@[simp] theorem dmaAck_fifoV (s : State) (ch : Channel) : (dmaAck ch s).fifoV = s.fifoV := by cases ch <;> rfl
@[simp] theorem dmaAck_tgA (s : State) (ch : Channel) : (dmaAck ch s).tgA = s.tgA := by cases ch <;> rfl
@[simp] theorem dmaAck_tgV (s : State) (ch : Channel) : (dmaAck ch s).tgV = s.tgV := by cases ch <;> rfl
@[simp] theorem dmaAck_pins (s : State) (ch : Channel) : (dmaAck ch s).pins = s.pins := by cases ch <;> rfl
@[simp] theorem dmaAck_outA (s : State) (ch : Channel) : (dmaAck ch s).outA = s.outA := by cases ch <;> rfl
@[simp] theorem dmaAck_outV (s : State) (ch : Channel) : (dmaAck ch s).outV = s.outV := by cases ch <;> rfl
@[simp] theorem dmaAck_ring (s : State) (ch : Channel) : (dmaAck ch s).ring = s.ring := by cases ch <;> rfl
@[simp] theorem dmaAck_video (s : State) (ch : Channel) : (dmaAck ch s).video = s.video := by cases ch <;> rfl
@[simp] theorem dmaAck_faults (s : State) (ch : Channel) : (dmaAck ch s).faults = s.faults := by cases ch <;> rfl
@[simp] theorem dmaAck_halted (s : State) (ch : Channel) : (dmaAck ch s).halted = s.halted := by cases ch <;> rfl
@[simp] theorem dmaAck_env (s : State) (ch : Channel) : (dmaAck ch s).env = s.env := by cases ch <;> rfl

@[simp] theorem swapRing_cfg (s : State) : (swapRing s).cfg = s.cfg := rfl
@[simp] theorem swapRing_mem (s : State) : (swapRing s).mem = s.mem := rfl
@[simp] theorem swapRing_port0 (s : State) : (swapRing s).port0 = s.port0 := rfl
@[simp] theorem swapRing_port1 (s : State) : (swapRing s).port1 = s.port1 := rfl
@[simp] theorem swapRing_chanA (s : State) : (swapRing s).chanA = s.chanA := rfl
@[simp] theorem swapRing_chanV (s : State) : (swapRing s).chanV = s.chanV := rfl
@[simp] theorem swapRing_fifoA (s : State) : (swapRing s).fifoA = s.fifoA := rfl
@[simp] theorem swapRing_fifoV (s : State) : (swapRing s).fifoV = s.fifoV := rfl
@[simp] theorem swapRing_tgA (s : State) : (swapRing s).tgA = s.tgA := rfl
@[simp] theorem swapRing_tgV (s : State) : (swapRing s).tgV = s.tgV := rfl
@[simp] theorem swapRing_pins (s : State) : (swapRing s).pins = s.pins := rfl
@[simp] theorem swapRing_outA (s : State) : (swapRing s).outA = s.outA := rfl
@[simp] theorem swapRing_outV (s : State) : (swapRing s).outV = s.outV := rfl
@[simp] theorem swapRing_video (s : State) : (swapRing s).video = s.video := rfl
@[simp] theorem swapRing_faults (s : State) : (swapRing s).faults = s.faults := rfl
@[simp] theorem swapRing_halted (s : State) : (swapRing s).halted = s.halted := rfl
@[simp] theorem swapRing_env (s : State) : (swapRing s).env = s.env := rfl

/-- A step that may raise a fault answers the next state, with its effect or with the fault recorded. -/
theorem attempt_next {s t : State} {k : Except Fault State} (h : attempt s k = .next t) :
    k = .ok t ∨ ∃ f, k = .error f ∧ t = s.raise f := by
  cases k with
  | ok u => left; simpa [attempt] using h
  | error f => right; exact ⟨f, rfl, by simpa [attempt, eq_comm] using h⟩

@[simp] theorem attempt_ok (s u : State) : attempt s (.ok u) = .next u := rfl
@[simp] theorem attempt_error (s : State) (f : Fault) : attempt s (.error f) = .next (s.raise f) := rfl

theorem attempt_total (s : State) (k : Except Fault State) : ∃ t, attempt s k = .next t := by
  cases k <;> exact ⟨_, rfl⟩

/-- A guarded step that is not enabled changes nothing. -/
theorem await_next {c : Bool} {s t : State} {k : Except Fault State} (h : await c s k = .next t) :
    (c = false ∧ t = s) ∨ (c = true ∧ (k = .ok t ∨ ∃ f, k = .error f ∧ t = s.raise f)) := by
  unfold await at h
  cases c with
  | false => left; exact ⟨rfl, by simpa [eq_comm] using h⟩
  | true => right; exact ⟨rfl, attempt_next (by simpa using h)⟩

theorem await_total (c : Bool) (s : State) (k : Except Fault State) : ∃ t, await c s k = .next t := by
  unfold await; split
  · exact attempt_total s k
  · exact ⟨s, rfl⟩

/-- A command changes nothing on a busy port or a halted block, else it runs or records its fault. -/
theorem command_next {p : Port} {s t : State} {k : Except Fault State} (h : command p s k = .next t) :
    ((s.busy p = true ∨ s.halted = true) ∧ t = s) ∨
    (s.busy p = false ∧ s.halted = false ∧ (k = .ok t ∨ ∃ f, k = .error f ∧ t = s.raise f)) := by
  unfold command at h
  cases hb : s.busy p <;> cases hh : s.halted <;> simp only [hb, hh, if_true, if_false, Bool.false_eq_true] at h
  · exact .inr ⟨rfl, rfl, attempt_next h⟩
  all_goals exact .inl ⟨by simp, by simpa [eq_comm] using h⟩

theorem command_total (p : Port) (s : State) (k : Except Fault State) : ∃ t, command p s k = .next t := by
  unfold command; split
  · exact ⟨s, rfl⟩
  · split
    · exact ⟨s, rfl⟩
    · exact attempt_total s k

theorem command_free {p : Port} {s : State} (hb : s.busy p = false) (hh : s.halted = false) (k : Except Fault State) :
    command p s k = attempt s k := by
  simp [command, hb, hh]

theorem await_true (s : State) (k : Except Fault State) : await true s k = attempt s k := rfl
theorem await_false (s : State) (k : Except Fault State) : await false s k = .next s := rfl

theorem needInit_ok {ch : Channel} {s t : State} {k : Except Fault State} (h : needInit ch s k = .ok t) :
    (s.chan ch).inited = true ∧ k = .ok t := by
  unfold needInit at h; split at h
  · exact ⟨‹_›, h⟩
  · cases h

theorem needNoInit_ok {ch : Channel} {s t : State} {k : Except Fault State} (h : needNoInit ch s k = .ok t) :
    (s.chan ch).inited = false ∧ k = .ok t := by
  unfold needNoInit at h; split at h
  · cases h
  · rename_i hi; exact ⟨by simpa using hi, h⟩

/-- `dma_start` that raises no fault found an idle engine and an aligned address, and sets its channel alone. -/
theorem dmaStart_ok {ch : Channel} {addr count : Word} {s t : State} (h : dmaStart ch addr count s = .ok t) :
    (s.chan ch).dmaBusy = false ∧ addr.toNat % esz ch = 0 ∧
    t = s.setChan ch { s.chan ch with
      dmaAddr := addr, dmaCount := count, dmaDone := decide (count = 0#32), dmaBusy := decide (count ≠ 0#32) } := by
  unfold dmaStart at h
  split at h
  · cases h
  · rename_i hb
    split at h
    · cases h
    · rename_i ha
      cases h; exact ⟨by simpa using hb, by simpa using ha, rfl⟩

/-- `dma_start` on an idle engine at an aligned address. -/
theorem dmaStart_of_idle {ch : Channel} {addr count : Word} {s : State} (hb : (s.chan ch).dmaBusy = false)
    (ha : addr.toNat % esz ch = 0) :
    dmaStart ch addr count s = .ok (s.setChan ch { s.chan ch with
      dmaAddr := addr, dmaCount := count, dmaDone := decide (count = 0#32), dmaBusy := decide (count ≠ 0#32) }) := by
  simp [dmaStart, hb, ha]

end Sys2Proof.Machine
end

