-- ==== Sys2Proof/Laws/Step.lean ====
section
/-! SUPPORT. Step.lean: everything one step can do, said once. A proof about `step` cites `step_cases` and splits on
its seven cases; the case of an instruction is then `exec`'s. -/

namespace Sys2Proof.Machine

/-- Where an instruction that a step runs came from: an agent's turn, or a write to a free `CMD` register. -/
inductive RunBy (s : State) (i : Instr) : Prop where
  | event (code : Word) (ht : nextTurn s = .event code) (hd : decodeWord code = .ok i) (he : i.isEvent = true)
  | command (p q : Port) (off : BitVec 8) (w : Word) (rest : List Access) (ht : nextTurn s = .core p)
      (hp : s.prog p = .write off .word w :: rest) (hq : cmdPort off = some q) (hd : decodeCommand w = .ok i)
      (ha : i.admits q = true) (hb : s.busy q = false) (hh : s.halted = false)

/-- What a step that answers `t` did to `s`. In every case `s0` is `s` with nothing but the outside world changed. -/
inductive StepCase (s t : State) : Prop where
  /-- nothing, or a read: only the outside world differs -/
  | idle (h : SameBlock s t)
  /-- a fault of the access or of issue checks 2 and 3 was recorded -/
  | raised (f : Fault) (hf : f = .illegalCmd ∨ f = .illegalPort ∨ f = .badAccess) (h : SameBlock (s.raise f) t)
  /-- an instruction ran -/
  | ran (i : Instr) (s0 : State) (h0 : SameBlock s s0) (hi : RunBy s i) (h : exec i s0 = .next t)
  /-- a core wrote a register that is no `CMD` register -/
  | wrote (s0 : State) (h0 : SameBlock s s0) (off : BitVec 8) (v : Word) (h : t = writeReg s0 off v)
  /-- a core stored to memory -/
  | stored (s0 : State) (h0 : SameBlock s s0) (p : Port) (a : Word) (w : Width) (v : Word) (rest : List Access)
      (ht : nextTurn s = .core p) (hp : s.prog p = .store a w v :: rest)
      (h : t = { s0 with mem := s0.mem.writeWidth a w v })
  /-- an edge of `clk` -/
  | clocked (s0 : State) (h0 : SameBlock s s0) (ht : nextTurn s = .clk) (h : t = clkEdge s0)
  /-- a reset -/
  | reset (e : Env) (ht : nextTurn s = .rst) (h : t = State.resetIn s.cfg s.mem e)

theorem sameBlock_afterTurn (s : State) : SameBlock s (afterTurn s) := by
  unfold afterTurn; split <;> rfl

@[simp] theorem afterTurn_prog (s : State) (p : Port) : (afterTurn s).prog p = s.prog p := by
  unfold afterTurn; split <;> cases p <;> rfl

/-- Fields other than the outside world survive a change of the outside world. -/
theorem SameBlock.exists {s t : State} (h : SameBlock s t) : ∃ e, t = { s with env := e } := ⟨t.env, h⟩

theorem SameBlock.busy {s t : State} (h : SameBlock s t) (p : Port) : t.busy p = s.busy p := by
  obtain ⟨e, rfl⟩ := h.exists; cases p <;> rfl

theorem SameBlock.raise {s t : State} (h : SameBlock s t) (f : Fault) : SameBlock (s.raise f) (t.raise f) := by
  obtain ⟨e, rfl⟩ := h.exists; rfl

theorem decodeCommand_ok {w : Word} {i : Instr} (h : decodeCommand w = .ok i) :
    decodeWord w = .ok i ∧ i.isEvent = false := by
  unfold decodeCommand at h
  split at h
  · split at h
    · cases h
    · rename_i h1 h2; cases h; exact ⟨h1, by simpa using h2⟩
  · cases h

theorem accessOk_word {off : BitVec 8} {w : Width} (h : accessOk off w = true) : w = .word := by
  simp only [accessOk, Bool.and_eq_true, decide_eq_true_eq] at h; exact h.1

theorem nextTurn_of_sched {s : State} {t : Turn} {rest : List Turn} (h : s.env.sched = t :: rest) :
    nextTurn s = t := by
  simp [nextTurn, h]

/-- A step whose schedule names a turn takes that turn. -/
theorem step_of_sched {s : State} {t : Turn} {rest : List Turn} (hw : s.cfg.WellFormed)
    (h : s.env.sched = t :: rest) : step s = turn t (s.setSched rest) := by
  simp only [step, if_pos hw, nextTurn_of_sched h, afterTurn, h]

/-- A step runs in a well-formed configuration only, and does one of seven things. -/
theorem step_cases {s t : State} (h : step s = .next t) : s.cfg.WellFormed ∧ StepCase s t := by
  unfold step at h
  split at h
  case isFalse => cases h
  rename_i hwf
  refine ⟨hwf, ?_⟩
  have h1 : SameBlock s (afterTurn s) := sameBlock_afterTurn s
  cases ht : nextTurn s with
  | clk => rw [ht] at h; simp only [turn, Host.Outcome.next.injEq] at h; exact .clocked _ h1 ht h.symm
  | rst =>
    rw [ht] at h; simp only [turn, Host.Outcome.next.injEq] at h
    obtain ⟨e, he⟩ := h1.exists
    rw [he] at h
    exact .reset e ht h.symm
  | event code =>
    rw [ht] at h
    simp only [turn, eventTurn] at h
    split at h
    · rename_i i hd
      split at h
      · exact .ran i _ h1 (.event code ht hd ‹_›) h
      · cases h
    · cases h
  | core p =>
    rw [ht] at h
    simp only [turn, coreTurn, afterTurn_prog] at h
    split at h
    · cases h; exact .idle h1
    rename_i a rest hp
    split at h
    · cases h; exact .idle h1
    rename_i hhold
    have h2 : SameBlock s ((afterTurn s).setProg p rest) := h1.trans (sameBlock_setProg _ _ _)
    generalize hs0 : (afterTurn s).setProg p rest = s0 at h h2
    cases a with
    | read off w =>
      simp only [access] at h
      split at h
      · cases h; exact .idle (h2.trans (sameBlock_giveBack _ _ _))
      · cases h; exact .raised .badAccess (by simp) ((h2.raise _).trans (sameBlock_giveBack _ _ _))
    | load a w => cases h; exact .idle (h2.trans (sameBlock_giveBack _ _ _))
    | store a w v => cases h; exact .stored s0 h2 p a w v rest ht hp rfl
    | write off w v =>
      simp only [access] at h
      split at h
      case isFalse => cases h; exact .raised .badAccess (by simp) (h2.raise _)
      rename_i hacc
      obtain rfl := accessOk_word hacc
      split at h
      case h_2 => cases h; exact .wrote s0 h2 off v rfl
      rename_i q hq
      have hb : s.busy q = false := by
        simp only [holds, hacc, hq, Bool.true_and, Bool.not_eq_true] at hhold
        rw [← h1.busy q]; exact hhold
      unfold issue at h
      split at h
      · cases h; exact .idle h2
      rename_i hh
      have hh' : s.halted = false := by
        obtain ⟨e, rfl⟩ := h2.exists; simpa using hh
      split at h
      · cases h; exact .raised .illegalCmd (by simp) (h2.raise _)
      rename_i i hd
      split at h
      · exact .ran i s0 h2 (.command p q off v rest ht hp hq hd ‹_› hb hh') h
      · cases h; exact .raised .illegalPort (by simp) (h2.raise _)

end Sys2Proof.Machine
end

