-- ==== Sys2Proof/Laws/Exec.lean ====
section
/-! SUPPORT. Exec.lean: everything one instruction can do, said once. A proof about `exec` cites `exec_cases`. -/

namespace Sys2Proof.Machine

/-- A command ran: its port was free, the block not halted. -/
structure Ran (p : Port) (s : State) : Prop where
  free : s.busy p = false
  live : s.halted = false

/-- What the instruction `i` that answers `t` did to `s`. -/
inductive ExecCase (s t : State) : Instr → Prop where
  | same (i : Instr) (h : t = s) : ExecCase s t i
  | refused (i : Instr) (f : Fault) (hf : f = .notInit ∨ f = .doubleInit ∨ f = .noDmaChannel) (h : t = s.raise f) :
      ExecCase s t i
  | initA (hr : Ran .p0 s) (hi : s.chanA.inited = false) (h : t = initA s) : ExecCase s t (.init .A)
  | initV (hr : Ran .p0 s) (hi : s.chanV.inited = false) (h : t = initV s) : ExecCase s t (.init .V)
  | start (ch : Channel) (hr : Ran .p0 s) (hi : (s.chan ch).inited = true) (h : t = startChan ch s) :
      ExecCase s t (.start ch)
  | stop (ch : Channel) (hr : Ran .p0 s) (hi : (s.chan ch).inited = true) (h : t = stopChan ch s) :
      ExecCase s t (.stop ch)
  | queueBusy (hr : Ran .p0 s) (hi : s.chanA.inited = true) (hp : s.port0.arg0 ≠ 0#32) (hc : s.port0.arg1 ≠ 0#32)
      (hb : s.chanA.dmaBusy = true) (h : t = fillBuffer s) : ExecCase s t .queueSamples
  | queueIdle (hr : Ran .p0 s) (hi : s.chanA.inited = true) (hp : s.port0.arg0 ≠ 0#32) (hc : s.port0.arg1 ≠ 0#32)
      (hb : s.chanA.dmaBusy = false) (h : swapAndStart (fillBuffer s) = .ok t) : ExecCase s t .queueSamples
  | queueFault (hp : s.port0.arg0 ≠ 0#32) (hc : s.port0.arg1 ≠ 0#32) (hb : s.chanA.dmaBusy = false) (f : Fault)
      (hf : swapAndStart (fillBuffer s) = .error f) (h : t = s.raise f) : ExecCase s t .queueSamples
  | bufferReady (hr : Ran .p0 s) (hi : s.chanA.inited = true)
      (h : t = { s with port0 := { s.port0 with result := 0#31 ++ BitVec.ofBool (!s.ring.ready) } }) :
      ExecCase s t .bufferReady
  | render (hr : Ran .p0 s) (hi : s.chanV.inited = true) (hp : s.port0.arg0 ≠ 0#32)
      (h : t = { s with video := { s.video with
        rfSrc := s.port0.arg0, wrSlot := !s.video.consSlot, pphase := .copy } }) : ExecCase s t .renderFrame
  | send (hr : Ran .p1 s) (hi : s.chanV.inited = true) (h : t = { s with video := { s.video with cphase := .wait } }) :
      ExecCase s t .sendFrame
  | emitA (w : Word) (rest : List Word) (he : s.chanA.smEn = true) (hh : s.halted = false) (hq : s.fifoA = w :: rest)
      (h : t = { s with fifoA := rest, outA := s.outA ++ [.frame w] }) : ExecCase s t .smEmitA
  | emitV (b : Byte) (rest : List Byte) (he : s.chanV.smEn = true) (hh : s.halted = false) (hq : s.fifoV = b :: rest)
      (h : t = { s with fifoV := rest, outV := s.outV ++ [b] }) : ExecCase s t .smEmitV
  | silence (he : s.chanA.smEn = true) (hh : s.halted = false) (hq : s.fifoA = [])
      (h : t = { s with outA := s.outA ++ [.silence] }) : ExecCase s t .smSilence
  | beat (ch : Channel) (he : beatEnabled ch s = true)
      (h : t = (pushElement ch s).setChan ch ((s.chan ch).afterBeat (esz ch))) : ExecCase s t (.dmaBeat ch)
  | airqRestart (hq : s.irqReq .A = true) (hh : s.halted = false) (hr : s.ring.ready = true)
      (h : swapAndStart (dmaAck .A s) = .ok t) : ExecCase s t .airqSwap
  | airqFault (hq : s.irqReq .A = true) (hr : s.ring.ready = true) (f : Fault)
      (hf : swapAndStart (dmaAck .A s) = .error f) (h : t = s.raise f) : ExecCase s t .airqSwap
  | airqIdle (hq : s.irqReq .A = true) (hh : s.halted = false) (hr : s.ring.ready = false) (h : t = dmaAck .A s) :
      ExecCase s t .airqSwap
  | copy (hp : s.video.pphase = .copy) (hh : s.halted = false)
      (h : t = { s with
        mem := s.mem.writeBytes (snapAddr s.cfg s.video.wrSlot) (s.mem.readBytes s.video.rfSrc (snapSize s.cfg))
        video := { s.video with pphase := .publish } }) : ExecCase s t .rfCopy
  | publish (hp : s.video.pphase = .publish) (hh : s.halted = false)
      (h : t = { s with video := { s.video with
        pubSlot := s.video.wrSlot, fresh := true, pending := true, pphase := .idle } }) : ExecCase s t .rfPublish
  | take (hc : s.video.cphase = .wait) (hf : s.video.fresh = true) (hp : s.video.pphase = .idle)
      (hh : s.halted = false)
      (h : t = { s with video := { s.video with
        consSlot := s.video.pubSlot, fresh := false, brow := 0, trow := 0, cphase := .build } }) : ExecCase s t .sfTake
  | build (hc : s.video.cphase = .build) (hh : s.halted = false)
      (h : t = { s with
        mem := s.mem.writeBytes (slAddr s.cfg (rowParity s.video.brow))
          (rowBytes s.cfg s.mem s.video.consSlot s.video.brow.toNat)
        video := { s.video with brow := s.video.brow + 1#16, cphase := .start } }) : ExecCase s t .sfBuild
  | sfStart (hc : s.video.cphase = .start) (hb : s.chanV.dmaBusy = false) (hh : s.halted = false)
      (h : dmaStart .V (slAddr s.cfg (rowParity s.video.trow)) (BitVec.ofNat 32 (slSize s.cfg))
        { s with video := { s.video with
          trow := s.video.trow + 1#16
          cphase := if s.video.brow.toNat < s.cfg.outH then .build else .drain } } = .ok t) : ExecCase s t .sfStart
  | finish (hc : s.video.cphase = .drain) (hb : s.chanV.dmaBusy = false) (hh : s.halted = false)
      (h : t = { s with video := { s.video with pending := s.video.fresh, cphase := .idle } }) :
      ExecCase s t .sfFinish

/-- The video engine accepts every start of an idle channel: each address is a multiple of one byte. -/
theorem dmaStart_V_error {addr count : Word} {s : State} {f : Fault} (h : dmaStart .V addr count s = .error f) :
    s.chanV.dmaBusy = true := by
  unfold dmaStart at h
  split at h
  · assumption
  · simp [esz, Nat.mod_one] at h

/-- Every instruction does one of these things. -/
theorem exec_cases {i : Instr} {s t : State} (h : exec i s = .next t) : ExecCase s t i := by
  cases i with
  | nop ch => cases h; exact .same _ rfl
  | init ch =>
    replace h := command_next h
    rcases h with ⟨_, rfl⟩ | ⟨hb, hh, h⟩
    · exact .same _ rfl
    unfold needNoInit at h
    split at h
    · rcases h with h | ⟨f, h, rfl⟩
      · cases h
      · cases h; exact .refused _ _ (by simp) rfl
    rename_i hi
    split at h
    · rcases h with h | ⟨f, h, rfl⟩
      · cases ch with
        | A => cases h; exact .initA ⟨hb, hh⟩ (by simpa using hi) rfl
        | V => cases h; exact .initV ⟨hb, hh⟩ (by simpa using hi) rfl
      · cases h
    · rcases h with h | ⟨f, h, rfl⟩
      · cases h
      · cases h; exact .refused _ _ (by simp) rfl
  | start ch =>
    replace h := command_next h
    rcases h with ⟨_, rfl⟩ | ⟨hb, hh, h⟩
    · exact .same _ rfl
    rcases h with h | ⟨f, h, rfl⟩
    · obtain ⟨hi, h⟩ := needInit_ok h; cases h; exact .start ch ⟨hb, hh⟩ hi rfl
    · unfold needInit at h; split at h <;> cases h; exact .refused _ _ (by simp) rfl
  | stop ch =>
    replace h := command_next h
    rcases h with ⟨_, rfl⟩ | ⟨hb, hh, h⟩
    · exact .same _ rfl
    rcases h with h | ⟨f, h, rfl⟩
    · obtain ⟨hi, h⟩ := needInit_ok h; cases h; exact .stop ch ⟨hb, hh⟩ hi rfl
    · unfold needInit at h; split at h <;> cases h; exact .refused _ _ (by simp) rfl
  | queueSamples =>
    replace h := command_next h
    rcases h with ⟨_, rfl⟩ | ⟨hb, hh, h⟩
    · exact .same _ rfl
    unfold needInit at h
    split at h
    · rename_i hi
      split at h
      · rcases h with h | ⟨f, h, rfl⟩ <;> cases h; exact .same _ rfl
      rename_i hz
      simp only [not_or] at hz
      split at h
      · rcases h with h | ⟨f, h, rfl⟩ <;> cases h; exact .queueBusy ⟨hb, hh⟩ hi hz.1 hz.2 ‹_› rfl
      · rename_i hd
        rcases h with h | ⟨f, h, rfl⟩
        · exact .queueIdle ⟨hb, hh⟩ hi hz.1 hz.2 (by simpa using hd) h
        · exact .queueFault hz.1 hz.2 (by simpa using hd) f h rfl
    · rcases h with h | ⟨f, h, rfl⟩ <;> cases h; exact .refused _ _ (by simp) rfl
  | bufferReady =>
    replace h := command_next h
    rcases h with ⟨_, rfl⟩ | ⟨hb, hh, h⟩
    · exact .same _ rfl
    rcases h with h | ⟨f, h, rfl⟩
    · obtain ⟨hi, h⟩ := needInit_ok h; cases h; exact .bufferReady ⟨hb, hh⟩ hi rfl
    · unfold needInit at h; split at h <;> cases h; exact .refused _ _ (by simp) rfl
  | renderFrame =>
    replace h := command_next h
    rcases h with ⟨_, rfl⟩ | ⟨hb, hh, h⟩
    · exact .same _ rfl
    rcases h with h | ⟨f, h, rfl⟩
    · obtain ⟨hi, h⟩ := needInit_ok h
      split at h
      · cases h; exact .same _ rfl
      · cases h; exact .render ⟨hb, hh⟩ hi ‹_› rfl
    · unfold needInit at h; split at h <;> cases h; exact .refused _ _ (by simp) rfl
  | sendFrame =>
    replace h := command_next h
    rcases h with ⟨_, rfl⟩ | ⟨hb, hh, h⟩
    · exact .same _ rfl
    rcases h with h | ⟨f, h, rfl⟩
    · obtain ⟨hi, h⟩ := needInit_ok h; cases h; exact .send ⟨hb, hh⟩ hi rfl
    · unfold needInit at h; split at h <;> cases h; exact .refused _ _ (by simp) rfl
  | smEmitA =>
    simp only [exec, execSmEmitA] at h
    split at h
    · cases h; exact .same _ rfl
    replace h := await_next h
    rcases h with ⟨_, rfl⟩ | ⟨hc, h | ⟨f, h, _⟩⟩ <;> try cases h
    · exact .same _ rfl
    · simp only [Bool.and_eq_true, Bool.not_eq_true'] at hc; exact .emitA _ _ hc.1 hc.2 ‹_› rfl
  | smEmitV =>
    simp only [exec, execSmEmitV] at h
    split at h
    · cases h; exact .same _ rfl
    replace h := await_next h
    rcases h with ⟨_, rfl⟩ | ⟨hc, h | ⟨f, h, _⟩⟩ <;> try cases h
    · exact .same _ rfl
    · simp only [Bool.and_eq_true, Bool.not_eq_true'] at hc; exact .emitV _ _ hc.1 hc.2 ‹_› rfl
  | smSilence =>
    replace h := await_next h
    rcases h with ⟨_, rfl⟩ | ⟨hc, h | ⟨f, h, _⟩⟩ <;> try cases h
    · exact .same _ rfl
    · simp only [Bool.and_eq_true, Bool.not_eq_true', decide_eq_true_eq, List.length_eq_zero_iff] at hc
      exact .silence hc.1.1 hc.2 hc.1.2 rfl
  | dmaBeat ch =>
    replace h := await_next h
    rcases h with ⟨_, rfl⟩ | ⟨hc, h | ⟨f, h, _⟩⟩ <;> try cases h
    · exact .same _ rfl
    · exact .beat ch hc rfl
  | airqSwap =>
    replace h := await_next h
    rcases h with ⟨_, rfl⟩ | ⟨hc, h⟩
    · exact .same _ rfl
    simp only [Bool.and_eq_true, Bool.not_eq_true'] at hc
    split at h
    · rcases h with h | ⟨f, h, rfl⟩
      · exact .airqRestart hc.1 hc.2 ‹_› h
      · exact .airqFault hc.1 ‹_› f h rfl
    · rename_i hr
      rcases h with h | ⟨f, h, rfl⟩ <;> cases h
      exact .airqIdle hc.1 hc.2 (by simpa using hr) rfl
  | rfCopy =>
    replace h := await_next h
    rcases h with ⟨_, rfl⟩ | ⟨hc, h | ⟨f, h, _⟩⟩ <;> try cases h
    · exact .same _ rfl
    · simp only [Bool.and_eq_true, Bool.not_eq_true', decide_eq_true_eq] at hc; exact .copy hc.1 hc.2 rfl
  | rfPublish =>
    replace h := await_next h
    rcases h with ⟨_, rfl⟩ | ⟨hc, h | ⟨f, h, _⟩⟩ <;> try cases h
    · exact .same _ rfl
    · simp only [Bool.and_eq_true, Bool.not_eq_true', decide_eq_true_eq] at hc; exact .publish hc.1 hc.2 rfl
  | sfTake =>
    replace h := await_next h
    rcases h with ⟨_, rfl⟩ | ⟨hc, h | ⟨f, h, _⟩⟩ <;> try cases h
    · exact .same _ rfl
    · simp only [Bool.and_eq_true, Bool.not_eq_true', decide_eq_true_eq] at hc
      exact .take hc.1.1.1 hc.1.1.2 hc.1.2 hc.2 rfl
  | sfBuild =>
    replace h := await_next h
    rcases h with ⟨_, rfl⟩ | ⟨hc, h | ⟨f, h, _⟩⟩ <;> try cases h
    · exact .same _ rfl
    · simp only [Bool.and_eq_true, Bool.not_eq_true', decide_eq_true_eq] at hc; exact .build hc.1 hc.2 rfl
  | sfStart =>
    replace h := await_next h
    rcases h with ⟨_, rfl⟩ | ⟨hc, h⟩
    · exact .same _ rfl
    simp only [Bool.and_eq_true, Bool.not_eq_true', decide_eq_true_eq] at hc
    rcases h with h | ⟨f, h, rfl⟩
    · exact .sfStart hc.1.1 hc.1.2 hc.2 h
    · exact absurd (dmaStart_V_error h) (by simp [hc.1.2])
  | sfFinish =>
    replace h := await_next h
    rcases h with ⟨_, rfl⟩ | ⟨hc, h | ⟨f, h, _⟩⟩ <;> try cases h
    · exact .same _ rfl
    · simp only [Bool.and_eq_true, Bool.not_eq_true', decide_eq_true_eq] at hc
      exact .finish hc.1.1 hc.1.2 hc.2 rfl

/-- Every instruction answers a next state. -/
theorem exec_total (i : Instr) (s : State) : ∃ t, exec i s = .next t := by
  cases i with
  | nop ch => exact ⟨s, rfl⟩
  | init ch => exact command_total _ _ _
  | start ch => exact command_total _ _ _
  | stop ch => exact command_total _ _ _
  | queueSamples => exact command_total _ _ _
  | bufferReady => exact command_total _ _ _
  | renderFrame => exact command_total _ _ _
  | sendFrame => exact command_total _ _ _
  | smEmitA => simp only [exec, execSmEmitA]; split; exacts [⟨s, rfl⟩, await_total _ _ _]
  | smEmitV => simp only [exec, execSmEmitV]; split; exacts [⟨s, rfl⟩, await_total _ _ _]
  | smSilence => exact await_total _ _ _
  | dmaBeat ch => exact await_total _ _ _
  | airqSwap => exact await_total _ _ _
  | rfCopy => exact await_total _ _ _
  | rfPublish => exact await_total _ _ _
  | sfTake => exact await_total _ _ _
  | sfBuild => exact await_total _ _ _
  | sfStart => exact await_total _ _ _
  | sfFinish => exact await_total _ _ _

end Sys2Proof.Machine
end

