-- ==== Sys2Proof/Laws/PerInstr.lean ====
section
/-! SUPPORT. PerInstr.lean: statements made once per instruction, for the host's case split. -/

namespace Sys2Proof.Laws.EncodedWord

/-- The word of an instruction keeps its reserved bits 0, and its `OP` has bit 7 set exactly for the format EVT
(30_encoding R110, R111). -/
def Statement (i : Instr) : Prop :=
  rsvField (encode i) = 0#23 ∧ (opField (encode i)).getLsbD 7 = i.isEvent

theorem nop (ch : Channel) : Statement (.nop ch) := by cases ch <;> exact ⟨rfl, rfl⟩
theorem init (ch : Channel) : Statement (.init ch) := by cases ch <;> exact ⟨rfl, rfl⟩
theorem start (ch : Channel) : Statement (.start ch) := by cases ch <;> exact ⟨rfl, rfl⟩
theorem stop (ch : Channel) : Statement (.stop ch) := by cases ch <;> exact ⟨rfl, rfl⟩
theorem queueSamples : Statement .queueSamples := ⟨rfl, rfl⟩
theorem bufferReady : Statement .bufferReady := ⟨rfl, rfl⟩
theorem renderFrame : Statement .renderFrame := ⟨rfl, rfl⟩
theorem sendFrame : Statement .sendFrame := ⟨rfl, rfl⟩
theorem smEmitA : Statement .smEmitA := ⟨rfl, rfl⟩
theorem smEmitV : Statement .smEmitV := ⟨rfl, rfl⟩
theorem smSilence : Statement .smSilence := ⟨rfl, rfl⟩
theorem dmaBeat (ch : Channel) : Statement (.dmaBeat ch) := by cases ch <;> exact ⟨rfl, rfl⟩
theorem airqSwap : Statement .airqSwap := ⟨rfl, rfl⟩
theorem rfCopy : Statement .rfCopy := ⟨rfl, rfl⟩
theorem rfPublish : Statement .rfPublish := ⟨rfl, rfl⟩
theorem sfTake : Statement .sfTake := ⟨rfl, rfl⟩
theorem sfBuild : Statement .sfBuild := ⟨rfl, rfl⟩
theorem sfStart : Statement .sfStart := ⟨rfl, rfl⟩
theorem sfFinish : Statement .sfFinish := ⟨rfl, rfl⟩

end Sys2Proof.Laws.EncodedWord
end

