-- ==== Sys2Proof/Laws/Regions.lean ====
section
/-! SUPPORT. Regions.lean: what a well-formed configuration gives: the sizes in range, the buffers inside the address
space and apart from one another. A proof cites these instead of taking `Config.WellFormed` to pieces. -/

namespace Sys2Proof

open Sys2Proof.Machine Sys2Proof.Safety

/-- The window's two stretches miss a buffer iff no address `P_BASE + k`, taken modulo 2^32, lies in it: what
00_scope R10 and R12 say of the register map, in terms of addresses. -/
theorem Config.window_apart_iff (c : Config) {r : Region} (hpos : 1 ≤ r.size) (hin : r.Inside) :
    (∀ w ∈ c.window, w.Apart r) ↔
      ∀ k, k < 256 → ¬ (r.base ≤ (c.base + BitVec.ofNat 32 k).toNat ∧
        (c.base + BitVec.ofNat 32 k).toNat < r.base + r.size) := by
  have hb := c.base.isLt
  simp only [Region.Inside] at hin
  simp only [Config.window, List.mem_cons, List.not_mem_nil, or_false, forall_eq_or_imp, forall_eq, Region.Apart,
    BitVec.toNat_add, BitVec.toNat_ofNat]
  constructor
  · rintro ⟨h1, h2⟩ k hk
    omega
  · intro h
    have h1 : ∀ x, r.base ≤ x → x < r.base + r.size → (x + 2 ^ 32 - c.base.toNat) % 2 ^ 32 < 256 → False := by
      intro x hx hx' hk
      refine h _ hk ?_
      omega
    have hlo : ¬ (r.base + 2 ^ 32 - c.base.toNat) % 2 ^ 32 < 256 := h1 r.base (by omega) (by omega)
    have hbase : ¬ (r.base ≤ c.base.toNat ∧ c.base.toNat < r.base + r.size) :=
      fun hx => h1 c.base.toNat hx.1 hx.2 (by omega)
    constructor <;> omega

namespace Config.WellFormed

variable {c : Config} (h : c.WellFormed)
include h

theorem frac_eq : c.frac = 16 := by obtain ⟨⟨_, _, _, _, h, _⟩, _⟩ := h; exact h
theorem srcW_pos : 1 ≤ c.srcW ∧ c.srcW ≤ 65535 := by obtain ⟨⟨h, _⟩, _⟩ := h; exact h
theorem srcH_pos : 1 ≤ c.srcH ∧ c.srcH ≤ 65535 := by obtain ⟨⟨_, h, _⟩, _⟩ := h; exact h
theorem outW_pos : 1 ≤ c.outW ∧ c.outW ≤ 65535 := by obtain ⟨⟨_, _, h, _⟩, _⟩ := h; exact h
theorem outH_pos : 1 ≤ c.outH ∧ c.outH ≤ 65535 := by obtain ⟨⟨_, _, _, h, _⟩, _⟩ := h; exact h
theorem audCap_pos : 1 ≤ c.audCap := by obtain ⟨⟨_, _, _, _, _, h, _⟩, _⟩ := h; exact h
theorem divA_pos : 1 ≤ c.divA ∧ c.divA ≤ 65535 := by obtain ⟨⟨_, _, _, _, _, _, _, _, h, _⟩, _⟩ := h; exact h
theorem divV_pos : 1 ≤ c.divV ∧ c.divV ≤ 65535 := by obtain ⟨⟨_, _, _, _, _, _, _, _, _, h, _⟩, _⟩ := h; exact h
theorem fifoDepth_pos : 1 ≤ c.fifoDepth ∧ c.fifoDepth ≤ 255 := by
  obtain ⟨⟨_, _, _, _, _, _, _, _, _, _, h⟩, _⟩ := h; exact h

/-- A Sample Buffer is 4-aligned (00_scope R10). -/
theorem abuf_aligned (i : Bool) : (abufAddr c i).toNat % 4 = 0 := by
  obtain ⟨_, ⟨_, h0, h1⟩, _⟩ := h
  cases i <;> assumption

/-- Each buffer lies within the address space (00_scope R10). -/
theorem abuf_inside (i : Bool) : (abufAddr c i).toNat + abufSize c ≤ 2 ^ 32 := by
  obtain ⟨_, _, ⟨_, hin, _⟩, _⟩ := h
  cases i
  · exact hin ⟨c.abuf0.toNat, 4 * c.audCap⟩ (by simp [Config.buffers])
  · exact hin ⟨c.abuf1.toNat, 4 * c.audCap⟩ (by simp [Config.buffers])

theorem sl_inside (i : Bool) : (slAddr c i).toNat + slSize c ≤ 2 ^ 32 := by
  obtain ⟨_, _, ⟨_, hin, _⟩, _⟩ := h
  cases i
  · exact hin ⟨c.sl0.toNat, 2 * c.outW⟩ (by simp [Config.buffers])
  · exact hin ⟨c.sl1.toNat, 2 * c.outW⟩ (by simp [Config.buffers])

theorem snap_inside (i : Bool) : (snapAddr c i).toNat + snapSize c ≤ 2 ^ 32 := by
  obtain ⟨_, _, ⟨_, hin, _⟩, _⟩ := h
  cases i
  · exact hin ⟨c.snap0.toNat, 2 * c.srcW * c.srcH⟩ (by simp [Config.buffers])
  · exact hin ⟨c.snap1.toNat, 2 * c.srcW * c.srcH⟩ (by simp [Config.buffers])

theorem audCap_lt : 4 * c.audCap ≤ 2 ^ 32 := by
  have := h.abuf_inside false
  simp only [abufSize] at this; omega

/-- The six buffers do not overlap (00_scope R10). -/
theorem buffers_apart :
    (Region.Apart ⟨c.abuf0.toNat, abufSize c⟩ ⟨c.abuf1.toNat, abufSize c⟩) ∧
    (Region.Apart ⟨c.sl0.toNat, slSize c⟩ ⟨c.sl1.toNat, slSize c⟩) ∧
    (Region.Apart ⟨c.snap0.toNat, snapSize c⟩ ⟨c.snap1.toNat, snapSize c⟩) ∧
    (∀ i j, Region.Apart ⟨(abufAddr c i).toNat, abufSize c⟩ ⟨(slAddr c j).toNat, slSize c⟩) ∧
    (∀ i j, Region.Apart ⟨(abufAddr c i).toNat, abufSize c⟩ ⟨(snapAddr c j).toNat, snapSize c⟩) ∧
    (∀ i j, Region.Apart ⟨(slAddr c i).toNat, slSize c⟩ ⟨(snapAddr c j).toNat, snapSize c⟩) := by
  obtain ⟨_, _, ⟨hap, _, _⟩, _⟩ := h
  simp only [Config.buffers, List.pairwise_cons, List.mem_cons, List.not_mem_nil, or_false] at hap
  obtain ⟨h0, h1, h2, h3, h4, _⟩ := hap
  refine ⟨h0 _ (.inl rfl), h2 _ (.inl rfl), h4 _ rfl, ?_, ?_, ?_⟩
  · intro i j; cases i <;> cases j
    · exact h0 _ (.inr (.inl rfl))
    · exact h0 _ (.inr (.inr (.inl rfl)))
    · exact h1 _ (.inl rfl)
    · exact h1 _ (.inr (.inl rfl))
  · intro i j; cases i <;> cases j
    · exact h0 _ (.inr (.inr (.inr (.inl rfl))))
    · exact h0 _ (.inr (.inr (.inr (.inr rfl))))
    · exact h1 _ (.inr (.inr (.inl rfl)))
    · exact h1 _ (.inr (.inr (.inr rfl)))
  · intro i j; cases i <;> cases j
    · exact h2 _ (.inr (.inl rfl))
    · exact h2 _ (.inr (.inr rfl))
    · exact h3 _ (.inl rfl)
    · exact h3 _ (.inr rfl)

end Config.WellFormed

namespace Safety

/-- In a buffer that does not pass the top of the address space, `Within` is an interval. -/
theorem within_iff {a base : Word} {n : Nat} (h : base.toNat + n ≤ 2 ^ 32) :
    Within a base n ↔ base.toNat ≤ a.toNat ∧ a.toNat < base.toNat + n := sub_toNat_lt_iff h

/-- Buffers that do not overlap share no byte. -/
theorem not_within_of_apart {a b b' : Word} {n n' : Nat} (hb : b.toNat + n ≤ 2 ^ 32) (hb' : b'.toNat + n' ≤ 2 ^ 32)
    (hap : Region.Apart ⟨b.toNat, n⟩ ⟨b'.toNat, n'⟩) (h : Within a b n) : ¬ Within a b' n' := by
  rw [within_iff hb] at h
  rw [within_iff hb']
  simp only [Region.Apart] at hap
  omega

variable {c : Config} (hc : c.WellFormed) {a : Word}
include hc

theorem abuf_not_sl {i j : Bool} (h : Within a (abufAddr c i) (abufSize c)) : ¬ Within a (slAddr c j) (slSize c) :=
  not_within_of_apart (hc.abuf_inside i) (hc.sl_inside j) (hc.buffers_apart.2.2.2.1 i j) h

theorem abuf_not_snap {i j : Bool} (h : Within a (abufAddr c i) (abufSize c)) :
    ¬ Within a (snapAddr c j) (snapSize c) :=
  not_within_of_apart (hc.abuf_inside i) (hc.snap_inside j) (hc.buffers_apart.2.2.2.2.1 i j) h

theorem sl_not_snap {i j : Bool} (h : Within a (slAddr c i) (slSize c)) : ¬ Within a (snapAddr c j) (snapSize c) :=
  not_within_of_apart (hc.sl_inside i) (hc.snap_inside j) (hc.buffers_apart.2.2.2.2.2 i j) h

theorem abuf_not_other {i : Bool} (h : Within a (abufAddr c i) (abufSize c)) :
    ¬ Within a (abufAddr c !i) (abufSize c) := by
  cases i
  · exact not_within_of_apart (hc.abuf_inside false) (hc.abuf_inside true) hc.buffers_apart.1 h
  · exact not_within_of_apart (hc.abuf_inside true) (hc.abuf_inside false) (Or.symm hc.buffers_apart.1) h

theorem sl_not_other {i : Bool} (h : Within a (slAddr c i) (slSize c)) : ¬ Within a (slAddr c !i) (slSize c) := by
  cases i
  · exact not_within_of_apart (hc.sl_inside false) (hc.sl_inside true) hc.buffers_apart.2.1 h
  · exact not_within_of_apart (hc.sl_inside true) (hc.sl_inside false) (Or.symm hc.buffers_apart.2.1) h

theorem snap_not_other {i : Bool} (h : Within a (snapAddr c i) (snapSize c)) :
    ¬ Within a (snapAddr c !i) (snapSize c) := by
  cases i
  · exact not_within_of_apart (hc.snap_inside false) (hc.snap_inside true) hc.buffers_apart.2.2.1 h
  · exact not_within_of_apart (hc.snap_inside true) (hc.snap_inside false) (Or.symm hc.buffers_apart.2.2.1) h

end Safety

end Sys2Proof
end

