-- ==== Sys2Proof/Tests/Slice0.lean ====
section
/-! SUPPORT. Slice0.lean: the smoke tests of the checks, the words written out from the spec, the vectors of
95_test_vectors, and a witness for the hypotheses of each obligation. Configuration CFG-T of 95_test_vectors. -/

namespace Sys2Proof.Tests

open Sys2Proof.Machine Sys2Proof.Safety

/-- CFG-T (95_test_vectors section 0). -/
def cfgT : Config :=
  { Config.reference with srcW := 2, srcH := 2, outW := 3, outH := 3,
                          sl0 := 0x4000#32, sl1 := 0x4010#32, snap0 := 0x5000#32, snap1 := 0x5010#32 }

/-- CFG-T without a video DMA channel (95_test_vectors P6). -/
def cfgNoV : Config := { cfgT with chAvailV := false }

/-- A block right after a reset. -/
def fresh : State := State.resetIn cfgT [] ⟨[], [], [], [], [], 0⟩

/-- The block after INIT and START of both channels. -/
def live : State :=
  { fresh with chanA := ⟨true, true, 8#16, false, false, true, 0#32, 0#32⟩,
               chanV := ⟨true, true, 2#16, false, false, false, 0#32, 0#32⟩ }

/-- `live` with port 0's arguments. -/
def args (a b : Word) (s : State) : State := { s with port0 := { s.port0 with arg0 := a, arg1 := b } }

/-- Memory with `bs` stored at `a`. -/
def bytesAt (a : Word) (bs : List Byte) (s : State) : State := { s with mem := s.mem.writeBytes a bs }

/-- What a next state shows; nothing for another outcome. -/
def seen {α : Type} (r : Result) (f : State → α) : Option α :=
  match r with
  | .next t => some (f t)
  | .fault _ => none
  | .refused _ => none

/-- The state whose next step is a core's access. -/
def doing (p : Port) (a : Access) (s : State) : State := (s.setProg p [a]).setSched [.core p]

/-- The state whose next turn is `t`. -/
def taking (t : Turn) (s : State) : State := s.setSched [t]

/-! ### Smoke tests: each check refuses an ill-formed term -/

theorem test_cfgT_wellFormed : cfgT.WellFormed := by decide
theorem test_size_zero_refused : ¬ { cfgT with srcW := 0 }.WellFormed := by decide
theorem test_size_over_refused : ¬ { cfgT with outH := 65536 }.WellFormed := by decide
theorem test_frac_refused : ¬ { cfgT with frac := 8 }.WellFormed := by decide
theorem test_capacity_zero_refused : ¬ { cfgT with audCap := 0 }.WellFormed := by decide
theorem test_divisor_zero_refused : ¬ { cfgT with divV := 0 }.WellFormed := by decide
theorem test_fifo_deep_refused : ¬ { cfgT with fifoDepth := 256 }.WellFormed := by decide
theorem test_misaligned_buffer_refused : ¬ { cfgT with abuf1 := 0x1012#32 }.WellFormed := by decide
theorem test_overlap_refused : ¬ { cfgT with sl1 := 0x4004#32 }.WellFormed := by decide
theorem test_over_the_top_refused : ¬ { cfgT with snap1 := 0xFFFFFFFC#32 }.WellFormed := by decide
theorem test_window_overlap_refused : ¬ { cfgT with base := 0x4F04#32 }.WellFormed := by decide
theorem test_window_wraps_admitted : { cfgT with base := 0xFFFFFF04#32 }.WellFormed := by decide
theorem test_window_wrap_overlap_refused : ¬ { cfgT with base := 0xFFFFFF04#32, abuf0 := 0#32 }.WellFormed := by decide
theorem test_layout_refused : ¬ { cfgT with layout := ⟨3, 3, 1, 0⟩ }.WellFormed := by decide
theorem test_send_on_port0_refused : ¬ Instr.WellFormedCommand .sendFrame .p0 := by decide
theorem test_render_on_port1_refused : ¬ Instr.WellFormedCommand .renderFrame .p1 := by decide
theorem test_event_as_command_refused : ¬ Instr.WellFormedCommand (.dmaBeat .A) .p0 := by decide
theorem test_command_as_event_refused : ¬ Instr.WellFormedEvent (.init .A) := by decide
theorem test_bad_config_has_no_run :
    seen (step (taking .clk { fresh with cfg := { cfgT with frac := 8 } })) (fun _ => ()) = none := by decide

/-! ### The words of 30_encoding R113 and R114, written out bit by bit: OP in bits 7:0, CH in bit 8 -/

theorem test_word_nop : decodeTableWord 32 0b1_0000_0000 = some (.nop .V) := by decide
theorem test_word_init : decodeTableWord 32 0b0_0000_0001 = some (.init .A) := by decide
theorem test_word_start : decodeTableWord 32 0b1_0000_0010 = some (.start .V) := by decide
theorem test_word_stop : decodeTableWord 32 0b0_0000_0011 = some (.stop .A) := by decide
theorem test_word_queueSamples : decodeTableWord 32 0b0_0001_0000 = some .queueSamples := by decide
theorem test_word_bufferReady : decodeTableWord 32 0b0_0001_0001 = some .bufferReady := by decide
theorem test_word_renderFrame : decodeTableWord 32 0b1_0010_0000 = some .renderFrame := by decide
theorem test_word_sendFrame : decodeTableWord 32 0b1_0010_0001 = some .sendFrame := by decide
theorem test_word_smEmitA : decodeTableWord 32 0b0_1000_0000 = some .smEmitA := by decide
theorem test_word_smEmitV : decodeTableWord 32 0b1_1000_0000 = some .smEmitV := by decide
theorem test_word_smSilence : decodeTableWord 32 0b0_1000_0001 = some .smSilence := by decide
theorem test_word_dmaBeat : decodeTableWord 32 0b1_1001_0000 = some (.dmaBeat .V) := by decide
theorem test_word_airqSwap : decodeTableWord 32 0b0_1010_0000 = some .airqSwap := by decide
theorem test_word_rfCopy : decodeTableWord 32 0b1_1011_0000 = some .rfCopy := by decide
theorem test_word_rfPublish : decodeTableWord 32 0b1_1011_0001 = some .rfPublish := by decide
theorem test_word_sfTake : decodeTableWord 32 0b1_1100_0000 = some .sfTake := by decide
theorem test_word_sfBuild : decodeTableWord 32 0b1_1100_0001 = some .sfBuild := by decide
theorem test_word_sfStart : decodeTableWord 32 0b1_1100_0010 = some .sfStart := by decide
theorem test_word_sfFinish : decodeTableWord 32 0b1_1100_0011 = some .sfFinish := by decide
/-- 95_test_vectors section 2: words that are no instruction, or no command. -/
theorem test_words_refused :
    decodeTableWord 32 0x110 = none ∧ decodeTableWord 32 0x111 = none ∧ decodeTableWord 32 0x020 = none ∧
    decodeTableWord 32 0x004 = none ∧ decodeTableWord 32 0x0FF = none ∧ decodeTableWord 32 0x200 = none ∧
    decodeTableWord 32 0x80000001 = none := by decide

/-! ### Vectors of 95_test_vectors sections 1 to 9 -/

/-- Section 4: `INIT A`, `INIT V` from reset. -/
theorem test_init_A : seen (exec (.init .A) fresh)
    (fun t => (t.ctrlWord .A, t.ringStatusWord, t.clkdivWord .A, t.ctrlWord .V)) =
    some (0x5#32, 0x4#32, 8#32, 0#32) := by decide
theorem test_init_V : seen (exec (.init .V) (bytesAt 0x5012#32 [7#8, 8#8] fresh))
    (fun t => (t.ctrlWord .V, t.clkdivWord .V, t.hsStatusWord, t.mem)) = some (0x1#32, 2#32, 0#32, []) := by decide
/-- Section 4: no DMA channel. -/
theorem test_init_no_channel : seen (exec (.init .V) { fresh with cfg := cfgNoV })
    (fun t => (t.faultWord, t.ctrlWord .V)) = some (0x80000020#32, 0#32) := by decide
theorem test_start : seen (exec (.start .A) { fresh with chanA := { live.chanA with smEn := false } })
    (fun t => t.ctrlWord .A) = some 0x7#32 := by decide
theorem test_start_before_init : seen (exec (.start .A) fresh) (fun t => (t.faultWord, t.ctrlWord .A)) =
    some (0x8#32, 0#32) := by decide
/-- Section 4: STOP A with a transfer in flight and two words in the FIFO. -/
theorem test_stop : seen (exec (.stop .A)
      { live with fifoA := [1#32, 2#32], chanA := { live.chanA with dmaBusy := true, dmaCount := 1#32 } })
    (fun t => (t.ctrlWord .A, t.dmaStatusWord .A, t.chanA.dmaCount)) = some (0x5#32, 0x4#32, 1#32) := by decide
theorem test_stop_pending_swap : seen (exec (.stop .A)
      { live with chanA := { live.chanA with dmaDone := true }, ring := { live.ring with ready := true } })
    (fun t => (t.irqReq .A, t.ring.ready)) = some (false, true) := by decide
theorem test_nop : seen (exec (.nop .V) fresh) (fun t => decide (t = fresh)) = some true := by decide
/-- Section 7 (a): `QUEUE 0x2000, 2` of [1, -1] on an idle engine. -/
theorem test_queue_idle : seen (exec .queueSamples
      (args 0x2000#32 2#32 (bytesAt 0x2000#32 [0x01#8, 0x00#8, 0xFF#8, 0xFF#8] live)))
    (fun t => (t.mem.read32 0x1010#32, t.mem.read32 0x1014#32, t.ringStatusWord, t.chanA.dmaAddr, t.chanA.dmaCount,
      t.dmaStatusWord .A)) =
    some (0x00010001#32, 0xFFFFFFFF#32, 0x2#32, 0x1010#32, 2#32, 0x5#32) := by decide
/-- Section 1.3: the clamp, samples 5 and 6 never read. -/
theorem test_queue_clamp : seen (exec .queueSamples
      (args 0x2000#32 6#32 (bytesAt 0x2000#32 [1#8, 0#8, 2#8, 0#8, 3#8, 0#8, 4#8, 0#8, 5#8, 0#8, 6#8, 0#8] live)))
    (fun t => (t.mem.read32 0x101C#32, t.mem.read32 0x1020#32, t.ring.xferLen)) =
    some (0x00040004#32, 0#32, 4#32) := by decide
theorem test_buffer_ready_pending : seen (exec .bufferReady { live with ring := { live.ring with ready := true } })
    (fun t => t.port0.result) = some 0#32 := by decide
theorem test_buffer_ready_free : seen (exec .bufferReady live) (fun t => t.port0.result) = some 1#32 := by decide
/-- Section 9, row 1. -/
theorem test_render : seen (exec .renderFrame (args 0x3000#32 0#32 live)) (fun t => (t.hsStatusWord, t.cmdWord .p0)) =
    some (0x1044#32, 1#32) := by decide
theorem test_render_null : seen (exec .renderFrame live) (fun t => decide (t = live)) = some true := by decide

/-- A published frame in slot 1 (section 9, row 3). -/
def published : State :=
  { live with video := { live.video with pending := true, fresh := true, pubSlot := true, wrSlot := true } }

/-- The consumer waits for it. -/
def waiting : State := { published with video := { published.video with cphase := .wait } }

/-- The consumer reads slot 1, about to build row `r`. -/
def building (r : BitVec 16) : State :=
  { live with video := { live.video with consSlot := true, pubSlot := true, wrSlot := true, pending := true,
                                         cphase := .build, brow := r, trow := r } }

theorem test_send : seen (exec .sendFrame published) (fun t => (t.hsStatusWord, t.cmdWord .p1)) =
    some (0x163#32, 1#32) := by decide
/-- Section 5.1. -/
theorem test_emit_A : seen (exec .smEmitA { live with fifoA := [0x12341234#32] }) (fun t => (t.outA, t.fifoA)) =
    some ([.frame 0x12341234#32], []) := by decide
theorem test_emit_V : seen (exec .smEmitV { live with fifoV := [0xF8#8, 0x00#8] }) (fun t => (t.outV, t.fifoV)) =
    some ([0xF8#8], [0x00#8]) := by decide
theorem test_silence : seen (exec .smSilence live) (fun t => t.outA) = some [.silence] := by decide
theorem test_silence_stopped : seen (exec .smSilence fresh) (fun t => t.outA) = some [] := by decide
/-- Section 6, row 1 and the address wrap. -/
theorem test_beat_A : seen (exec (.dmaBeat .A) (bytesAt 0x1000#32 [0xFF#8, 0xFF#8, 0xFF#8, 0x7F#8]
      { live with chanA := { live.chanA with dmaBusy := true, dmaAddr := 0x1000#32, dmaCount := 1#32 } }))
    (fun t => (t.fifoA, t.chanA.dmaAddr, t.chanA.dmaCount, t.dmaStatusWord .A)) =
    some ([0x7FFFFFFF#32], 0x1004#32, 0#32, 0x102#32) := by decide
theorem test_beat_V_wraps : seen (exec (.dmaBeat .V) (bytesAt 0xFFFFFFFF#32 [0xA5#8]
      { live with chanV := { live.chanV with dmaBusy := true, dmaAddr := 0xFFFFFFFF#32, dmaCount := 2#32 } }))
    (fun t => (t.fifoV, t.chanV.dmaAddr, t.chanV.dmaBusy)) = some ([0xA5#8], 0#32, true) := by decide

/-- A pending buffer and a completion (section 7, "swap"). -/
def swapping : State :=
  { live with chanA := { live.chanA with dmaDone := true }, ring := ⟨true, false, true, 2#32⟩ }

theorem test_swap : seen (exec .airqSwap swapping)
    (fun t => (t.ringStatusWord, t.chanA.dmaAddr, t.chanA.dmaCount, t.dmaStatusWord .A)) =
    some (0x4#32, 0x1000#32, 2#32, 0x5#32) := by decide
/-- Section 1.2: the underrun. -/
theorem test_swap_underrun : seen (exec .airqSwap { swapping with ring := { swapping.ring with ready := false } })
    (fun t => (t.ringStatusWord, t.chanA.dmaAddr, t.dmaStatusWord .A)) = some (0x2#32, 0#32, 0x4#32) := by decide

/-- A render of the frame at 0x3000 into slot 1. -/
def copying : State :=
  { live with video := { live.video with wrSlot := true, rfSrc := 0x3000#32, pphase := .copy } }

/-- Section 9, row 2, and P3's framebuffer. -/
theorem test_rf_copy : seen (exec .rfCopy
      (bytesAt 0x3000#32 [0x00#8, 0xF0#8, 0x00#8, 0x0F#8, 0xF0#8, 0x00#8, 0xF0#8, 0xFF#8] copying))
    (fun t => (t.hsStatusWord, t.mem.readBytes 0x5010#32 9)) =
    some (0x2044#32, [0x00#8, 0xF0#8, 0x00#8, 0x0F#8, 0xF0#8, 0x00#8, 0xF0#8, 0xFF#8, 0x00#8]) := by decide
theorem test_rf_publish : seen (exec .rfPublish { copying with video := { copying.video with pphase := .publish } })
    (fun t => (t.hsStatusWord, t.cmdWord .p0)) = some (0x63#32, 0#32) := by decide
theorem test_sf_take : seen (exec .sfTake waiting) (fun t => (t.hsStatusWord, t.hsRowsWord)) =
    some (0x279#32, 0#32) := by decide
/-- Section 8.2: SF_TAKE waits for a copy in progress. -/
theorem test_sf_take_waits : seen (exec .sfTake { waiting with video := { waiting.video with pphase := .copy } })
    (fun t => t.video.cphase) = some .wait := by decide

/-- Snapshot slot 1 of section 8.2. -/
def framed (s : State) : State :=
  bytesAt 0x5010#32 [0x00#8, 0xF0#8, 0x00#8, 0x0F#8, 0xF0#8, 0x00#8, 0xF0#8, 0xFF#8] s

theorem test_sf_build_row0 : seen (exec .sfBuild (framed (building 0#16)))
    (fun t => (t.mem.readBytes 0x4000#32 6, t.hsRowsWord)) =
    some ([0xF8#8, 0x00#8, 0xF8#8, 0x00#8, 0x07#8, 0xE0#8], 1#32) := by decide
theorem test_sf_build_row2 : seen (exec .sfBuild (framed (building 2#16)))
    (fun t => t.mem.readBytes 0x4000#32 6) = some [0x00#8, 0x1F#8, 0x00#8, 0x1F#8, 0xFF#8, 0xFF#8] := by decide

/-- A row built and not started: `trow = 0`, `brow = 1`. -/
def starting : State :=
  { building 0#16 with video := { (building 0#16).video with cphase := .start, brow := 1#16 } }

theorem test_sf_start : seen (exec .sfStart starting)
    (fun t => (t.chanV.dmaAddr, t.chanV.dmaCount, t.video.trow, t.video.cphase)) =
    some (0x4000#32, 6#32, 1#16, .build) := by decide
theorem test_sf_start_waits : seen (exec .sfStart { starting with chanV := { live.chanV with dmaBusy := true } })
    (fun t => t.video.cphase) = some .start := by decide

/-- The last row started and sent. -/
def draining : State :=
  { building 3#16 with video := { (building 3#16).video with cphase := .drain } }

theorem test_sf_finish : seen (exec .sfFinish draining) (fun t => (t.video.pending, t.cmdWord .p1)) =
    some (false, 0#32) := by decide
theorem test_sf_finish_keeps_fresh : seen (exec .sfFinish { draining with video := { draining.video with fresh := true } })
    (fun t => t.video.pending) = some true := by decide

/-- Section 6, function level: `dma_start` at 0x1002, on a busy channel, and with a zero count. -/
theorem test_dma_start_misaligned :
    (match dmaStart .A 0x1002#32 1#32 live with | .error f => some f | .ok _ => none) = some .dmaMisaligned := by decide
theorem test_dma_start_zero :
    (match dmaStart .A 0x1000#32 0#32 live with | .error _ => none | .ok t => some (t.dmaStatusWord .A)) =
    some 0x6#32 := by decide
/-- Sections 1.4, 1.5, 8.1: the pure conversions. -/
theorem test_wire : wire 0x1234#16 = 0x12341234#32 ∧ wire 0x8000#16 = 0x80008000#32 := by decide
theorem test_colour : rgb565 0xA#4 0x5#4 0xC#4 = 0xAAB9#16 ∧ pixelColour PixelLayout.default 0xA5C3#16 = 0xAAB9#16 := by
  decide
theorem test_srow : (srow Config.reference 15, srow Config.reference 225, srow Config.reference 239) = (7, 119, 127) ∧
    srow { Config.reference with rescaleExact := true } 15 = 8 := by decide
/-- Section 5.2: word 0x80018001, divisor 1: slot 16 begins, `AUD_WS` goes high and `w[16]` shows. -/
theorem test_audio_slot16 :
    let s := clkEdge { live with chanA := { live.chanA with div := 1#16 },
                                 tgA := ⟨0#16, .high, 15, 0x80018001#32, true, false⟩ }
    (s.pins.audBck, s.pins.audWs, s.pins.audDout, s.tgA.slot) = (false, true, true, 16) := by decide
/-- Section 5.3: the first edge after START V with 0xA5 waiting. -/
theorem test_display_load :
    let s := clkEdge { live with fifoV := [0xA5#8] }
    (s.outV, s.pins.lcdMosi, s.pins.lcdSck, s.tgV.loaded) = ([0xA5#8], true, false, true) := by decide
/-- Section 2: the register access forms. -/
theorem test_narrow_write : seen (step (doing .p0 (.write 0x08#8 .half 0x001#32) fresh))
    (fun t => (t.faultWord, t.ctrlWord .A)) = some (0x200#32, 0#32) := by decide
theorem test_reserved_offset : seen (step (doing .p1 (.read 0x30#8 .word) fresh))
    (fun t => (t.faultWord, t.env.ret1)) = some (0#32, [0#32]) := by decide
theorem test_illegal_port : seen (step (doing .p1 (.write 0x18#8 .word 0x010#32) live)) (fun t => t.faultWord) =
    some 0x4#32 := by decide
theorem test_illegal_before_port : seen (step (doing .p1 (.write 0x18#8 .word 0x110#32) live)) (fun t => t.faultWord) =
    some 0x2#32 := by decide
/-- The fetch of `withFetchWord`: the first step after reset runs INIT V. -/
theorem test_first_step : seen (step (State.reset.withFetchWord 32 0x101)) (fun t => t.ctrlWord .V) = some 1#32 := by
  decide

/-! ### Witnesses: for each obligation with hypotheses, states and operands that meet them, clause by clause -/

theorem reset_sound : Sound State.reset := ⟨by decide, by decide⟩
theorem live_sound : Sound live := ⟨by decide, by decide⟩

/-- A busy audio engine in the middle of the active buffer, a filled buffer pending. -/
def playing : State :=
  { live with
    chanA := { live.chanA with dmaBusy := true, dmaAddr := 0x1014#32, dmaCount := 3#32 }, ring := ⟨true, false, true, 2#32⟩ }

theorem live_audioInv : AudioInv live :=
  ⟨rfl, by decide, by decide, by decide, rfl, by decide, fun h => absurd h (by decide)⟩
theorem playing_audioInv : AudioInv playing :=
  ⟨rfl, by decide, by decide, by decide, rfl, by decide, fun _ => ⟨1, by decide, by decide⟩⟩
theorem swapping_audioInv : AudioInv swapping :=
  ⟨rfl, by decide, by decide, by decide, rfl, by decide, fun h => absurd h (by decide)⟩

/-- A state whose video engine is idle meets `VideoInv` when the decidable clauses hold. -/
theorem videoInv_of_idle {s : State} (hb : s.chanV.dmaBusy = false) (hi : s.chanV.inited = true)
    (he : s.chanV.dmaIe = false) (h1 : s.consuming = false → s.video.pending = s.video.fresh)
    (h2 : s.copying = true → s.consuming = true → s.video.wrSlot ≠ s.video.consSlot)
    (h3 : s.video.cphase = .build → s.video.brow = s.video.trow ∧ s.video.brow.toNat < s.cfg.outH)
    (h4 : s.video.cphase = .start →
      s.video.brow.toNat = s.video.trow.toNat + 1 ∧ s.video.brow.toNat ≤ s.cfg.outH)
    (h5 : s.video.cphase = .drain → s.video.brow = s.video.trow ∧ s.video.brow.toNat = s.cfg.outH) : VideoInv s :=
  ⟨by simp [hi], he, fun _ => hb, h1, h2, h3, h4, h5, fun _ => hb, by simp [hb], by simp [hb]⟩

theorem waiting_videoInv : VideoInv waiting := videoInv_of_idle rfl rfl rfl (by decide) (by decide) (by decide) (by decide) (by decide)
theorem building_videoInv : VideoInv (building 2#16) :=
  videoInv_of_idle rfl rfl rfl (by decide) (by decide) (by decide) (by decide) (by decide)
theorem draining_videoInv : VideoInv draining :=
  videoInv_of_idle rfl rfl rfl (by decide) (by decide) (by decide) (by decide) (by decide)

/-- Row 0 is on its way, row 1 is to be built. -/
def sending : State :=
  { building 1#16 with chanV := { live.chanV with dmaBusy := true, dmaAddr := 0x4002#32, dmaCount := 4#32 } }

theorem sending_videoInv : VideoInv sending :=
  ⟨by decide, rfl, by decide, by decide, by decide, by decide, by decide, by decide, by decide, by decide,
   fun _ => ⟨by decide, 2, by decide, by decide⟩⟩

theorem fresh_pinInv : PinInv fresh := by
  constructor <;> decide
/-- Both generators run: the audio one at the end of a frame, the display one at the end of a byte. -/
def shifting : State :=
  { live with tgA := ⟨7#16, .high, 31, 0x80018001#32, true, false⟩, tgV := ⟨1#16, .high, 7, 0xA5#8, true⟩,
              pins := ⟨true, true, false, true, true⟩ }

theorem shifting_pinInv : PinInv shifting := by
  constructor <;> decide

theorem witness_StepRunsDecodedInstruction :
    (fresh.cfg.WellFormed ∧ (taking (.event 0x1C0#32) fresh).env.sched = [.event 0x1C0#32] ∧
      decodeWord 0x1C0#32 = .ok .sfTake ∧ Instr.sfTake.isEvent = true) ∧
    (let s := doing .p1 (.write (cmdOffset .p1) .word 0x121#32) live
     s.env.sched = [.core .p1] ∧ s.prog .p1 = [.write (cmdOffset .p1) .word 0x121#32] ∧
      decodeCommand 0x121#32 = .ok .sendFrame ∧ Instr.sendFrame.admits .p1 = true ∧ s.busy .p1 = false ∧
      s.halted = false) ∧
    (Instr.sendFrame.isEvent = false ∧ live.busy .p0 = false ∧ live.busy .p1 = false) ∧
    (taking .clk shifting).env.sched = [.clk] ∧ fresh.env.sched = [] := by decide

theorem witness_IssueChecksInOrder :
    (let s := doing .p0 (.write (cmdOffset .p0) .word 0x103#32) { live with halted := true }
     s.env.sched = [.core .p0] ∧ s.busy .p0 = false ∧ s.halted = true) ∧
    (live.halted = false ∧ decodeCommand 0x200#32 = .error .reservedBits) ∧
    (decodeCommand 0x121#32 = .ok .sendFrame ∧ Instr.sendFrame.admits .p0 = false) ∧
    (decodeCommand 0x101#32 = .ok (.init .V) ∧ (live.chan (chField 0x101#32)).inited = true) ∧
    (decodeCommand 0x103#32 = .ok (.stop .V) ∧ (fresh.chan (chField 0x103#32)).inited = false) ∧
    decodeCommand 0x100#32 = .ok (.nop .V) := by
  refine ⟨by decide, ⟨rfl, rfl⟩, ⟨rfl, rfl⟩, ⟨rfl, rfl⟩, ⟨rfl, rfl⟩, rfl⟩

theorem witness_BusyPortHoldsWriter :
    copying.busy .p0 = true ∧ copying.busy .p1 = false ∧ waiting.busy .p1 = true ∧
    (doing .p1 (.write (cmdOffset .p0) .word 0x120#32) { copying with halted := true }).busy .p0 = true ∧
    (let s := doing .p1 (.write (cmdOffset .p0) .word 0x120#32) copying
     s.cfg.WellFormed ∧ s.env.sched = [.core .p1] ∧ s.prog .p1 = [.write (cmdOffset .p0) .word 0x120#32]) := by decide

/-- A halted block. -/
def stopped : State := { live with halted := true }

theorem witness_HaltedBlockStandsStill :
    seen (step (taking .clk stopped)) (fun _ => ()) = some () ∧ nextTurn (taking .clk stopped) ≠ .rst ∧
    seen (step (taking .rst stopped)) (fun _ => ()) = some () ∧ nextTurn (taking .rst stopped) = .rst ∧
    (doing .p0 (.write (cmdOffset .p1) .word 0x121#32) stopped).busy .p1 = false ∧
    (doing .p1 (.read 0xC0#8 .word) stopped).halted = true ∧
    (doing .p0 (.write 0x14#8 .word 7#32) stopped).env.sched = [.core .p0] := by decide

theorem witness_FaultCancelsItsStep :
    seen (exec (.start .V) fresh) (fun t => decide (t.faults ≠ fresh.faults)) = some true ∧
    seen (exec (.init .V) { fresh with cfg := cfgNoV }) (fun t => decide (t.halted ≠ false)) = some true ∧
    (let s := doing .p0 (.write 0x08#8 .word 0x102#32) fresh
     seen (step s) (fun t => decide (t.faults ≠ s.faults)) = some true ∧ nextTurn s = .core .p0) := by decide

theorem witness_EveryStepGoesOn :
    nextTurn (taking (.event 0x081#32) fresh) = .event 0x081#32 ∧ decodeWord 0x081#32 = .ok .smSilence ∧
    ¬ { cfgT with outW := 0 }.WellFormed := by
  refine ⟨rfl, rfl, by decide⟩

theorem witness_BadAccessIsRecorded :
    ¬ (Width.half = .word ∧ (0x00#8).toNat % 4 = 0) ∧ ¬ (Width.word = .word ∧ (0xFE#8).toNat % 4 = 0) ∧
    (doing .p0 (.read 0xFE#8 .word) fresh).prog .p0 = [.read 0xFE#8 .word] ∧
    (doing .p1 (.write 0x00#8 .half 1#32) fresh).prog .p1 = [.write 0x00#8 .half 1#32] := by decide

theorem witness_RegisterAccessRules :
    (doing .p1 (.read 0xFC#8 .word) fresh).prog .p1 = [.read 0xFC#8 .word] ∧ (0xFC#8).toNat % 4 = 0 ∧
    (doing .p1 (.write 0x14#8 .word 5#32) fresh).prog .p1 = [.write 0x14#8 .word 5#32] ∧
    (doing .p0 (.write 0x0C#8 .word 5#32) fresh).env.sched = [.core .p0] := by decide

theorem witness_FaultRegisterIsSticky :
    seen (step (taking .clk { live with faults := 0x200#10 })) (fun t => t.faultWord) = some 0x200#32 ∧
    seen (step (taking .rst { live with faults := 0x200#10 })) (fun t => t.faultWord) = some 0#32 := by decide

theorem witness_StatusWordsShowTheirFields :
    readReg { live with chanV := { live.chanV with dmaBusy := true } } 0x64#8 = 0x5#32 ∧ readReg live 0x44#8 = 0x4#32 ∧
    readReg waiting 0xA0#8 = 0x163#32 ∧ waiting.video.cphase = .wait ∧ copying.video.pphase = .copy := by decide

theorem witness_InitAudioChannel :
    fresh.busy .p0 = false ∧ fresh.halted = false ∧ fresh.chanA.inited = false ∧ fresh.cfg.chAvailA = true ∧
    Within 0x101F#32 (abufAddr fresh.cfg true) (4 * fresh.cfg.audCap) ∧
    (∀ i, ¬ Within 0x1020#32 (abufAddr fresh.cfg i) (4 * fresh.cfg.audCap)) := by decide

theorem witness_InitDisplayChannel :
    fresh.chanV.inited = false ∧ fresh.cfg.chAvailV = true ∧
    Within 0x4005#32 (slAddr fresh.cfg false) (2 * fresh.cfg.outW) ∧
    Within 0x5010#32 (snapAddr fresh.cfg true) (2 * fresh.cfg.srcW * fresh.cfg.srcH) ∧
    (∀ i, ¬ Within 0x4006#32 (slAddr fresh.cfg i) (2 * fresh.cfg.outW) ∧
      ¬ Within 0x4006#32 (snapAddr fresh.cfg i) (2 * fresh.cfg.srcW * fresh.cfg.srcH)) := by decide

theorem witness_InitRefusals :
    (let s := { fresh with cfg := cfgNoV }
     s.busy .p0 = false ∧ s.halted = false ∧ (s.chan .V).inited = false ∧ chAvail s.cfg .V = false) ∧
    (live.chan .A).inited = true ∧ seen (step (taking .clk stopped)) (fun _ => ()) = some () := by decide

theorem witness_StartChannel :
    live.busy .p0 = false ∧ live.halted = false ∧ (live.chan .A).smEn = true ∧ (fresh.chan .V).inited = false ∧
    (let s := { live with chanA := { live.chanA with smEn := false }, chanV := { live.chanV with smEn := false } }
     s.chanA.inited = true ∧ s.chanA.smEn = false ∧ s.chanV.inited = true ∧ s.chanV.smEn = false) := by decide

theorem witness_StopChannel :
    playing.busy .p0 = false ∧ playing.halted = false ∧ playing.chanA.inited = true ∧ playing.chanV.inited = true ∧
    (fresh.chan .A).inited = false := by decide

theorem witness_NopChangesNothing : decodeCommand 0x100#32 = .ok (.nop .V) := rfl

theorem witness_StopCancelsSwap :
    swapping.busy .p0 = false ∧ swapping.halted = false ∧ swapping.chanA.inited = true ∧ swapping.irqReq .A = true ∧
    seen (exec (.stop .A) swapping) (fun _ => ()) = some () := by decide

theorem witness_ChannelsAreIndependent :
    seen (exec (.init .A) fresh) (fun _ => ()) = some () ∧ seen (exec (.stop .V) sending) (fun _ => ()) = some () ∧
    Within 0x4010#32 (slAddr cfgT true) (slSize cfgT) ∧ Within 0x1000#32 (abufAddr cfgT false) (abufSize cfgT) := by decide

theorem witness_AudioLoadSteps :
    live.chanA.smEn = true ∧ live.halted = false ∧ live.fifoA = [] ∧ fresh.chanA.smEn = false ∧ stopped.halted = true ∧
    { live with fifoA := [5#32] }.fifoA = 5#32 :: [] := by decide

theorem witness_DisplayLoadStep :
    live.chanV.smEn = true ∧ live.halted = false ∧ live.fifoV = [] ∧ fresh.chanV.smEn = false ∧
    { live with fifoV := [5#8, 6#8] }.fifoV = 5#8 :: [6#8] := by decide

theorem witness_AudioGeneratorAdvances :
    (cfgT.WellFormed ∧ shifting.halted = false ∧ shifting.chanA.smEn = true ∧ shifting.tgA.loaded = true ∧
      audioPos shifting + 1 = 64 * shifting.chanA.div.toNat) ∧
    (fresh.halted = false ∧ fresh.chanA.smEn = false) ∧ (live.chanA.smEn = true ∧ live.tgA.loaded = false) ∧
    (let s := { shifting with tgA := { shifting.tgA with ctr := 6#16 } }
     audioPos s + 1 < 64 * s.chanA.div.toNat) := by decide

theorem witness_DisplayGeneratorAdvances :
    (shifting.chanV.smEn = true ∧ shifting.tgV.loaded = true ∧
      displayPos shifting + 1 = 16 * shifting.chanV.div.toNat) ∧
    fresh.chanV.smEn = false ∧ (live.chanV.smEn = true ∧ live.tgV.loaded = false) ∧
    (let s := { shifting with tgV := { shifting.tgV with ctr := 0#16 } }
     displayPos s + 1 < 16 * s.chanV.div.toNat) := by decide

theorem live_pinInv : PinInv live := by constructor <;> decide

theorem witness_StepKeepsPins : seen (step (taking .clk shifting)) (fun t => t.outA) = some [.silence] := by decide

theorem witness_DmaBeatMovesOneElement :
    playing.chanA.dmaBusy = true ∧ playing.fifoA.length < playing.cfg.fifoDepth ∧ playing.halted = false ∧
    sending.chanV.dmaBusy = true ∧ sending.fifoV.length < sending.cfg.fifoDepth ∧ sending.halted = false ∧
    (live.chan .A).dmaBusy = false ∧
    (let s := { playing with fifoA := [1#32, 2#32, 3#32, 4#32] }
     s.cfg.fifoDepth ≤ s.fifoLen .A) ∧ stopped.halted = true := by decide

theorem witness_DmaStartRule :
    (playing.chan .A).dmaBusy = true ∧ (live.chan .A).dmaBusy = false ∧ (0x1002#32).toNat % esz .A ≠ 0 ∧
    (0x1010#32).toNat % esz .A = 0 ∧ (0x4001#32).toNat % esz .V = 0 := by decide

theorem witness_QueueSamplesRule :
    live.busy .p0 = false ∧ live.halted = false ∧ live.chanA.inited = true ∧ live.port0.arg0 = 0#32 ∧
    (fresh.busy .p0 = false ∧ fresh.halted = false ∧ fresh.chanA.inited = false) ∧
    (let s := args 0xFFFFFFFF#32 0xFFFFFFFF#32 live
     s.port0.arg0 ≠ 0#32 ∧ s.port0.arg1 ≠ 0#32 ∧ s.chanA.dmaBusy = false ∧ 3 < min s.port0.arg1.toNat s.cfg.audCap) ∧
    (args 0x2001#32 1#32 playing).chanA.dmaBusy = true ∧
    ¬ Within 0x1014#32 (abufAddr cfgT true) (4 * 1) := by decide

theorem witness_BufferReadyReports :
    live.busy .p0 = false ∧ live.halted = false ∧ live.chanA.inited = true ∧ fresh.chanA.inited = false := by decide

theorem witness_AirqSwapRule :
    swapping.cfg.WellFormed ∧ swapping.chanA.dmaDone = true ∧ swapping.chanA.dmaIe = true ∧ swapping.halted = false ∧
    swapping.ring.ready = true ∧ { swapping with ring := ⟨true, false, false, 2#32⟩ }.ring.ready = false ∧
    live.chanA.dmaDone = false ∧ fresh.chanA.dmaIe = false := by decide

theorem witness_SwapRunsOncePerCompletion :
    swapping.halted = false ∧ swapping.irqReq .A = true ∧ seen (exec .airqSwap swapping) (fun _ => ()) = some () ∧
    seen (exec .queueSamples (args 0x2000#32 1#32 swapping)) (fun t => decide (swapping.ring.activeId ≠ t.ring.activeId)) =
      some true := by decide

theorem witness_AudioWordsNeitherLostNorRepeated :
    seen (exec .airqSwap swapping) (fun t => (decide (swapping.ring.activeId ≠ t.ring.activeId), audioCommitted t)) =
      some (true, [0#32, 0#32]) ∧
    seen (exec (.dmaBeat .A) playing) (fun t => decide (playing.ring.activeId = t.ring.activeId)) = some true := by decide

theorem witness_RescaleInRangeAndMonotone : cfgT.WellFormed ∧ 2 < cfgT.outH ∧ 2 < cfgT.outW ∧ srow cfgT 2 = 1 ∧ scol cfgT 2 = 1 := by decide

theorem witness_ColourConversion : (0xA5C3#16).extractLsb' 4 12 = (0xA5C0#16).extractLsb' 4 12 := by decide

theorem witness_SendFrameWaits :
    published.busy .p1 = false ∧ published.halted = false ∧ published.chanV.inited = true ∧
    fresh.chanV.inited = false := by decide

theorem witness_SfTakeRule :
    waiting.video.cphase = .wait ∧ waiting.video.fresh = true ∧ waiting.video.pphase = .idle ∧ waiting.halted = false ∧
    live.video.cphase ≠ .wait ∧ live.video.fresh = false ∧ copying.video.pphase ≠ .idle ∧ stopped.halted = true := by decide

theorem witness_SfBuildRule :
    (building 2#16).video.cphase = .build ∧ (building 2#16).halted = false ∧ 2 < cfgT.outW ∧
    ¬ Within 0x4006#32 (slAddr cfgT false) (2 * cfgT.outW) ∧ starting.video.cphase ≠ .build := by decide

theorem witness_SfStartRule :
    starting.cfg.WellFormed ∧ starting.video.cphase = .start ∧ starting.chanV.dmaBusy = false ∧
    starting.halted = false ∧ sending.video.cphase ≠ .start ∧ sending.chanV.dmaBusy = true := by decide

theorem witness_SfFinishRule :
    draining.video.cphase = .drain ∧ draining.chanV.dmaBusy = false ∧ draining.halted = false ∧
    sending.chanV.dmaBusy = true ∧ starting.video.cphase ≠ .drain := by decide

theorem witness_TakeOpensFrameStream :
    waiting.video.cphase = .wait ∧ waiting.video.fresh = true ∧ waiting.video.pphase = .idle ∧ waiting.halted = false ∧
    seen (exec .sfTake waiting) (fun _ => ()) = some () := by decide

theorem witness_StepKeepsFrameStream :
    KeepsFrame (taking (.event 0x1C1#32) (building 0#16)) ∧ (building 0#16).consuming = true ∧
    FrameStream [] (taking (.event 0x1C1#32) (building 0#16)) ∧
    seen (step (taking (.event 0x1C1#32) (building 0#16))) (fun _ => ()) = some () :=
  ⟨trivial, by decide, by unfold FrameStream; decide, by decide⟩

theorem witness_RenderFrameBeginsCopy :
    live.busy .p0 = false ∧ live.halted = false ∧ live.chanV.inited = true ∧ live.port0.arg0 = 0#32 ∧
    (args 0x3000#32 0#32 live).port0.arg0 ≠ 0#32 ∧ fresh.chanV.inited = false := by decide

theorem witness_RfCopyRule :
    copying.video.pphase = .copy ∧ copying.halted = false ∧ 7 < 2 * cfgT.srcW * cfgT.srcH ∧
    ¬ Within 0x5018#32 (snapAddr cfgT true) (2 * cfgT.srcW * cfgT.srcH) ∧ live.video.pphase ≠ .copy := by decide

theorem witness_RfPublishRule :
    { copying with video := { copying.video with pphase := .publish } }.video.pphase = .publish ∧
    copying.video.pphase ≠ .publish ∧ copying.halted = false := by decide

/-- The consumer reads slot 1 while the producer copies into slot 0. -/
def bothBusy : State :=
  { building 1#16 with video := { (building 1#16).video with wrSlot := false, pphase := .copy } }

theorem bothBusy_videoInv : VideoInv bothBusy :=
  videoInv_of_idle rfl rfl rfl (by decide) (by decide) (by decide) (by decide) (by decide)

theorem witness_NeverReadMidWrite :
    bothBusy.video.cphase = .build ∧
    bothBusy.cfg.WellFormed ∧ bothBusy.mem.wf = true ∧ bothBusy.consuming = true ∧ bothBusy.copying = true ∧
    seen (exec .rfCopy bothBusy) (fun _ => ()) = some () ∧
    Within 0x5017#32 (snapAddr bothBusy.cfg bothBusy.video.consSlot) (snapSize bothBusy.cfg) := by decide

theorem witness_SingleWriterPerField :
    seen (exec .sfTake waiting) (fun t => decide (t.video.consSlot ≠ waiting.video.consSlot ∧ t.video.fresh = false)) =
      some true ∧
    seen (exec .sfFinish draining) (fun t => decide (t.video.pending = false ∧ draining.video.pending = true)) =
      some true ∧
    seen (exec .rfPublish { live with video := { live.video with pphase := .publish, wrSlot := true } })
      (fun t => decide (t.video.pubSlot = true ∧ t.video.fresh = true ∧ t.video.pending = true)) = some true ∧
    seen (exec .renderFrame (args 0x3000#32 0#32 live)) (fun t => (t.video.rfSrc, t.video.wrSlot)) =
      some (0x3000#32, true) := by decide

theorem witness_ProducerNeverWaitsForConsumer :
    ((args 0x3000#32 0#32 sending).halted = false ∧ (args 0x3000#32 0#32 sending).chanV.inited = true ∧
      (args 0x3000#32 0#32 sending).video.pphase = .idle ∧ (args 0x3000#32 0#32 sending).port0.arg0 ≠ 0#32) ∧
    bothBusy.halted = false ∧ bothBusy.video.pphase = .copy ∧
    seen (exec .sfBuild bothBusy) (fun _ => ()) = some () ∧
    seen (exec .renderFrame bothBusy) (fun _ => ()) = some () := by decide

theorem witness_BlockWritesOnlyItsBuffers :
    Sound (building 0#16) ∧ seen (exec .sfBuild (building 0#16)) (fun _ => ()) = some () ∧ ¬ InBuffers cfgT 0x6000#32 := by
  refine ⟨⟨by decide, by decide⟩, by decide, ?_⟩
  rintro ⟨i, h⟩
  revert h; revert i; decide

theorem witness_MemoryIsLittleEndian :
    (Memory.write32 [] 0x1000#32 0x00010001#32).wf = true ∧
    (Memory.write32 [] 0x1000#32 0x00010001#32).read16 0x1000#32 = 1#16 ∧ ¬ Within 0x1004#32 0x1000#32 Width.word.bytes ∧
    3 < Width.word.bytes ∧ ¬ Within 0x1001#32 0x1000#32 Width.byte.bytes := by decide

theorem witness_ResetGivesResetValues :
    playing.cfg.WellFormed ∧ (taking .rst playing).env.sched = [.rst] ∧ Instr.smSilence.isEvent = true := by decide

theorem witness_ResetMeetsInvariants : cfgT.WellFormed ∧ Memory.wf [] = true := by decide

theorem witness_StepKeepsMemoryConfigAndFifos :
    FifoInv live ∧ seen (step (taking (.event 0x090#32) playing)) (fun t => t.fifoA.length) = some 1 :=
  ⟨⟨by decide, by decide⟩, by decide⟩

theorem witness_StepKeepsAudioRing :
    seen (step (taking (.event 0x090#32) playing)) (fun t => t.chanA.dmaCount) = some 2#32 ∧
    seen (step (taking (.event 0x0A0#32) swapping)) (fun t => t.ring.activeId) = some false := by decide

theorem witness_StepKeepsHandoff :
    seen (step (taking (.event 0x190#32) sending)) (fun t => t.chanV.dmaCount) = some 3#32 ∧
    seen (step (taking (.event 0x1C3#32) draining)) (fun t => t.video.cphase) = some .idle := by decide

theorem live_faultInv : FaultInv live := by constructor <;> decide

theorem live_videoInv : VideoInv live := videoInv_of_idle rfl rfl rfl (by decide) (by decide) (by decide) (by decide) (by decide)

theorem witness_StepKeepsUnreachableFaultsClear :
    seen (step (doing .p0 (.write 0x08#8 .word 0x001#32) live)) (fun t => t.faultWord) = some 0x10#32 := by decide

theorem witness_ReachableStatesMeetR75 : Reachable fresh := .reset cfgT [] _ (by decide) (by decide)

theorem witness_QuietBlockHasNoStep :
    QuietA live ∧ fresh.chanA.smEn = false ∧ QuietV live ∧
    QuietV { live with video := { live.video with cphase := .wait } } ∧ QuietA fresh ∧ QuietV fresh := by decide

theorem witness_CoreLoadsAndStores :
    (let s := doing .p1 (.load 0xFFFFFFFE#32 .half) fresh
     s.cfg.WellFormed ∧ s.env.sched = [.core .p1] ∧ s.prog .p1 = [.load 0xFFFFFFFE#32 .half]) ∧
    (let s := doing .p0 (.store 0xFFFFFFFD#32 .word 0xA1B2C3D4#32) fresh
     s.prog .p0 = [.store 0xFFFFFFFD#32 .word 0xA1B2C3D4#32] ∧
      seen (step s) (fun t => t.mem.read 0#32) = some 0xA1#8) := by decide

end Sys2Proof.Tests
end

section
/-! The register map's accesses (10_state R58-R70) as steps of the machine. -/

namespace Sys2Proof.Machine

/-- A step in which core `p`'s next access is not held makes that access, with the turn and the access taken off. -/
theorem step_of_core_access {s : State} {p : Port} {a : Access} {rest : List Turn} {more : List Access}
    (hw : s.cfg.WellFormed) (hs : s.env.sched = .core p :: rest) (hp : s.prog p = a :: more)
    (hh : holds (s.setSched rest) a = false) :
    step s = access p ((s.setSched rest).setProg p more) a := by
  rw [step_of_sched hw hs]
  simp [turn, coreTurn, hp, hh]

theorem accessOk_of_aligned {off : BitVec 8} (h : off.toNat % 4 = 0) : accessOk off .word = true := by
  simp [accessOk, h]

/-- A register reads the block alone, not the outside world. -/
theorem SameBlock.readReg {s t : State} (h : SameBlock s t) (off : BitVec 8) : readReg t off = readReg s off := by
  obtain ⟨e, rfl⟩ := h.exists; rfl

theorem cmdPort_of_other {off : BitVec 8} (h : off ∉ [0x08#8, 0x18#8]) : cmdPort off = none := by
  unfold cmdPort; split
  · exact absurd (by simp) h
  · exact absurd (by simp) h
  · rfl

/-- 10_state R70: a write to a register that is neither `ARG` nor `CMD` is ignored. -/
theorem writeReg_of_not_arg {off : BitVec 8} (h : off ∉ [0x00#8, 0x04#8, 0x10#8, 0x14#8]) (s : State) (v : Word) :
    writeReg s off v = s := by
  unfold writeReg; split
  case h_5 => rfl
  all_goals exact absurd (by simp) h

/-- 10_state R70: a reserved offset reads 0. -/
theorem readReg_of_reserved {off : BitVec 8}
    (h : off ∉ [0x00#8, 0x04#8, 0x08#8, 0x0C#8, 0x10#8, 0x14#8, 0x18#8, 0x1C#8, 0x40#8, 0x44#8, 0x48#8, 0x4C#8, 0x50#8,
      0x60#8, 0x64#8, 0x68#8, 0x6C#8, 0x70#8, 0x80#8, 0x84#8, 0x88#8, 0xA0#8, 0xA4#8, 0xC0#8]) (s : State) :
    readReg s off = 0#32 := by
  unfold readReg; split
  case h_25 => rfl
  all_goals exact absurd (by simp) h

section Step

variable {s : State} {p : Port} {off : BitVec 8} {rest : List Turn} {more : List Access}
  (hw : s.cfg.WellFormed) (hs : s.env.sched = .core p :: rest) (ha : off.toNat % 4 = 0)
include hw hs ha

/-- A 32-bit aligned read returns the register to its core and changes nothing else. -/
theorem step_of_read (hp : s.prog p = .read off .word :: more) :
    step s = .next (((s.setSched rest).setProg p more).giveBack p (readReg s off)) := by
  have hblock := (sameBlock_setSched s rest).trans (sameBlock_setProg (s.setSched rest) p more)
  rw [step_of_core_access hw hs hp rfl, ← hblock.readReg off]
  simp [access, accessOk_of_aligned ha]

/-- A 32-bit aligned write to an offset other than a `CMD` register's is `writeReg` of it. -/
theorem step_of_write {v : Word} (hp : s.prog p = .write off .word v :: more) (hc : off ∉ [0x08#8, 0x18#8]) :
    step s = .next (writeReg ((s.setSched rest).setProg p more) off v) := by
  have hport := cmdPort_of_other hc
  rw [step_of_core_access hw hs hp (by simp [holds, hport])]
  simp [access, accessOk_of_aligned ha, hport]

end Step

/-- Settles O12: each access is one step of `step_of_read` or `step_of_write`, and the register map has one row an
offset. -/
theorem registerAccessRules : Obligations.RegisterAccessRules := by
  intro s p off rest more hw hs ha u
  refine ⟨step_of_read hw hs ha, fun v hp => ?_, rfl, rfl, rfl, rfl, fun hres => readReg_of_reserved hres s⟩
  have hwrite : off ∉ [0x08#8, 0x18#8] → step s = .next (writeReg u off v) := step_of_write hw hs ha hp
  refine ⟨?arg00, ?arg10, ?arg01, ?arg11, fun hro => ?ignored⟩
  case ignored =>
    simp only [List.mem_cons, List.not_mem_nil, or_false, not_or] at hro
    obtain ⟨h00, h04, h08, h10, h14, h18⟩ := hro
    rw [hwrite (by simp [h08, h18]), writeReg_of_not_arg (by simp [h00, h04, h10, h14])]
  all_goals
    rintro rfl
    simpa [writeReg, u] using hwrite (by decide)

end Sys2Proof.Machine
end

section
/-! `FAULT` (10_state R69): its bits, and that the recorded codes only grow between resets. -/

namespace Sys2Proof.Machine

/-- The fault flags of `t` are those of `s`, or those of `s` with one fault taken (60_exceptions R331). -/
def FaultsGrow (s t : State) : Prop :=
  (t.faults = s.faults ∧ t.halted = s.halted) ∨
  ∃ f, t.faults = (s.raise f).faults ∧ t.halted = (s.raise f).halted

theorem FaultsGrow.of_raise (s : State) (f : Fault) : FaultsGrow s (s.raise f) := .inr ⟨f, rfl, rfl⟩

theorem FaultsGrow.of_eq {s t : State} (hf : t.faults = s.faults) (hh : t.halted = s.halted) : FaultsGrow s t :=
  .inl ⟨hf, hh⟩

/-- What the outside world holds does not count. -/
theorem FaultsGrow.of_sameBlock {s s0 t : State} (h : FaultsGrow s0 t) (h0 : SameBlock s s0) : FaultsGrow s t := by
  obtain ⟨e, rfl⟩ := h0.exists; exact h

/-- A start changes its channel's enable bit, generator and pins alone. -/
theorem startChan_fields (ch : Channel) (s : State) :
    ∃ a b c, startChan ch s =
      { s with tgA := a, tgV := b, pins := c }.setChan ch { s.chan ch with smEn := true } := by
  unfold startChan; split
  · rename_i hen
    refine ⟨s.tgA, s.tgV, s.pins, ?_⟩
    rw [← hen]; cases ch <;> rfl
  · cases ch <;> exact ⟨_, _, _, rfl⟩

/-- A restart that raises no fault found an idle engine, swaps the buffers and sets the audio channel alone. -/
theorem swapAndStart_ok {s t : State} (h : swapAndStart s = .ok t) :
    s.chanA.dmaBusy = false ∧ t = (swapRing s).setChan .A { s.chanA with
      dmaAddr := abufAddr s.cfg s.ring.fillId, dmaCount := s.ring.xferLen,
      dmaDone := decide (s.ring.xferLen = 0#32), dmaBusy := decide (s.ring.xferLen ≠ 0#32) } := by
  obtain ⟨hb, -, ht⟩ := dmaStart_ok h
  exact ⟨hb, ht⟩

/-- An instruction takes at most one fault. -/
theorem exec_faultsGrow {i : Instr} {s t : State} (h : exec i s = .next t) : FaultsGrow s t := by
  replace h := exec_cases h
  cases h with
  | same _ h => subst h; exact .of_eq rfl rfl
  | refused _ f _ h => subst h; exact .of_raise s f
  | queueFault _ _ _ f _ h => subst h; exact .of_raise s f
  | airqFault _ _ f _ h => subst h; exact .of_raise s f
  | start ch _ _ h =>
    obtain ⟨a, b, c, hst⟩ := startChan_fields ch s
    rw [h, hst]; exact .of_eq (by simp) (by simp)
  | stop ch _ _ h => subst h; exact .of_eq (by simp [stopChan]) (by simp [stopChan])
  | beat ch _ h => subst h; cases ch <;> exact .of_eq rfl rfl
  | queueIdle _ _ _ _ _ h => rw [(swapAndStart_ok h).2]; exact .of_eq rfl rfl
  | airqRestart _ _ _ h => rw [(swapAndStart_ok h).2]; exact .of_eq rfl rfl
  | sfStart _ _ _ h => obtain ⟨-, -, rfl⟩ := dmaStart_ok h; exact .of_eq rfl rfl
  | initA _ _ h | initV _ _ h | queueBusy _ _ _ _ _ h | bufferReady _ _ h | render _ _ _ h | send _ _ h
  | emitA _ _ _ _ _ h | emitV _ _ _ _ _ h | silence _ _ _ h | airqIdle _ _ _ h | copy _ _ h | publish _ _ h
  | take _ _ _ _ h | build _ _ h | finish _ _ _ h => subst h; exact .of_eq rfl rfl

/-- No step but a reset does more to the fault flags than to take one fault. -/
theorem step_faultsGrow {s t : State} (h : step s = .next t) (hr : nextTurn s ≠ .rst) : FaultsGrow s t := by
  cases (step_cases h).2 with
  | idle h => obtain ⟨e, rfl⟩ := h.exists; exact .of_eq rfl rfl
  | raised f _ h => obtain ⟨e, rfl⟩ := h.exists; exact .of_raise s f
  | ran i s0 h0 _ h => exact (exec_faultsGrow h).of_sameBlock h0
  | wrote s0 h0 off v h =>
    obtain ⟨e, rfl⟩ := h0.exists
    obtain ⟨p0, p1, hw⟩ := writeReg_fields { s with env := e } off v
    rw [h, hw]; exact .of_eq rfl rfl
  | stored s0 h0 _ _ _ _ _ _ _ h => obtain ⟨e, rfl⟩ := h0.exists; subst h; exact .of_eq rfl rfl
  | clocked s0 h0 _ h =>
    obtain ⟨e, rfl⟩ := h0.exists
    obtain ⟨a, b, c, d, e', f, g, hc, -, -⟩ := clkEdge_fields { s with env := e }
    rw [h, hc]; exact .of_eq rfl rfl
  | reset e ht => exact absurd ht hr

/-- 10_state R69: code `n` stands in bit `n` for 1 to 9, `halted` in bit 31, and every other bit is 0. -/
theorem getLsbD_faultWord (s : State) (n : Nat) : s.faultWord.getLsbD n =
    if 1 ≤ n ∧ n ≤ 9 then s.faults.getLsbD n else if n = 31 then s.halted else false := by
  simp only [State.faultWord, BitVec.getLsbD_append, BitVec.getLsbD_extractLsb', BitVec.getLsbD_zero,
    BitVec.getLsbD_ofBool]
  by_cases hcode : 1 ≤ n ∧ n ≤ 9
  · have hbit : 1 + (n - 1) = n := by omega
    simp [hcode, hbit, show n ≠ 0 by omega, show n - 1 < 9 by omega]
  · by_cases h31 : n = 31
    · simp [h31]
    · have hlow : n < 1 ∨ ¬ n - 1 < 9 := by omega
      have hhigh : n < 1 ∨ n - 1 - 9 < 21 ∨ n - 1 - 9 - 21 ≠ 0 := by omega
      split_ifs <;> simp_all

/-- Taking a fault clears no bit of `FAULT`. -/
theorem FaultsGrow.faultWord {s t : State} (h : FaultsGrow s t) {n : Nat} (hn : s.faultWord.getLsbD n = true) :
    t.faultWord.getLsbD n = true := by
  rw [getLsbD_faultWord] at hn ⊢
  rcases h with ⟨hf, hh⟩ | ⟨f, hf, hh⟩
  · rwa [hf, hh]
  · rw [hf, hh]
    split_ifs at hn ⊢ <;> simp [hn]

/-- 10_state R71: nothing is recorded after a reset. -/
theorem faultWord_resetIn (c : Config) (m : Memory) (e : Env) : (State.resetIn c m e).faultWord = 0#32 := by
  simp [State.faultWord, State.resetIn]

/-- A step whose turn is a reset gives the reset state. -/
theorem step_of_rst {s t : State} (h : step s = .next t) (hr : nextTurn s = .rst) :
    ∃ e, t = State.resetIn s.cfg s.mem e := by
  have hwf := (step_cases h).1
  obtain ⟨e, he⟩ := (sameBlock_afterTurn s).exists
  rw [step, if_pos hwf, hr, he] at h
  cases h; exact ⟨e, rfl⟩

/-- Settles O13: the word's bits are `getLsbD_faultWord`'s, and between resets a step takes at most one fault. -/
theorem faultRegisterIsSticky : Obligations.FaultRegisterIsSticky := by
  refine ⟨getLsbD_faultWord, fun s t h hr n hn => (step_faultsGrow h hr).faultWord hn, fun s t h hr => ?_⟩
  obtain ⟨e, rfl⟩ := step_of_rst h hr
  exact faultWord_resetIn s.cfg s.mem e

end Sys2Proof.Machine
end

section
/-! What a step does to the two pipelines when it runs no instruction and is no reset. -/

namespace Sys2Proof.Machine

/-- What the invariants of 10_state R75 speak of stands: both channels, the ring and the handoff are as they were, the
FIFOs grew no longer, and memory in canonical form stayed so. -/
structure PipelinesStand (s t : State) : Prop where
  cfg : t.cfg = s.cfg
  chanA : t.chanA = s.chanA
  chanV : t.chanV = s.chanV
  ring : t.ring = s.ring
  video : t.video = s.video
  fifoA : t.fifoA.length ≤ s.fifoA.length
  fifoV : t.fifoV.length ≤ s.fifoV.length
  memory : s.mem.wf = true → t.mem.wf = true

theorem PipelinesStand.trans {s t u : State} (h : PipelinesStand s t) (h' : PipelinesStand t u) : PipelinesStand s u :=
  ⟨h'.cfg.trans h.cfg, h'.chanA.trans h.chanA, h'.chanV.trans h.chanV, h'.ring.trans h.ring, h'.video.trans h.video,
    h'.fifoA.trans h.fifoA, h'.fifoV.trans h.fifoV, h'.memory ∘ h.memory⟩

theorem SameBlock.pipelinesStand {s t : State} (h : SameBlock s t) : PipelinesStand s t := by
  obtain ⟨e, rfl⟩ := h.exists; exact ⟨rfl, rfl, rfl, rfl, rfl, le_rfl, le_rfl, id⟩

theorem pipelinesStand_raise (s : State) (f : Fault) : PipelinesStand s (s.raise f) :=
  ⟨rfl, rfl, rfl, rfl, rfl, le_rfl, le_rfl, id⟩

theorem pipelinesStand_writeReg (s : State) (off : BitVec 8) (v : Word) : PipelinesStand s (writeReg s off v) := by
  obtain ⟨p0, p1, h⟩ := writeReg_fields s off v
  rw [h]; exact ⟨rfl, rfl, rfl, rfl, rfl, le_rfl, le_rfl, id⟩

theorem pipelinesStand_store (s : State) (a : Word) (w : Width) (v : Word) :
    PipelinesStand s { s with mem := s.mem.writeWidth a w v } :=
  ⟨rfl, rfl, rfl, rfl, rfl, le_rfl, le_rfl, fun hm => Memory.wf_writeBytes hm a⟩

/-- A FIFO that kept its entries or lost the oldest is no longer than it was. -/
theorem length_le_of_popped {α : Type} {l l' : List α} (h : l' = l ∨ ∃ x, l = x :: l') : l'.length ≤ l.length := by
  obtain rfl | ⟨x, rfl⟩ := h <;> simp

theorem pipelinesStand_clkEdge (s : State) : PipelinesStand s (clkEdge s) := by
  obtain ⟨a, b, c, d, e, f, g, h, ha, hd⟩ := clkEdge_fields s
  rw [h]; exact ⟨rfl, rfl, rfl, rfl, rfl, length_le_of_popped ha, length_le_of_popped hd, id⟩

/-- A step runs an instruction, resets the block, or lets both pipelines stand. -/
theorem step_exec_or_reset_or_stand {s t : State} (h : step s = .next t) :
    (∃ i s0, PipelinesStand s s0 ∧ exec i s0 = .next t) ∨ (∃ e, t = State.resetIn s.cfg s.mem e) ∨
    PipelinesStand s t := by
  cases (step_cases h).2 with
  | ran i s0 h0 _ h => exact .inl ⟨i, s0, h0.pipelinesStand, h⟩
  | reset e _ h => exact .inr (.inl ⟨e, h⟩)
  | idle h => exact .inr (.inr h.pipelinesStand)
  | raised f _ h => exact .inr (.inr ((pipelinesStand_raise s f).trans h.pipelinesStand))
  | wrote s0 h0 off v h => exact h ▸ .inr (.inr (h0.pipelinesStand.trans (pipelinesStand_writeReg s0 off v)))
  | stored s0 h0 _ a w v _ _ _ h => exact h ▸ .inr (.inr (h0.pipelinesStand.trans (pipelinesStand_store s0 a w v)))
  | clocked s0 h0 _ h => exact h ▸ .inr (.inr (h0.pipelinesStand.trans (pipelinesStand_clkEdge s0)))

end Sys2Proof.Machine
end

section
/-! The invariants `Sound` and `FifoInv`: the configuration (00_scope R9), canonical memory, 10_state R75 (iii). -/

namespace Sys2Proof.Safety

open Sys2Proof.Machine

/-- No instruction changes the configuration (00_scope R9), and memory stays in canonical form. -/
theorem exec_keeps_cfg_and_memory {i : Instr} {s t : State} (hm : s.mem.wf = true) (h : exec i s = .next t) :
    t.cfg = s.cfg ∧ t.mem.wf = true := by
  replace h := exec_cases h
  cases h with
  | same _ h | refused _ _ _ h | queueFault _ _ _ _ _ h | airqFault _ _ _ _ h | bufferReady _ _ h | render _ _ _ h
  | send _ _ h | emitA _ _ _ _ _ h | emitV _ _ _ _ _ h | silence _ _ _ h | airqIdle _ _ _ h | publish _ _ h
  | take _ _ _ _ h | finish _ _ _ h => subst h; exact ⟨rfl, hm⟩
  | initA _ _ h => subst h; exact ⟨rfl, Memory.wf_zero (Memory.wf_zero hm _ _) _ _⟩
  | initV _ _ h =>
    subst h
    exact ⟨rfl, Memory.wf_zero (Memory.wf_zero (Memory.wf_zero (Memory.wf_zero hm _ _) _ _) _ _) _ _⟩
  | queueBusy _ _ _ _ _ h | copy _ _ h | build _ _ h => subst h; exact ⟨rfl, Memory.wf_writeBytes hm _⟩
  | queueIdle _ _ _ _ _ h => rw [(swapAndStart_ok h).2]; exact ⟨rfl, Memory.wf_writeBytes hm _⟩
  | airqRestart _ _ _ h => rw [(swapAndStart_ok h).2]; exact ⟨rfl, hm⟩
  | sfStart _ _ _ h => obtain ⟨-, -, rfl⟩ := dmaStart_ok h; exact ⟨rfl, hm⟩
  | beat ch _ h => subst h; cases ch <;> exact ⟨rfl, hm⟩
  | stop ch _ _ h => subst h; cases ch <;> exact ⟨rfl, hm⟩
  | start ch _ _ h =>
    obtain ⟨a, b, c, hst⟩ := startChan_fields ch s
    rw [h, hst]; simp [hm]

/-- No step changes the configuration (00_scope R9), and memory stays in canonical form. -/
theorem step_keeps_cfg_and_memory {s t : State} (hm : s.mem.wf = true) (h : step s = .next t) :
    t.cfg = s.cfg ∧ t.mem.wf = true := by
  rcases step_exec_or_reset_or_stand h with ⟨i, s0, h0, h⟩ | ⟨e, rfl⟩ | h
  · obtain ⟨hc, hm'⟩ := exec_keeps_cfg_and_memory (h0.memory hm) h
    exact ⟨hc.trans h0.cfg, hm'⟩
  · exact ⟨rfl, hm⟩
  · exact ⟨h.cfg, h.memory hm⟩

theorem step_keeps_sound {s t : State} (hs : Sound s) (h : step s = .next t) : Sound t := by
  obtain ⟨hc, hm⟩ := step_keeps_cfg_and_memory hs.memory h
  exact ⟨hc ▸ hs.config, hm⟩

theorem fifoInv_resetIn (c : Config) (m : Memory) (e : Env) : FifoInv (State.resetIn c m e) :=
  ⟨Nat.zero_le _, Nat.zero_le _⟩

theorem FifoInv.of_length_le {s t : State} (hi : FifoInv s) (hc : t.cfg = s.cfg)
    (ha : t.fifoA.length ≤ s.fifoA.length) (hv : t.fifoV.length ≤ s.fifoV.length) : FifoInv t :=
  ⟨ha.trans (hc ▸ hi.audio), hv.trans (hc ▸ hi.video)⟩

theorem FifoInv.of_stand {s t : State} (hi : FifoInv s) (h : PipelinesStand s t) : FifoInv t :=
  hi.of_length_le h.cfg h.fifoA h.fifoV

/-- A beat pushes one element, and only into a FIFO with space (42_dma R193). -/
theorem beat_keeps_fifoInv {ch : Channel} {s : State} (hi : FifoInv s) (he : beatEnabled ch s = true) :
    FifoInv ((pushElement ch s).setChan ch ((s.chan ch).afterBeat (esz ch))) := by
  simp only [beatEnabled, Bool.and_eq_true, decide_eq_true_eq] at he
  obtain ⟨⟨-, hspace⟩, -⟩ := he
  cases ch
  · exact ⟨by simpa [pushElement, State.fifoLen] using hspace, hi.video⟩
  · exact ⟨hi.audio, by simpa [pushElement, State.fifoLen] using hspace⟩

/-- No instruction overfills a FIFO (10_state R75 (iii)). -/
theorem exec_keeps_fifoInv {i : Instr} {s t : State} (hi : FifoInv s) (h : exec i s = .next t) : FifoInv t := by
  replace h := exec_cases h
  cases h with
  | same _ h | refused _ _ _ h | queueFault _ _ _ _ _ h | airqFault _ _ _ _ h | bufferReady _ _ h | render _ _ _ h
  | send _ _ h | silence _ _ _ h | airqIdle _ _ _ h | publish _ _ h | take _ _ _ _ h | finish _ _ _ h
  | queueBusy _ _ _ _ _ h | copy _ _ h | build _ _ h => subst h; exact hi.of_length_le rfl le_rfl le_rfl
  | queueIdle _ _ _ _ _ h => rw [(swapAndStart_ok h).2]; exact hi.of_length_le rfl le_rfl le_rfl
  | airqRestart _ _ _ h => rw [(swapAndStart_ok h).2]; exact hi.of_length_le rfl le_rfl le_rfl
  | sfStart _ _ _ h => obtain ⟨-, -, rfl⟩ := dmaStart_ok h; exact hi.of_length_le rfl le_rfl le_rfl
  | emitA w _ _ _ hq h => subst h; exact hi.of_length_le rfl (length_le_of_popped (.inr ⟨w, hq⟩)) le_rfl
  | emitV b _ _ _ hq h => subst h; exact hi.of_length_le rfl le_rfl (length_le_of_popped (.inr ⟨b, hq⟩))
  | initA _ _ h => subst h; exact hi.of_length_le rfl (Nat.zero_le _) le_rfl
  | initV _ _ h => subst h; exact hi.of_length_le rfl le_rfl (Nat.zero_le _)
  | stop ch _ _ h =>
    subst h
    cases ch
    · exact hi.of_length_le rfl (Nat.zero_le _) le_rfl
    · exact hi.of_length_le rfl le_rfl (Nat.zero_le _)
  | start ch _ _ h =>
    obtain ⟨a, b, c, hst⟩ := startChan_fields ch s
    rw [h, hst]; exact hi.of_length_le (by simp) (by simp) (by simp)
  | beat ch he h => subst h; exact beat_keeps_fifoInv hi he

theorem step_keeps_fifoInv {s t : State} (hi : FifoInv s) (h : step s = .next t) : FifoInv t := by
  rcases step_exec_or_reset_or_stand h with ⟨i, s0, h0, h⟩ | ⟨e, rfl⟩ | h
  · exact exec_keeps_fifoInv (hi.of_stand h0) h
  · exact fifoInv_resetIn _ _ e
  · exact hi.of_stand h

end Sys2Proof.Safety
end

section
/-! One beat of a channel in flight (42_dma R193), for both channels. -/

namespace Sys2Proof.Machine

/-- A beat runs only while a transfer is in flight. -/
theorem busy_of_beatEnabled {ch : Channel} {s : State} (h : beatEnabled ch s = true) : (s.chan ch).dmaBusy = true := by
  simp only [beatEnabled, Bool.and_eq_true] at h
  exact h.1.1

/-- A transfer still in flight after a beat was in flight before it and has elements left. -/
theorem Chan.afterBeat_busy {c : Chan} {n : Nat} (h : (c.afterBeat n).dmaBusy = true) :
    c.dmaBusy = true ∧ (c.afterBeat n).dmaCount ≠ 0#32 := by
  simpa [Chan.afterBeat] using h

/-- The beat that completes the transfer ends it. -/
theorem Chan.afterBeat_done {c : Chan} {n : Nat} (hb : c.dmaBusy = true) (hi : c.dmaDone = true → c.dmaBusy = false)
    (h : (c.afterBeat n).dmaDone = true) :
    (c.afterBeat n).dmaBusy = false := by
  have hd : c.dmaDone = false := by
    by_contra hd; simp [hi (by simpa using hd)] at hb
  have hzero : c.dmaCount - 1#32 = 0#32 := by simpa [Chan.afterBeat, hd] using h
  simp [Chan.afterBeat, hzero]

theorem Chan.afterBeat_count {c : Chan} (n : Nat) (h : c.dmaCount ≠ 0#32) :
    (c.afterBeat n).dmaCount.toNat + 1 = c.dmaCount.toNat := by
  have hpos : c.dmaCount.toNat ≠ 0 := fun h' => h (BitVec.eq_of_toNat_eq h')
  have hlt := c.dmaCount.isLt
  simp only [Chan.afterBeat, BitVec.toNat_sub, BitVec.toNat_ofNat]
  omega

theorem Chan.afterBeat_addr {c : Chan} {n : Nat} (h : c.dmaAddr.toNat + n < 2 ^ 32) :
    (c.afterBeat n).dmaAddr.toNat = c.dmaAddr.toNat + n := by
  simp only [Chan.afterBeat, BitVec.toNat_add, BitVec.toNat_ofNat]
  omega

end Sys2Proof.Machine
end

section
/-! The audio ring's invariant `AudioInv`: 10_state R75 (i), (ii), (iv). -/

namespace Sys2Proof.Safety

open Sys2Proof.Machine

theorem audioInv_resetIn (c : Config) (m : Memory) (e : Env) : AudioInv (State.resetIn c m e) :=
  ⟨rfl, nofun, Nat.zero_le _, nofun, rfl, nofun, nofun⟩

/-- The invariant speaks of the configuration, the ring and all of the channel but its enable bit. -/
theorem AudioInv.frame {s t : State} {b : Bool} (hi : AudioInv s) (hc : t.cfg = s.cfg) (hr : t.ring = s.ring)
    (ha : t.chanA = { s.chanA with smEn := b }) : AudioInv t := by
  obtain ⟨ids, doneIdle, lenBound, readyLen, enable, busyCount, readsActive⟩ := hi
  constructor <;> simp only [hc, hr, ha] <;> assumption

theorem AudioInv.of_stand {s t : State} (hi : AudioInv s) (h : PipelinesStand s t) : AudioInv t :=
  hi.frame h.cfg h.ring h.chanA

/-- An idle channel meets the clauses on a transfer: what is left to show is the ring's and the enable bit. -/
theorem AudioInv.of_idle {s : State} (hb : s.chanA.dmaBusy = false) (ids : s.ring.fillId = !s.ring.activeId)
    (lenBound : s.ring.xferLen.toNat ≤ s.cfg.audCap) (readyLen : s.ring.ready = true → s.ring.xferLen ≠ 0#32)
    (enable : s.chanA.dmaIe = s.chanA.inited) : AudioInv s :=
  ⟨ids, fun _ => hb, lenBound, readyLen, enable, fun h => by simp [hb] at h, fun h => by simp [hb] at h⟩

theorem initA_audioInv (s : State) : AudioInv (initA s) :=
  .of_idle rfl rfl (Nat.zero_le _) nofun rfl

theorem stopChan_A_keeps_audioInv {s : State} (hi : AudioInv s) : AudioInv (stopChan .A s) :=
  .of_idle rfl hi.ids hi.lenBound hi.readyLen hi.enable

theorem dmaAck_A_keeps_audioInv {s : State} (hi : AudioInv s) : AudioInv (dmaAck .A s) :=
  ⟨hi.ids, fun h => absurd h (by simp [dmaAck]), hi.lenBound, hi.readyLen, hi.enable, hi.busyCount, hi.readsActive⟩

/-- The accepted count fits a word: a Sample Buffer lies within the address space. -/
theorem toNat_ofNat_accepted {c : Config} (hc : c.WellFormed) (count : Word) :
    (BitVec.ofNat 32 (accepted c count)).toNat = accepted c count := by
  have := hc.audCap_lt
  rw [BitVec.toNat_ofNat, Nat.mod_eq_of_lt]
  unfold accepted; omega

/-- A filled buffer holds at least one word and no more than its capacity (43_audio_ring R222, R223). -/
theorem fillBuffer_keeps_audioInv {s : State} (hw : s.cfg.WellFormed) (hi : AudioInv s) (hn : s.port0.arg1 ≠ 0#32) :
    AudioInv (fillBuffer s) := by
  have hlen : (fillBuffer s).ring.xferLen.toNat = min s.port0.arg1.toNat s.cfg.audCap :=
    toNat_ofNat_accepted hw s.port0.arg1
  have hcap := hw.audCap_pos
  have hcount : s.port0.arg1.toNat ≠ 0 := fun h => hn (BitVec.eq_of_toNat_eq h)
  refine ⟨hi.ids, hi.doneIdle, hlen ▸ min_le_right _ _, fun _ hzero => ?_, hi.enable, hi.busyCount, hi.readsActive⟩
  rw [hzero, BitVec.toNat_ofNat] at hlen
  omega

/-- A restart on a filled buffer begins a transfer at the start of the buffer swapped in (43_audio_ring R223, R231). -/
theorem swapAndStart_keeps_audioInv {s t : State} (hi : AudioInv s) (hr : s.ring.ready = true)
    (h : swapAndStart s = .ok t) : AudioInv t := by
  obtain ⟨-, rfl⟩ := swapAndStart_ok h
  have hlen := hi.readyLen hr
  refine ⟨?ids, fun h => absurd h (by simp [hlen]), hi.lenBound, fun h => absurd h (by simp [swapRing]), hi.enable,
    fun _ => hlen, fun _ => ⟨0, rfl, ?reads⟩⟩
  case ids => simp [swapRing, hi.ids]
  case reads => simpa using hi.lenBound

/-- A beat moves the transfer one word on in its buffer (42_dma R193). -/
theorem beat_A_keeps_audioInv {s : State} (hw : s.cfg.WellFormed) (hi : AudioInv s) (he : beatEnabled .A s = true) :
    AudioInv ((pushElement .A s).setChan .A ((s.chan .A).afterBeat (esz .A))) := by
  have hb : s.chanA.dmaBusy = true := busy_of_beatEnabled he
  have hnext := Chan.afterBeat_count 4 (hi.busyCount hb)
  obtain ⟨k, haddr, hcount⟩ := hi.readsActive hb
  refine ⟨hi.ids, Chan.afterBeat_done hb hi.doneIdle, hi.lenBound, hi.readyLen, hi.enable,
    fun h => (Chan.afterBeat_busy h).2, fun h => ⟨k + 1, ?addr, ?count⟩⟩
  case count =>
    change k + 1 + (s.chanA.afterBeat 4).dmaCount.toNat ≤ s.cfg.audCap
    omega
  case addr =>
    have hin := hw.abuf_inside s.ring.activeId
    have hleft : (s.chanA.afterBeat 4).dmaCount.toNat ≠ 0 := fun h0 =>
      (Chan.afterBeat_busy h).2 (BitVec.eq_of_toNat_eq h0)
    simp only [abufSize] at hin
    change (s.chanA.afterBeat 4).dmaAddr.toNat = (abufAddr s.cfg s.ring.activeId).toNat + 4 * (k + 1)
    rw [Chan.afterBeat_addr (by omega)]
    omega

/-- No instruction breaks the audio ring's invariant. -/
theorem exec_keeps_audioInv {i : Instr} {s t : State} (hw : s.cfg.WellFormed) (hi : AudioInv s)
    (h : exec i s = .next t) : AudioInv t := by
  replace h := exec_cases h
  cases h with
  | same _ h | refused _ _ _ h | queueFault _ _ _ _ _ h | airqFault _ _ _ _ h | initV _ _ h | bufferReady _ _ h
  | render _ _ _ h | send _ _ h | emitA _ _ _ _ _ h | emitV _ _ _ _ _ h | silence _ _ _ h | copy _ _ h
  | publish _ _ h | take _ _ _ _ h | build _ _ h | finish _ _ _ h => subst h; exact hi.frame rfl rfl rfl
  | sfStart _ _ _ h => obtain ⟨-, -, rfl⟩ := dmaStart_ok h; exact hi.frame rfl rfl rfl
  | initA _ _ h => subst h; exact initA_audioInv s
  | start ch _ _ h =>
    obtain ⟨a, b, c, hst⟩ := startChan_fields ch s
    rw [h, hst]
    cases ch <;> exact hi.frame rfl rfl rfl
  | stop ch _ _ h =>
    subst h
    cases ch
    · exact stopChan_A_keeps_audioInv hi
    · exact hi.frame rfl rfl rfl
  | queueBusy _ _ _ hn _ h => subst h; exact fillBuffer_keeps_audioInv hw hi hn
  | queueIdle _ _ _ hn _ h => exact swapAndStart_keeps_audioInv (fillBuffer_keeps_audioInv hw hi hn) rfl h
  | beat ch he h =>
    subst h
    cases ch
    · exact beat_A_keeps_audioInv hw hi he
    · exact hi.frame rfl rfl rfl
  | airqRestart _ _ hr h => exact swapAndStart_keeps_audioInv (dmaAck_A_keeps_audioInv hi) hr h
  | airqIdle _ _ _ h => subst h; exact dmaAck_A_keeps_audioInv hi

theorem step_keeps_audioInv {s t : State} (hs : Sound s) (hi : AudioInv s) (h : step s = .next t) : AudioInv t := by
  rcases step_exec_or_reset_or_stand h with ⟨i, s0, h0, h⟩ | ⟨e, rfl⟩ | h
  · exact exec_keeps_audioInv (h0.cfg ▸ hs.config) (hi.of_stand h0) h
  · exact audioInv_resetIn _ _ e
  · exact hi.of_stand h

end Sys2Proof.Safety
end

section
/-! The invariant of the handoff and the scanline sequencer, `VideoInv`: 10_state R75 (ii), (v)-(vii). -/

namespace Sys2Proof.Safety

open Sys2Proof.Machine

theorem videoInv_resetIn (c : Config) (m : Memory) (e : Env) : VideoInv (State.resetIn c m e) :=
  ⟨fun _ => ⟨rfl, rfl⟩, rfl, nofun, fun _ => rfl, nofun, nofun, nofun, nofun, fun _ => rfl, nofun, nofun⟩

/-- The invariant speaks of the configuration, the video registers and all of the channel but its enable bit. -/
theorem VideoInv.frame {s t : State} {b : Bool} (hi : VideoInv s) (hc : t.cfg = s.cfg) (hv : t.video = s.video)
    (ha : t.chanV = { s.chanV with smEn := b }) : VideoInv t := by
  obtain ⟨uninit, enable, doneIdle, pendingFresh, slots, buildRow, startRow, drainRow, idleFree, busyCount, readsRow⟩ := hi
  constructor <;> simp only [State.consuming, State.copying, hc, hv, ha] <;> assumption

theorem VideoInv.of_stand {s t : State} (hi : VideoInv s) (h : PipelinesStand s t) : VideoInv t :=
  hi.frame h.cfg h.video h.chanV

/-- A consumer in `C_IDLE` or `C_WAIT` reads no frame. -/
theorem consuming_eq_false {s : State} (h : s.video.cphase = .idle ∨ s.video.cphase = .wait) : s.consuming = false := by
  rcases h with h | h <;> simp [State.consuming, h]

/-- The sequencers are idle until INIT V (40_channel_control R142), which then clears the flags and slots. -/
theorem initV_keeps_videoInv {s : State} (hi : VideoInv s) (hn : s.chanV.inited = false) : VideoInv (initV s) := by
  obtain ⟨hp, hc⟩ := hi.uninit hn
  constructor
  case uninit => exact nofun
  case enable => rfl
  case doneIdle => exact nofun
  case pendingFresh => exact fun _ => rfl
  case slots => exact fun hcopy => absurd hp (of_decide_eq_true hcopy)
  case buildRow => exact fun h => nomatch hc.symm.trans h
  case startRow => exact fun h => nomatch hc.symm.trans h
  case drainRow => exact fun h => nomatch hc.symm.trans h
  case idleFree => exact fun _ => rfl
  case busyCount => exact nofun
  case readsRow => exact nofun

theorem stopChan_V_keeps_videoInv {s : State} (hi : VideoInv s) : VideoInv (stopChan .V s) where
  uninit := hi.uninit
  enable := hi.enable
  doneIdle := nofun
  pendingFresh := hi.pendingFresh
  slots := hi.slots
  buildRow := hi.buildRow
  startRow := hi.startRow
  drainRow := hi.drainRow
  idleFree _ := rfl
  busyCount := nofun
  readsRow := nofun

/-- RENDER_FRAME writes the slot the consumer is not reading (45_frame_handoff R301). -/
theorem render_keeps_videoInv {s : State} (hi : VideoInv s) (hn : s.chanV.inited = true) :
    VideoInv { s with video := { s.video with
      rfSrc := s.port0.arg0, wrSlot := !s.video.consSlot, pphase := .copy } } where
  uninit h := absurd hn (by simp [show s.chanV.inited = false from h])
  enable := hi.enable
  doneIdle := hi.doneIdle
  pendingFresh := hi.pendingFresh
  slots _ _ := by simp
  buildRow := hi.buildRow
  startRow := hi.startRow
  drainRow := hi.drainRow
  idleFree := hi.idleFree
  busyCount := hi.busyCount
  readsRow := hi.readsRow

/-- SEND_FRAME on a free port leaves the consumer reading no frame (44_display_pipeline R270). -/
theorem send_keeps_videoInv {s : State} (hi : VideoInv s) (hn : s.chanV.inited = true) (hfree : s.busy .p1 = false) :
    VideoInv { s with video := { s.video with cphase := .wait } } := by
  have hidle : s.video.cphase = .idle := by simpa [State.busy] using hfree
  have hcons : s.consuming = false := consuming_eq_false (.inl hidle)
  exact {
    uninit := fun h => absurd hn (by simp [show s.chanV.inited = false from h])
    enable := hi.enable
    doneIdle := hi.doneIdle
    pendingFresh := fun _ => hi.pendingFresh hcons
    slots := fun _ => nofun
    buildRow := nofun
    startRow := nofun
    drainRow := nofun
    idleFree := fun _ => hi.idleFree hcons
    busyCount := hi.busyCount
    readsRow := hi.readsRow }

theorem copying_of_ne_idle {s : State} (h : s.video.pphase ≠ .idle) : s.copying = true := decide_eq_true h

theorem copy_keeps_videoInv {s : State} (hi : VideoInv s) (hp : s.video.pphase = .copy) (m : Memory) :
    VideoInv { s with mem := m, video := { s.video with pphase := .publish } } where
  uninit h := absurd (hi.uninit h).1 (by simp [hp])
  enable := hi.enable
  doneIdle := hi.doneIdle
  pendingFresh := hi.pendingFresh
  slots _ := hi.slots (copying_of_ne_idle (by simp [hp]))
  buildRow := hi.buildRow
  startRow := hi.startRow
  drainRow := hi.drainRow
  idleFree := hi.idleFree
  busyCount := hi.busyCount
  readsRow := hi.readsRow

theorem publish_keeps_videoInv {s : State} (hi : VideoInv s) :
    VideoInv { s with video := { s.video with
      pubSlot := s.video.wrSlot, fresh := true, pending := true, pphase := .idle } } where
  uninit h := ⟨rfl, (hi.uninit h).2⟩
  enable := hi.enable
  doneIdle := hi.doneIdle
  pendingFresh _ := rfl
  slots := nofun
  buildRow := hi.buildRow
  startRow := hi.startRow
  drainRow := hi.drainRow
  idleFree := hi.idleFree
  busyCount := hi.busyCount
  readsRow := hi.readsRow

/-- SF_TAKE opens a frame at row 0 with the engine idle and no copy in progress (44_display_pipeline R272). -/
theorem take_keeps_videoInv {s : State} (hw : s.cfg.WellFormed) (hi : VideoInv s) (hc : s.video.cphase = .wait)
    (hp : s.video.pphase = .idle) :
    VideoInv { s with video := { s.video with
      consSlot := s.video.pubSlot, fresh := false, brow := 0, trow := 0, cphase := .build } } := by
  have hfree : s.chanV.dmaBusy = false := hi.idleFree (consuming_eq_false (.inr hc))
  exact {
    uninit := fun h => absurd (hi.uninit h).2 (by simp [hc])
    enable := hi.enable
    doneIdle := hi.doneIdle
    pendingFresh := nofun
    slots := fun h => absurd hp (of_decide_eq_true h)
    buildRow := fun _ => ⟨rfl, hw.outH_pos.1⟩
    startRow := nofun
    drainRow := nofun
    idleFree := nofun
    busyCount := hi.busyCount
    readsRow := fun h => absurd hfree (by simp [show s.chanV.dmaBusy = true from h]) }

/-- SF_BUILD leaves the row it built ready to start (44_display_pipeline R273). -/
theorem build_keeps_videoInv {s : State} (hw : s.cfg.WellFormed) (hi : VideoInv s) (hc : s.video.cphase = .build)
    (m : Memory) :
    VideoInv { s with mem := m, video := { s.video with brow := s.video.brow + 1#16, cphase := .start } } := by
  obtain ⟨hrow, hlt⟩ := hi.buildRow hc
  have hcons : s.consuming = true := by simp [State.consuming, hc]
  have hmax := hw.outH_pos.2
  have hsucc : (s.video.brow + 1#16).toNat = s.video.brow.toNat + 1 := by
    simp only [BitVec.toNat_add, BitVec.toNat_ofNat]; omega
  exact {
    uninit := fun h => absurd (hi.uninit h).2 (by simp [hc])
    enable := hi.enable
    doneIdle := hi.doneIdle
    pendingFresh := nofun
    slots := fun h _ => hi.slots h hcons
    buildRow := nofun
    startRow := fun _ => ⟨hrow ▸ hsucc, hsucc ▸ hlt⟩
    drainRow := nofun
    idleFree := nofun
    busyCount := hi.busyCount
    readsRow := hi.readsRow }

/-- One output row fills its Scanline Buffer, and its size in bytes fits a word (10_state R42). -/
theorem toNat_ofNat_slSize {c : Config} (hw : c.WellFormed) : (BitVec.ofNat 32 (slSize c)).toNat = slSize c := by
  have := hw.outW_pos
  simp only [slSize, BitVec.toNat_ofNat]; omega

theorem ofNat_slSize_ne_zero {c : Config} (hw : c.WellFormed) : BitVec.ofNat 32 (slSize c) ≠ 0#32 := fun h => by
  have hsize := toNat_ofNat_slSize hw
  have := hw.outW_pos
  rw [h] at hsize
  simp only [slSize, BitVec.toNat_ofNat] at hsize; omega

/-- SF_START begins the transfer of the row just built, and builds the next row or drains (44_display_pipeline R274). -/
theorem sfStart_keeps_videoInv {s t : State} (hw : s.cfg.WellFormed) (hi : VideoInv s) (hc : s.video.cphase = .start)
    (h : dmaStart .V (slAddr s.cfg (rowParity s.video.trow)) (BitVec.ofNat 32 (slSize s.cfg))
        { s with video := { s.video with
          trow := s.video.trow + 1#16
          cphase := if s.video.brow.toNat < s.cfg.outH then .build else .drain } } = .ok t) : VideoInv t := by
  obtain ⟨-, -, rfl⟩ := dmaStart_ok h
  obtain ⟨hrow, hle⟩ := hi.startRow hc
  have hcons : s.consuming = true := by simp [State.consuming, hc]
  have hsize := toNat_ofNat_slSize hw
  have hcount := ofNat_slSize_ne_zero hw
  have hnext : s.video.trow + 1#16 = s.video.brow := by
    apply BitVec.eq_of_toNat_eq
    have := s.video.brow.isLt
    simp only [BitVec.toNat_add, BitVec.toNat_ofNat]; omega
  generalize hphase : (if s.video.brow.toNat < s.cfg.outH then CPhase.build else .drain) = phase
  have hcases : phase = .build ∧ s.video.brow.toNat < s.cfg.outH ∨
      phase = .drain ∧ s.video.brow.toNat = s.cfg.outH := by
    split at hphase
    · exact .inl ⟨hphase.symm, ‹_›⟩
    · exact .inr ⟨hphase.symm, by omega⟩
  rw [hnext]
  refine {
    uninit := fun h => absurd (hi.uninit h).2 (by simp [hc])
    enable := hi.enable
    doneIdle := fun h => absurd (of_decide_eq_true h) hcount
    pendingFresh := ?pendingFresh
    slots := fun h _ => hi.slots h hcons
    buildRow := ?buildRow
    startRow := ?startRow
    drainRow := ?drainRow
    idleFree := ?idleFree
    busyCount := fun _ => hcount
    readsRow := fun _ => ⟨?row, 0, ?addr, ?count⟩ }
  case row => change 1 ≤ s.video.brow.toNat; omega
  case addr =>
    change (slAddr s.cfg (rowParity s.video.trow)).toNat =
      (slAddr s.cfg (rowParity (s.video.brow - 1#16))).toNat + 0
    rw [← hnext, BitVec.add_sub_cancel, Nat.add_zero]
  case count => exact (Nat.zero_add _).trans hsize
  all_goals rcases hcases with ⟨rfl, hlt⟩ | ⟨rfl, heq⟩
  case buildRow.inl => exact fun _ => ⟨rfl, hlt⟩
  case drainRow.inr => exact fun _ => ⟨rfl, heq⟩
  all_goals exact nofun

/-- SF_FINISH closes the frame with the engine idle (44_display_pipeline R275). -/
theorem finish_keeps_videoInv {s : State} (hi : VideoInv s)
    (hb : s.chanV.dmaBusy = false) :
    VideoInv { s with video := { s.video with pending := s.video.fresh, cphase := .idle } } where
  uninit h := ⟨(hi.uninit h).1, rfl⟩
  enable := hi.enable
  doneIdle := hi.doneIdle
  pendingFresh _ := rfl
  slots _ := nofun
  buildRow := nofun
  startRow := nofun
  drainRow := nofun
  idleFree _ := hb
  busyCount := hi.busyCount
  readsRow := hi.readsRow

/-- A beat moves the transfer one byte on in its row (42_dma R193). -/
theorem beat_V_keeps_videoInv {s : State} (hw : s.cfg.WellFormed) (hi : VideoInv s) (he : beatEnabled .V s = true) :
    VideoInv ((pushElement .V s).setChan .V ((s.chan .V).afterBeat (esz .V))) := by
  have hb : s.chanV.dmaBusy = true := busy_of_beatEnabled he
  have hnext := Chan.afterBeat_count 1 (hi.busyCount hb)
  obtain ⟨hpos, k, haddr, hcount⟩ := hi.readsRow hb
  exact {
    uninit := hi.uninit
    enable := hi.enable
    doneIdle := Chan.afterBeat_done hb hi.doneIdle
    pendingFresh := hi.pendingFresh
    slots := hi.slots
    buildRow := hi.buildRow
    startRow := hi.startRow
    drainRow := hi.drainRow
    idleFree := fun h => absurd (hi.idleFree h) (by simp [hb])
    busyCount := fun h => (Chan.afterBeat_busy h).2
    readsRow := fun h => ⟨hpos, k + 1, by
      have hin := hw.sl_inside (rowParity (s.video.trow - 1#16))
      have hleft : (s.chanV.afterBeat 1).dmaCount.toNat ≠ 0 := fun h0 =>
        (Chan.afterBeat_busy h).2 (BitVec.eq_of_toNat_eq h0)
      change (s.chanV.afterBeat 1).dmaAddr.toNat = (slAddr s.cfg (rowParity (s.video.trow - 1#16))).toNat + (k + 1)
      rw [Chan.afterBeat_addr (by omega)]
      omega, by
      change k + 1 + (s.chanV.afterBeat 1).dmaCount.toNat = slSize s.cfg
      omega⟩ }

/-- No instruction breaks the invariant of the handoff and the sequencer. -/
theorem exec_keeps_videoInv {i : Instr} {s t : State} (hw : s.cfg.WellFormed) (hi : VideoInv s)
    (h : exec i s = .next t) : VideoInv t := by
  replace h := exec_cases h
  cases h with
  | same _ h | refused _ _ _ h | queueFault _ _ _ _ _ h | airqFault _ _ _ _ h | initA _ _ h | bufferReady _ _ h
  | queueBusy _ _ _ _ _ h | emitA _ _ _ _ _ h | emitV _ _ _ _ _ h | silence _ _ _ h | airqIdle _ _ _ h =>
    subst h; exact hi.frame rfl rfl rfl
  | queueIdle _ _ _ _ _ h => rw [(swapAndStart_ok h).2]; exact hi.frame rfl rfl rfl
  | airqRestart _ _ _ h => rw [(swapAndStart_ok h).2]; exact hi.frame rfl rfl rfl
  | initV _ hn h => subst h; exact initV_keeps_videoInv hi hn
  | start ch _ _ h =>
    obtain ⟨a, b, c, hst⟩ := startChan_fields ch s
    rw [h, hst]
    cases ch <;> exact hi.frame rfl rfl rfl
  | stop ch _ _ h =>
    subst h
    cases ch
    · exact hi.frame rfl rfl rfl
    · exact stopChan_V_keeps_videoInv hi
  | beat ch he h =>
    subst h
    cases ch
    · exact hi.frame rfl rfl rfl
    · exact beat_V_keeps_videoInv hw hi he
  | render _ hn _ h => subst h; exact render_keeps_videoInv hi hn
  | send hr hn h => subst h; exact send_keeps_videoInv hi hn hr.free
  | copy hp _ h => subst h; exact copy_keeps_videoInv hi hp _
  | publish _ _ h => subst h; exact publish_keeps_videoInv hi
  | take hc _ hp _ h => subst h; exact take_keeps_videoInv hw hi hc hp
  | build hc _ h => subst h; exact build_keeps_videoInv hw hi hc _
  | sfStart hc _ _ h => exact sfStart_keeps_videoInv hw hi hc h
  | finish _ hb _ h => subst h; exact finish_keeps_videoInv hi hb

theorem step_keeps_videoInv {s t : State} (hs : Sound s) (hi : VideoInv s) (h : step s = .next t) : VideoInv t := by
  rcases step_exec_or_reset_or_stand h with ⟨i, s0, h0, h⟩ | ⟨e, rfl⟩ | h
  · exact exec_keeps_videoInv (h0.cfg ▸ hs.config) (hi.of_stand h0) h
  · exact videoInv_resetIn _ _ e
  · exact hi.of_stand h

end Sys2Proof.Safety
end

section
/-! 10_state R75: the invariants hold along every run from a reset. -/

namespace Sys2Proof.Safety

open Sys2Proof.Machine

/-- What every reachable state meets: enough to be kept by every step, and to give 10_state R75. -/
structure RunInv (s : State) : Prop where
  sound : Sound s
  audio : AudioInv s
  video : VideoInv s
  fifos : FifoInv s

theorem runInv_resetIn {c : Config} {m : Memory} (e : Env) (hc : c.WellFormed) (hm : m.wf = true) :
    RunInv (State.resetIn c m e) :=
  ⟨⟨hc, hm⟩, audioInv_resetIn c m e, videoInv_resetIn c m e, fifoInv_resetIn c m e⟩

theorem step_keeps_runInv {s t : State} (hi : RunInv s) (h : step s = .next t) : RunInv t :=
  ⟨step_keeps_sound hi.sound h, step_keeps_audioInv hi.sound hi.audio h, step_keeps_videoInv hi.sound hi.video h,
    step_keeps_fifoInv hi.fifos h⟩

theorem Reachable.runInv {s : State} (h : Reachable s) : RunInv s := by
  induction h with
  | reset c m e hc hm => exact runInv_resetIn e hc hm
  | step s t _ h ih => exact step_keeps_runInv ih h

/-- 10_state R75 (vii): while a frame is consumed at most one row stands built and not started. -/
theorem VideoInv.rows {s : State} (hi : VideoInv s) (hc : s.consuming = true) :
    s.video.trow.toNat ≤ s.video.brow.toNat ∧ s.video.brow.toNat ≤ s.video.trow.toNat + 1 ∧
    s.video.trow.toNat + 1 ≤ s.cfg.outH + 1 := by
  cases hphase : s.video.cphase with
  | idle | wait => simp [State.consuming, hphase] at hc
  | build => obtain ⟨hrow, hlt⟩ := hi.buildRow hphase; rw [← hrow]; omega
  | start => obtain ⟨hrow, hle⟩ := hi.startRow hphase; omega
  | drain => obtain ⟨hrow, heq⟩ := hi.drainRow hphase; rw [← hrow]; omega

theorem RunInv.r75 {s : State} (hi : RunInv s) : R75 s where
  i := hi.audio.ids
  iiA := hi.audio.doneIdle
  iiV := hi.video.doneIdle
  iiiA := hi.fifos.audio
  iiiV := hi.fifos.video
  iv := hi.audio.lenBound
  v := hi.video.pendingFresh
  vi := hi.video.slots
  vii := hi.video.rows

/-- Settles O58, by induction on the run: `RunInv` holds after a reset and every step keeps it. -/
theorem reachableStatesMeetR75 : Obligations.ReachableStatesMeetR75 := fun _ h => h.runInv.r75

end Sys2Proof.Safety
end

section
/-! Memory as a core reads and writes it, little-endian in every width (20_memory R82). -/

namespace Sys2Proof.Machine

open Sys2Proof.Safety

/-- The high part of a concatenation counts from the low part's width up. -/
theorem toNat_append_eq_add {n k : Nat} (x : BitVec n) (y : BitVec k) :
    (x ++ y).toNat = y.toNat + x.toNat <<< k := by
  rw [BitVec.toNat_append, ← Nat.shiftLeft_add_eq_or_of_lt y.isLt, Nat.add_comm]

/-- Byte `k` of a word is its bits `8k+7:8k`. -/
theorem getElem?_wordBytes (v : Word) {k : Nat} (hk : k < 4) : (wordBytes v)[k]? = some (v.extractLsb' (8 * k) 8) := by
  match k with
  | 0 | 1 | 2 | 3 => rfl

theorem bytes_le_four (w : Width) : w.bytes ≤ 4 := by cases w <;> decide

theorem Memory.toNat_read16 (m : Memory) (a : Word) :
    (m.read16 a).toNat = (m.read a).toNat + (m.read (a + 1#32)).toNat <<< 8 :=
  toNat_append_eq_add (m.read (a + 1#32)) (m.read a)

/-- Four bytes joined, the last the least significant. -/
theorem toNat_append_bytes (b3 b2 b1 b0 : Byte) :
    (b3 ++ b2 ++ b1 ++ b0).toNat = b0.toNat + b1.toNat <<< 8 + b2.toNat <<< 16 + b3.toNat <<< 24 := by
  simp only [toNat_append_eq_add]
  omega

theorem Memory.toNat_read32 (m : Memory) (a : Word) :
    (m.read32 a).toNat = (m.read a).toNat + (m.read (a + 1#32)).toNat <<< 8 + (m.read (a + 2#32)).toNat <<< 16 +
      (m.read (a + 3#32)).toNat <<< 24 :=
  toNat_append_bytes (m.read (a + 3#32)) (m.read (a + 2#32)) (m.read (a + 1#32)) (m.read a)

theorem Memory.toNat_readWidth (m : Memory) (a : Word) (w : Width) :
    (m.readWidth a w).toNat =
      ((List.range w.bytes).map fun k => (m.read (a + BitVec.ofNat 32 k)).toNat <<< (8 * k)).sum := by
  cases w with
  | byte =>
    rw [Memory.readWidth, BitVec.toNat_setWidth_of_le (by decide)]
    simp [Width.bytes]
  | half =>
    rw [Memory.readWidth, BitVec.toNat_setWidth_of_le (by decide), Memory.toNat_read16]
    simp [Width.bytes, List.range_succ]
  | word =>
    rw [Memory.readWidth, Memory.toNat_read32]
    simp [Width.bytes, List.range_succ, Nat.add_assoc]

/-- What a byte reads as after a store: a byte of the value, or what it was. -/
theorem Memory.read_writeWidth {m : Memory} (hm : m.wf = true) (a b v : Word) (w : Width) :
    (m.writeWidth a w v).read b =
      if Within b a w.bytes then v.extractLsb' (8 * (b - a).toNat) 8 else m.read b := by
  have hw := bytes_le_four w
  rw [Memory.writeWidth, Memory.read_writeBytes hm (by simp), List.getElem?_take]
  split
  · rw [getElem?_wordBytes v (by omega), Option.getD_some]
  · rfl

theorem Memory.read32_write32 {m : Memory} (hm : m.wf = true) (a v : Word) : (m.write32 a v).read32 a = v := by
  simpa [Memory.write32] using read32_writeBytes_words hm a 1 (fun _ => v) (by omega) 0 (by omega)

/-- Settles O51: a read is `toNat_readWidth`'s sum, a byte after a write is `read_writeWidth`'s. -/
theorem memoryIsLittleEndian : Obligations.MemoryIsLittleEndian := by
  intro m a v hm
  refine ⟨m.toNat_readWidth a, ⟨rfl, rfl⟩, fun w k hk => ?_, fun w b hb => ?_, rfl, Memory.read32_write32 hm a v⟩
  · have hw := bytes_le_four w
    have hoff := off_toNat a k (by omega)
    rw [Memory.read_writeWidth hm, if_pos (by rwa [Within, hoff]), hoff]
  · rw [Memory.read_writeWidth hm, if_neg hb]

end Sys2Proof.Machine
end

section
/-! Which bytes an instruction can change (20_memory R81, R83). -/

namespace Sys2Proof.Safety

open Sys2Proof.Machine

/-- `m'` differs from `m` in bytes of the six buffers alone. -/
def ChangesOnlyBuffers (c : Config) (m m' : Memory) : Prop := ∀ a, ¬ InBuffers c a → m'.read a = m.read a

theorem ChangesOnlyBuffers.refl (c : Config) (m : Memory) : ChangesOnlyBuffers c m m := fun _ _ => rfl

theorem ChangesOnlyBuffers.trans {c : Config} {m m' m'' : Memory} (h : ChangesOnlyBuffers c m m')
    (h' : ChangesOnlyBuffers c m' m'') : ChangesOnlyBuffers c m m'' :=
  fun a ha => (h' a ha).trans (h a ha)

/-- The `n` bytes from `base` up all lie in the six buffers. -/
def InsideBuffers (c : Config) (base : Word) (n : Nat) : Prop := ∀ a, Within a base n → InBuffers c a

theorem insideBuffers_abuf (c : Config) (i : Bool) : InsideBuffers c (abufAddr c i) (abufSize c) :=
  fun _ h => ⟨i, .inl h⟩

theorem insideBuffers_sl (c : Config) (i : Bool) : InsideBuffers c (slAddr c i) (slSize c) :=
  fun _ h => ⟨i, .inr (.inl h)⟩

theorem insideBuffers_snap (c : Config) (i : Bool) : InsideBuffers c (snapAddr c i) (snapSize c) :=
  fun _ h => ⟨i, .inr (.inr h)⟩

/-- A zeroing inside the buffers changes no other byte. -/
theorem InsideBuffers.zero {c : Config} {base : Word} {n : Nat} (hin : InsideBuffers c base n) (m : Memory) :
    ChangesOnlyBuffers c m (m.zero base n) := fun a ha => by
  rw [Memory.read_zero, if_neg fun h => ha (hin a h)]

/-- A block write inside the buffers changes no other byte. -/
theorem InsideBuffers.writeBytes {c : Config} {base : Word} {n : Nat} (hin : InsideBuffers c base n) {m : Memory}
    (hm : m.wf = true) {bs : List Byte} (hlen : bs.length ≤ n) (hn : n ≤ 2 ^ 32) :
    ChangesOnlyBuffers c m (m.writeBytes base bs) := fun a ha => by
  have hout : ¬ Within a base n := fun h => ha (hin a h)
  exact Memory.read_writeBytes_of_ge hm (hlen.trans hn) (hlen.trans (not_lt.1 hout))

theorem initA_changesOnlyBuffers (s : State) : ChangesOnlyBuffers s.cfg s.mem (initA s).mem :=
  ((insideBuffers_abuf s.cfg false).zero s.mem).trans ((insideBuffers_abuf s.cfg true).zero _)

theorem initV_changesOnlyBuffers (s : State) : ChangesOnlyBuffers s.cfg s.mem (initV s).mem :=
  ((insideBuffers_sl s.cfg false).zero s.mem).trans <| ((insideBuffers_sl s.cfg true).zero _).trans <|
    ((insideBuffers_snap s.cfg false).zero _).trans ((insideBuffers_snap s.cfg true).zero _)

theorem fillBuffer_changesOnlyBuffers {s : State} (hs : Sound s) :
    ChangesOnlyBuffers s.cfg s.mem (fillBuffer s).mem := by
  have hcap : accepted s.cfg s.port0.arg1 ≤ s.cfg.audCap := Nat.min_le_right _ _
  exact (insideBuffers_abuf s.cfg s.ring.fillId).writeBytes hs.memory
    (by rw [length_wireBytes, abufSize]; omega) hs.config.audCap_lt

/-- An instruction leaves memory as it is, or it is one of the writers of 20_memory R81 and changes buffers alone. -/
theorem exec_mem_cases {i : Instr} {s t : State} (hs : Sound s) (h : exec i s = .next t) :
    t.mem = s.mem ∨
    (i ∈ [.init .A, .init .V, .queueSamples, .rfCopy, .sfBuild] ∧ ChangesOnlyBuffers s.cfg s.mem t.mem) := by
  replace h := exec_cases h
  cases h with
  | initA _ _ h => subst h; exact .inr ⟨by decide, initA_changesOnlyBuffers s⟩
  | initV _ _ h => subst h; exact .inr ⟨by decide, initV_changesOnlyBuffers s⟩
  | queueBusy _ _ _ _ _ h => subst h; exact .inr ⟨by decide, fillBuffer_changesOnlyBuffers hs⟩
  | queueIdle _ _ _ _ _ h =>
    rw [(swapAndStart_ok h).2]; exact .inr ⟨by decide, fillBuffer_changesOnlyBuffers hs⟩
  | copy _ _ h =>
    subst h
    have hin := hs.config.snap_inside s.video.wrSlot
    exact .inr ⟨by decide, (insideBuffers_snap s.cfg _).writeBytes hs.memory (by simp) (by omega)⟩
  | build _ _ h =>
    subst h
    have hin := hs.config.sl_inside (rowParity s.video.brow)
    exact .inr ⟨by decide, (insideBuffers_sl s.cfg _).writeBytes hs.memory (length_rowBytes ..).le (by omega)⟩
  | airqRestart _ _ _ h => rw [(swapAndStart_ok h).2]; exact .inl rfl
  | sfStart _ _ _ h => obtain ⟨-, -, rfl⟩ := dmaStart_ok h; exact .inl rfl
  | beat ch _ h => subst h; cases ch <;> exact .inl rfl
  | stop ch _ _ h => subst h; cases ch <;> exact .inl rfl
  | start ch _ _ h =>
    obtain ⟨a, b, c, hst⟩ := startChan_fields ch s
    rw [h, hst]; exact .inl (by simp)
  | same _ h | refused _ _ _ h | queueFault _ _ _ _ _ h | airqFault _ _ _ _ h | bufferReady _ _ h | render _ _ _ h
  | send _ _ h | emitA _ _ _ _ _ h | emitV _ _ _ _ _ h | silence _ _ _ h | airqIdle _ _ _ h | publish _ _ h
  | take _ _ _ _ h | finish _ _ _ h => subst h; exact .inl rfl

theorem clkEdge_mem (s : State) : (clkEdge s).mem = s.mem := by
  obtain ⟨a, b, c, d, e, f, g, h, -, -⟩ := clkEdge_fields s
  rw [h]

/-- Settles O50, by the two cases of `exec_mem_cases`. -/
theorem blockWritesOnlyItsBuffers : Obligations.BlockWritesOnlyItsBuffers := by
  intro i s t hs h
  refine ⟨?_, fun hi => ?_, clkEdge_mem s⟩
  · rcases exec_mem_cases hs h with hsame | ⟨-, honly⟩
    · exact hsame ▸ ChangesOnlyBuffers.refl s.cfg s.mem
    · exact honly
  · rcases exec_mem_cases hs h with hsame | ⟨hi', -⟩
    · exact hsame
    · exact absurd hi' hi

end Sys2Proof.Safety
end

section
/-! The words the decoder reads as an instruction, and those it reads as a command (30_encoding R110-R116). -/

namespace Sys2Proof

@[simp] theorem Channel.bit_ofBit (b : Bool) : (Channel.ofBit b).bit = b := by cases b <;> rfl

/-- A word whose reserved bits are 0 is put together again from its two other fields. -/
theorem instrWord_fields {w : Word} (h : rsvField w = 0#23) : instrWord (opField w) (chField w) = w := by
  have hch : BitVec.ofBool (w.getLsbD 8) = w.extractLsb' 8 1 := by
    ext k hk
    obtain rfl : k = 0 := Nat.lt_one_iff.mp hk
    simp
  have hhigh : w.extractLsb' 9 23 ++ w.extractLsb' 8 1 = w.extractLsb' 8 24 :=
    BitVec.extractLsb'_append_extractLsb'_eq_extractLsb' rfl
  have hall : w.extractLsb' 8 24 ++ w.extractLsb' 0 8 = w.extractLsb' 0 32 :=
    BitVec.extractLsb'_append_extractLsb'_eq_extractLsb' rfl
  rw [instrWord, ← h, rsvField, opField, chField, Channel.bit_ofBit, hch, hhigh, hall, BitVec.extractLsb'_eq_self]

theorem onChannel_ok_iff {want ch : Channel} {i j : Instr} :
    onChannel want ch i = .ok j ↔ ch = want ∧ i = j := by
  unfold onChannel; split <;> simp [*]

/-- The row an operation code and a channel select has that code and that channel in its word. The cases are the rows
that take both channels, SM_EMIT (an instruction a channel), no row, and the rows of one channel. -/
theorem instrWord_of_decodeRow {op : BitVec 8} {ch : Channel} {i : Instr} (h : decodeRow op ch = .ok i) :
    instrWord op ch = encode i := by
  unfold decodeRow at h
  split at h
  case h_1 | h_2 | h_3 | h_4 | h_11 => cases h; rfl
  case h_9 => cases h; cases ch <;> rfl
  case h_19 => cases h
  all_goals
    obtain ⟨rfl, rfl⟩ := onChannel_ok_iff.mp h
    rfl

@[simp] theorem decodeWord_encode (i : Instr) : decodeWord (encode i) = .ok i := by
  cases i with
  | nop ch | init ch | start ch | stop ch | dmaBeat ch => cases ch <;> rfl
  | _ => rfl

/-- 30_encoding R113, R114: the decoder reads an instruction from its own word and from no other. -/
theorem decodeWord_ok_iff {w : Word} {i : Instr} : decodeWord w = .ok i ↔ w = encode i := by
  refine ⟨fun h => ?_, fun h => h ▸ decodeWord_encode i⟩
  unfold decodeWord at h
  split at h
  next hrsv => rw [← instrWord_fields hrsv, instrWord_of_decodeRow h]
  next => cases h

/-- 30_encoding R115, R116: a command register takes the words of the instructions that are no internal step. -/
theorem decodeCommand_ok_iff {w : Word} {i : Instr} :
    decodeCommand w = .ok i ↔ w = encode i ∧ i.isEvent = false := by
  refine ⟨fun h => ?_, fun ⟨hw, he⟩ => ?_⟩
  · obtain ⟨hd, he⟩ := Machine.decodeCommand_ok h
    exact ⟨decodeWord_ok_iff.mp hd, he⟩
  · simp [decodeCommand, hw, he]

/-- Settles O2, by `decodeCommand_ok_iff`: the commands are the rows of R113, each with its own word. -/
theorem twelveLegalCommandWords : Obligations.TwelveLegalCommandWords := by
  intro w i
  rw [decodeCommand_ok_iff]
  cases i with
  | nop ch | init ch | start ch | stop ch => cases ch <;> simp [encode, instrWord, Instr.isEvent, Channel.bit]
  | _ => simp [encode, instrWord, Instr.isEvent, Channel.bit]

end Sys2Proof
end

section
/-! A command on a free port of a live block, by its own issue checks (40_channel_control R140 steps 4 and 5), and the
block once it is halted. -/

namespace Sys2Proof.Machine

section Checks

variable {p : Port} {ch : Channel} {s : State} (k : Except Fault State) (hr : Ran p s)
include hr

theorem command_needInit_of_inited (hi : (s.chan ch).inited = true) :
    command p s (needInit ch s k) = attempt s k := by
  rw [command_free hr.free hr.live, needInit, if_pos hi]

theorem command_needInit_of_not_inited (hi : (s.chan ch).inited = false) :
    command p s (needInit ch s k) = .next (s.raise .notInit) := by
  simp [command_free hr.free hr.live, needInit, hi]

theorem command_needNoInit_of_inited (hi : (s.chan ch).inited = true) :
    command p s (needNoInit ch s k) = .next (s.raise .doubleInit) := by
  simp [command_free hr.free hr.live, needNoInit, hi]

theorem command_needNoInit_of_not_inited (hi : (s.chan ch).inited = false) :
    command p s (needNoInit ch s k) = attempt s k := by
  simp [command_free hr.free hr.live, needNoInit, hi]

end Checks

theorem command_of_halted {s : State} (h : s.halted = true) (p : Port) (k : Except Fault State) :
    command p s k = .next s := by
  simp [command, h]

theorem await_of_halted {s : State} (h : s.halted = true) (c : Bool) (k : Except Fault State) :
    await (c && !s.halted) s k = .next s := by
  simp [await, h]

/-- 60_exceptions R331: every fault but NO_DMA_CHANNEL leaves the block running. -/
theorem raise_of_ne_noDmaChannel {f : Fault} (h : f ≠ .noDmaChannel) (s : State) :
    s.raise f = { s with faults := s.faults ||| f.bit } := by
  simp [State.raise, h]

/-- 60_exceptions R333: NO_DMA_CHANNEL halts the block. -/
theorem raise_noDmaChannel (s : State) :
    s.raise .noDmaChannel = { s with faults := s.faults ||| Fault.noDmaChannel.bit, halted := true } := by
  simp [State.raise]

/-- Issue check step 5: a command before its channel's INIT records NOT_INIT and has no other effect. -/
theorem command_before_init {p : Port} {ch : Channel} {s : State} (k : Except Fault State) (hr : Ran p s)
    (hi : (s.chan ch).inited = false) :
    command p s (needInit ch s k) = .next { s with faults := s.faults ||| Fault.notInit.bit } := by
  rw [command_needInit_of_not_inited k hr hi, raise_of_ne_noDmaChannel (by decide)]

/-- 60_exceptions R333: no instruction does anything to a halted block. -/
theorem exec_of_halted {s : State} (h : s.halted = true) (i : Instr) : exec i s = .next s := by
  cases i with
  | nop ch => rfl
  | init ch | start ch | stop ch | queueSamples | bufferReady | renderFrame | sendFrame =>
    exact command_of_halted h _ _
  | smEmitA | smEmitV =>
    simp only [exec, execSmEmitA, execSmEmitV]
    split
    · rfl
    · exact await_of_halted h _ _
  | smSilence | dmaBeat ch | airqSwap | rfCopy | rfPublish | sfTake | sfBuild | sfStart | sfFinish =>
    exact await_of_halted h _ _

/-- 60_exceptions R333: a halted block keeps its pins and emits nothing. -/
theorem clkEdge_of_halted {s : State} (h : s.halted = true) : clkEdge s = s := if_pos h

theorem FaultsGrow.halted {s t : State} (hg : FaultsGrow s t) (h : s.halted = true) : t.halted = true := by
  rcases hg with ⟨-, hh⟩ | ⟨f, -, hh⟩
  · rw [hh, h]
  · rw [hh]; simp [State.raise, h]

end Sys2Proof.Machine
end

section
/-! The issue of a command (40_channel_control R140). -/

namespace Sys2Proof

@[simp] theorem Channel.ofBit_bit (ch : Channel) : Channel.ofBit ch.bit = ch := by cases ch <;> rfl

@[simp] theorem chField_instrWord (op : BitVec 8) (ch : Channel) : chField (instrWord op ch) = ch := by
  rw [chField, instrWord, BitVec.getLsbD_append, BitVec.getLsbD_append]
  simp

end Sys2Proof

namespace Sys2Proof.Machine

theorem SameBlock.chan {s t : State} (h : SameBlock s t) (ch : Channel) : t.chan ch = s.chan ch := by
  obtain ⟨e, rfl⟩ := h.exists; cases ch <;> rfl

theorem SameBlock.ran {p : Port} {s t : State} (h : SameBlock s t) (hr : Ran p s) : Ran p t := by
  obtain ⟨e, rfl⟩ := h.exists; exact ⟨(h.busy p).trans hr.free, hr.live⟩

/-- A core's 32-bit write to a free `CMDq` is its issue, with the turn and the write taken off. -/
theorem step_of_cmd_write {s : State} {p q : Port} {w : Word} {rest : List Turn} {more : List Access}
    (hw : s.cfg.WellFormed) (hs : s.env.sched = .core p :: rest)
    (hp : s.prog p = .write (cmdOffset q) .word w :: more) (hb : s.busy q = false) :
    step s = issue q w ((s.setSched rest).setProg p more) := by
  have hport : cmdPort (cmdOffset q) = some q := by cases q <;> rfl
  have hok : accessOk (cmdOffset q) .word = true := by cases q <;> rfl
  have hfree : (s.setSched rest).busy q = false := ((sameBlock_setSched s rest).busy q).trans hb
  rw [step_of_core_access hw hs hp (by simp [holds, hport, hfree])]
  simp [access, hok, hport]

theorem issue_of_halted {s : State} (h : s.halted = true) (q : Port) (w : Word) : issue q w s = .next s := if_pos h

theorem issue_of_illegal {s : State} {w : Word} (h : s.halted = false) (hd : ∀ i, decodeCommand w ≠ .ok i) (q : Port) :
    issue q w s = .next (s.raise .illegalCmd) := by
  cases hw : decodeCommand w with
  | ok i => exact absurd hw (hd i)
  | error e => simp [issue, h, hw]

theorem issue_of_wrong_port {q : Port} {w : Word} {i : Instr} {s : State} (h : s.halted = false)
    (hd : decodeCommand w = .ok i) (ha : i.admits q = false) : issue q w s = .next (s.raise .illegalPort) := by
  simp [issue, h, hd, ha]

theorem issue_of_admitted {q : Port} {w : Word} {i : Instr} {s : State} (h : s.halted = false)
    (hd : decodeCommand w = .ok i) (ha : i.admits q = true) : issue q w s = exec i s := by
  simp [issue, h, hd, ha]

/-- Issue check step 4: INIT is refused on an initialised channel, on the one port that admits it. -/
theorem exec_init_of_inited {q : Port} {ch : Channel} {s : State} (hr : Ran q s)
    (ha : (Instr.init ch).admits q = true) (hi : (s.chan ch).inited = true) :
    exec (.init ch) s = .next (s.raise .doubleInit) := by
  obtain rfl : q = .p0 := of_decide_eq_true ha
  exact command_needNoInit_of_inited _ hr hi

/-- Issue check step 5: every command but NOP and INIT is refused before its channel's INIT. -/
theorem exec_of_not_inited {q : Port} {i : Instr} {s : State} (hr : Ran q s) (he : i.isEvent = false)
    (ha : i.admits q = true) (hinit : ∀ ch, i ≠ .init ch) (hnop : ∀ ch, i ≠ .nop ch)
    (hn : (s.chan (chField (encode i))).inited = false) : exec i s = .next (s.raise .notInit) := by
  cases i with
  | nop ch => exact absurd rfl (hnop ch)
  | init ch => exact absurd rfl (hinit ch)
  | start ch | stop ch | queueSamples | bufferReady | renderFrame =>
    obtain rfl : q = .p0 := of_decide_eq_true ha
    rw [encode, chField_instrWord] at hn
    exact command_needInit_of_not_inited _ hr hn
  | sendFrame =>
    cases q with
    | p0 => cases ha
    | p1 => exact command_needInit_of_not_inited _ hr hn
  | _ => cases he

/-- Settles O6: the write is one `issue`, whose checks 1 to 3 exclude each other, and checks 4 and 5 are the
command's own. -/
theorem issueChecksInOrder : Obligations.IssueChecksInOrder := by
  intro s p q w rest more hw hs hp hb u
  have hstep : step s = issue q w u := step_of_cmd_write hw hs hp hb
  have hblock : SameBlock s u := (sameBlock_setSched s rest).trans (sameBlock_setProg (s.setSched rest) p more)
  have hhalted : u.halted = s.halted := by simp [u]
  rw [hstep, ← hhalted]
  refine ⟨fun h => issue_of_halted h q w, fun h => ⟨fun hd => issue_of_illegal h hd q, fun i hd =>
    ⟨issue_of_wrong_port h hd, fun ha => ?_⟩⟩⟩
  obtain ⟨hword, he⟩ := decodeCommand_ok_iff.mp hd
  have hr : Ran q u := ⟨(hblock.busy q).trans hb, h⟩
  rw [issue_of_admitted h hd ha, ← hblock.chan, hword]
  refine ⟨?_, fun hinit hnop hn => exec_of_not_inited hr he ha hinit hnop hn, fun _ => rfl⟩
  rintro ⟨ch, rfl⟩ hi
  rw [encode, chField_instrWord] at hi
  exact exec_init_of_inited hr ha hi

end Sys2Proof.Machine
end

section
/-! NOP, INIT, START and STOP (40_channel_control R143-R148). -/

namespace Sys2Proof.Machine

theorem exec_init_of_no_channel {ch : Channel} {s : State} (hr : Ran .p0 s) (hi : (s.chan ch).inited = false)
    (hc : chAvail s.cfg ch = false) : exec (.init ch) s = .next (s.raise .noDmaChannel) := by
  refine (command_needNoInit_of_not_inited _ hr hi).trans ?_
  simp [hc]

theorem exec_start_of_inited {ch : Channel} {s : State} (hr : Ran .p0 s) (hi : (s.chan ch).inited = true) :
    exec (.start ch) s = .next (startChan ch s) :=
  command_needInit_of_inited _ hr hi

theorem exec_stop_of_inited {ch : Channel} {s : State} (hr : Ran .p0 s) (hi : (s.chan ch).inited = true) :
    exec (.stop ch) s = .next (stopChan ch s) :=
  command_needInit_of_inited _ hr hi

theorem startChan_of_started {ch : Channel} {s : State} (h : (s.chan ch).smEn = true) : startChan ch s = s := if_pos h

theorem startChan_of_stopped {ch : Channel} {s : State} (h : (s.chan ch).smEn = false) :
    startChan ch s = (tgReset ch s).setChan ch { s.chan ch with smEn := true } := by
  simp [startChan, h]

theorem stopChan_A_eq (s : State) : stopChan .A s = { s with
    chanA := { s.chanA with smEn := false, dmaBusy := false, dmaDone := false }, fifoA := [], tgA := TgA.idle,
    pins := { s.pins with audBck := false, audWs := s.cfg.wsLeft, audDout := false } } := rfl

theorem stopChan_V_eq (s : State) : stopChan .V s = { s with
    chanV := { s.chanV with smEn := false, dmaBusy := false, dmaDone := false }, fifoV := [], tgV := TgV.idle,
    pins := { s.pins with lcdSck := false, lcdMosi := false } } := rfl

theorem stopChan_idem (ch : Channel) (s : State) : stopChan ch (stopChan ch s) = stopChan ch s := by
  cases ch with
  | A => simp only [stopChan_A_eq]
  | V => simp only [stopChan_V_eq]

theorem stopChan_inited (ch : Channel) (s : State) : ((stopChan ch s).chan ch).inited = (s.chan ch).inited := by
  cases ch <;> rfl

theorem ran_stopChan {p : Port} {s : State} (hr : Ran p s) (ch : Channel) : Ran p (stopChan ch s) := by
  cases ch <;> cases p <;> exact ⟨hr.free, hr.live⟩

/-- 40_channel_control R146: STOP is idempotent. -/
theorem exec_stop_stopChan {ch : Channel} {s : State} (hr : Ran .p0 s) (hi : (s.chan ch).inited = true) :
    exec (.stop ch) (stopChan ch s) = .next (stopChan ch s) := by
  rw [exec_stop_of_inited (ran_stopChan hr ch) ((stopChan_inited ch s).trans hi), stopChan_idem]

theorem irqReq_stopChan (ch : Channel) (s : State) : (stopChan ch s).irqReq ch = false := by
  cases ch <;> rfl

/-- 43_audio_ring R231: with no swap requested there is no swap. -/
theorem exec_airqSwap_of_no_request {s : State} (h : s.irqReq .A = false) : exec .airqSwap s = .next s := by
  simp [exec, execAirqSwap, h, await_false]

/-- Settles O17: a refused INIT is one fault, and NO_DMA_CHANNEL halts; a halted block stands still. -/
theorem initRefusals : Obligations.InitRefusals := by
  intro ch s hb hh
  have hr : Ran .p0 s := ⟨hb, hh⟩
  refine ⟨fun hi hc => ?_, fun hi => ?_⟩
  · refine ⟨_, exec_init_of_no_channel hr hi hc, raise_noDmaChannel s, ?_, ?_, ?_⟩
    · exact exec_of_halted (by rw [raise_noDmaChannel])
    · exact clkEdge_of_halted (by rw [raise_noDmaChannel])
    · exact fun u v hu hstep hrst => (step_faultsGrow hstep hrst).halted hu
  · rw [exec_init_of_inited hr rfl hi, raise_of_ne_noDmaChannel (by decide)]
    rfl

/-- Settles O18, by the cases of `startChan`: a stopped channel and a started one. -/
theorem startChannel : Obligations.StartChannel := by
  intro s hb hh
  have hr : Ran .p0 s := ⟨hb, hh⟩
  refine ⟨fun hi he => ?_, fun hi he => ?_, fun ch hi he => ?_, fun ch => command_before_init _ hr, rfl, rfl,
    fun ch => ⟨rfl, rfl⟩⟩
  · rw [exec_start_of_inited (ch := .A) hr hi, startChan_of_stopped (ch := .A) he]; rfl
  · rw [exec_start_of_inited (ch := .V) hr hi, startChan_of_stopped (ch := .V) he]; rfl
  · rw [exec_start_of_inited hr hi, startChan_of_started he]

/-- Settles O19: `stopChan` is the whole effect, on both channels, and is idempotent. -/
theorem stopChannel : Obligations.StopChannel := by
  intro s hb hh
  have hr : Ran .p0 s := ⟨hb, hh⟩
  exact ⟨fun hi => ⟨stopChan .A s, exec_stop_of_inited hr hi, exec_stop_stopChan hr hi, stopChan_A_eq s⟩,
    fun hi => ⟨stopChan .V s, exec_stop_of_inited hr hi, exec_stop_stopChan hr hi, stopChan_V_eq s⟩,
    fun ch => command_before_init _ hr, rfl, rfl, fun ch => ⟨rfl, rfl⟩⟩

/-- Settles O20: NOP has no case in which it does anything, and a command word is its instruction's encoding. -/
theorem nopChangesNothing : Obligations.NopChangesNothing := by
  refine ⟨fun _ _ => rfl, fun _ _ => rfl, rfl, rfl, fun w ch hd => ?_⟩
  obtain ⟨rfl, -⟩ := decodeCommand_ok_iff.mp hd
  cases ch <;> exact ⟨rfl, rfl⟩

/-- Settles O21: the abort clears the completion a swap would need. -/
theorem stopCancelsSwap : Obligations.StopCancelsSwap := by
  intro s t hb hh hi h
  rw [exec_stop_of_inited (ch := .A) ⟨hb, hh⟩ hi] at h
  cases h
  have hreq := irqReq_stopChan .A s
  exact ⟨hreq, exec_airqSwap_of_no_request hreq, rfl⟩

end Sys2Proof.Machine
end

section
/-! The serial clock state machines at the event level: SM_EMIT and SM_SILENCE (41_serial_sm R172, R173). -/

namespace Sys2Proof.Machine

theorem exec_smEmitA_of_empty {s : State} (hq : s.fifoA = []) : exec .smEmitA s = .next s := by
  simp only [exec, execSmEmitA, hq]

theorem exec_smEmitA_of_cons {s : State} {w : Word} {rest : List Word} (hq : s.fifoA = w :: rest) :
    exec .smEmitA s =
      await (s.chanA.smEn && !s.halted) s (.ok { s with fifoA := rest, outA := s.outA ++ [.frame w] }) := by
  simp only [exec, execSmEmitA, hq]

theorem exec_smEmitV_of_empty {s : State} (hq : s.fifoV = []) : exec .smEmitV s = .next s := by
  simp only [exec, execSmEmitV, hq]

theorem exec_smEmitV_of_cons {s : State} {b : Byte} {rest : List Byte} (hq : s.fifoV = b :: rest) :
    exec .smEmitV s = await (s.chanV.smEn && !s.halted) s (.ok { s with fifoV := rest, outV := s.outV ++ [b] }) := by
  simp only [exec, execSmEmitV, hq]

/-- 41_serial_sm R172: Silence is the answer to an empty FIFO alone. -/
theorem exec_smSilence_of_cons {s : State} {w : Word} {rest : List Word} (hq : s.fifoA = w :: rest) :
    exec .smSilence s = .next s := by
  simp [exec, execSmSilence, hq, await_false]

theorem exec_smSilence_of_empty {s : State} (he : s.chanA.smEn = true) (hh : s.halted = false) (hq : s.fifoA = []) :
    exec .smSilence s = .next { s with outA := s.outA ++ [.silence] } := by
  simp [exec, execSmSilence, he, hh, hq, await_true]

theorem exec_smEmitA_of_stopped {s : State} (he : s.chanA.smEn = false) : exec .smEmitA s = .next s := by
  cases hq : s.fifoA with
  | nil => exact exec_smEmitA_of_empty hq
  | cons w rest => rw [exec_smEmitA_of_cons hq, he, Bool.false_and, await_false]

theorem exec_smSilence_of_stopped {s : State} (he : s.chanA.smEn = false) : exec .smSilence s = .next s := by
  simp [exec, execSmSilence, he, await_false]

theorem exec_smEmitV_of_stopped {s : State} (he : s.chanV.smEn = false) : exec .smEmitV s = .next s := by
  cases hq : s.fifoV with
  | nil => exact exec_smEmitV_of_empty hq
  | cons b rest => rw [exec_smEmitV_of_cons hq, he, Bool.false_and, await_false]

/-- Settles O23: a waiting word is for SM_EMIT A and an empty FIFO for SM_SILENCE; a stopped channel or a halted block
enables neither. -/
theorem audioLoadSteps : Obligations.AudioLoadSteps := by
  refine fun s => ⟨fun w rest he hh hq => ⟨?_, exec_smSilence_of_cons hq⟩,
    fun he hh hq => ⟨exec_smSilence_of_empty he hh hq, exec_smEmitA_of_empty hq⟩, ?_, rfl, rfl⟩
  · simp [exec_smEmitA_of_cons hq, he, hh, await_true]
  · rintro (he | hh)
    · exact ⟨exec_smEmitA_of_stopped he, exec_smSilence_of_stopped he⟩
    · exact ⟨exec_of_halted hh _, exec_of_halted hh _⟩

/-- Settles O24: a waiting byte is moved; a stopped channel, a halted block and an empty FIFO are the three stalls. -/
theorem displayLoadStep : Obligations.DisplayLoadStep := by
  refine fun s => ⟨fun b rest he hh hq => ?_, ?_, rfl⟩
  · simp [exec_smEmitV_of_cons hq, he, hh, await_true]
  · rintro (he | hh | hq)
    · exact exec_smEmitV_of_stopped he
    · exact exec_of_halted hh _
    · exact exec_smEmitV_of_empty hq

end Sys2Proof.Machine
end

section
/-! The transfer step of the two DMA engines (42_dma R193). -/

namespace Sys2Proof.Machine

theorem beatEnabled_iff {ch : Channel} {s : State} :
    beatEnabled ch s = true ↔ (s.chan ch).dmaBusy = true ∧ s.fifoLen ch < s.cfg.fifoDepth ∧ s.halted = false := by
  simp [beatEnabled, and_assoc]

theorem exec_dmaBeat_of_enabled {ch : Channel} {s : State} (he : beatEnabled ch s = true) :
    exec (.dmaBeat ch) s = .next ((pushElement ch s).setChan ch ((s.chan ch).afterBeat (esz ch))) := by
  rw [exec, execDmaBeat, he, await_true, attempt_ok]

theorem exec_dmaBeat_of_not_enabled {ch : Channel} {s : State} (he : ¬ beatEnabled ch s = true) :
    exec (.dmaBeat ch) s = .next s := by
  rw [exec, execDmaBeat, Bool.eq_false_of_not_eq_true he, await_false]

/-- The count reaches 0 on the beat that finds it at 1: that beat ends the transfer. -/
theorem Chan.afterBeat_of_busy {c : Chan} (hb : c.dmaBusy = true) (n : Nat) :
    c.afterBeat n = { c with
      dmaAddr := c.dmaAddr + BitVec.ofNat 32 n, dmaCount := c.dmaCount - 1#32,
      dmaBusy := decide (c.dmaCount ≠ 1#32),
      dmaDone := if c.dmaCount = 1#32 then true else c.dmaDone } := by
  have hlast : c.dmaCount - 1#32 = 0#32 ↔ c.dmaCount = 1#32 := sub_eq_zero
  by_cases h : c.dmaCount = 1#32 <;> simp [Chan.afterBeat, hb, hlast, h]

/-- Settles O28: a beat is enabled exactly when all three guards hold, and an enabled beat is a push followed by
`Chan.afterBeat` on a busy channel. -/
theorem dmaBeatMovesOneElement : Obligations.DmaBeatMovesOneElement := by
  refine fun s => ⟨fun hb hspace hh => ?_, fun hb hspace hh => ?_, fun ch hoff => ?_, rfl, rfl⟩
  · have he : beatEnabled .A s = true := beatEnabled_iff.mpr ⟨hb, hspace, hh⟩
    rw [exec_dmaBeat_of_enabled he, State.chan_A, Chan.afterBeat_of_busy hb]
    rfl
  · have he : beatEnabled .V s = true := beatEnabled_iff.mpr ⟨hb, hspace, hh⟩
    rw [exec_dmaBeat_of_enabled he, State.chan_V, Chan.afterBeat_of_busy hb]
    rfl
  · refine exec_dmaBeat_of_not_enabled fun he => ?_
    obtain ⟨hb, hspace, hh⟩ := beatEnabled_iff.mp he
    rcases hoff with hidle | hfull | hhalted
    · exact Bool.false_ne_true (hidle.symm.trans hb)
    · exact hfull.not_gt hspace
    · exact Bool.false_ne_true (hh.symm.trans hhalted)

end Sys2Proof.Machine
end

section
/-! The audio ring: QUEUE_SAMPLES, BUFFER_READY and the swap interrupt AIRQ_SWAP (43_audio_ring R222-R231). -/

namespace Sys2Proof.Machine

open Sys2Proof.Safety

/-- 43_audio_ring R223, R231: an idle engine takes every filled buffer, since a Sample Buffer is 4-aligned. -/
theorem swapAndStart_of_idle {s : State} (hw : s.cfg.WellFormed) (hb : s.chanA.dmaBusy = false)
    (hlen : s.ring.xferLen ≠ 0#32) :
    swapAndStart s = .ok { s with
      ring := { s.ring with activeId := s.ring.fillId, fillId := s.ring.activeId, ready := false }
      chanA := { s.chanA with
        dmaAddr := abufAddr s.cfg s.ring.fillId, dmaCount := s.ring.xferLen, dmaDone := false, dmaBusy := true } } := by
  rw [swapAndStart, dmaStart_of_idle (ch := .A) (s := swapRing s) hb (hw.abuf_aligned s.ring.fillId),
    decide_eq_false hlen, decide_eq_true hlen]
  rfl

/-- 43_audio_ring R222: at least one sample is accepted of a count that is not 0. -/
theorem ofNat_accepted_ne_zero {c : Config} (hw : c.WellFormed) {count : Word} (hn : count ≠ 0#32) :
    BitVec.ofNat 32 (accepted c count) ≠ 0#32 := fun hzero => by
  have hlen : (0#32).toNat = min count.toNat c.audCap := hzero ▸ toNat_ofNat_accepted hw count
  have hcap := hw.audCap_pos
  have hcount : count.toNat ≠ 0 := fun h => hn (BitVec.eq_of_toNat_eq h)
  rw [BitVec.toNat_ofNat] at hlen
  omega

/-- The bytes QUEUE_SAMPLES stores fit the address space. -/
theorem four_mul_accepted_le {c : Config} (hw : c.WellFormed) (count : Word) : 4 * accepted c count ≤ 2 ^ 32 :=
  (Nat.mul_le_mul_left 4 (Nat.min_le_right ..)).trans hw.audCap_lt

section QueueSamples

variable {s : State} (hr : Ran .p0 s) (hi : s.chanA.inited = true)
include hr hi

/-- 43_audio_ring R223: a null pointer or a zero count has no effect at all. -/
theorem exec_queueSamples_of_no_samples (h : s.port0.arg0 = 0#32 ∨ s.port0.arg1 = 0#32) :
    exec .queueSamples s = .next s := by
  refine (command_needInit_of_inited (ch := .A) _ hr hi).trans ?_
  rw [if_pos h, attempt_ok]

/-- 43_audio_ring R223: the guards on the operands passed, what is left is the test of the engine. -/
theorem exec_queueSamples_of_samples (hp : s.port0.arg0 ≠ 0#32) (hc : s.port0.arg1 ≠ 0#32) :
    exec .queueSamples s =
      attempt s (if s.chanA.dmaBusy then .ok (fillBuffer s) else swapAndStart (fillBuffer s)) := by
  refine (command_needInit_of_inited (ch := .A) _ hr hi).trans ?_
  rw [if_neg (not_or.mpr ⟨hp, hc⟩)]

end QueueSamples

/-- 43_audio_ring R223: word `j` of the fill buffer is the wire word of sample `j` as it stood before. -/
theorem read32_fillBuffer {s : State} (hs : Sound s) {j : Nat} (hj : j < accepted s.cfg s.port0.arg1) :
    (fillBuffer s).mem.read32 (abufAddr s.cfg s.ring.fillId + BitVec.ofNat 32 (4 * j)) =
      wire (sample s.mem s.port0.arg0 j) :=
  read32_writeBytes_words hs.memory _ _ (fun i => wire (sample s.mem s.port0.arg0 i))
    (four_mul_accepted_le hs.config s.port0.arg1) j hj

/-- 43_audio_ring R223: no byte but those of the accepted samples' words changes. -/
theorem read_fillBuffer_of_not_within {s : State} (hs : Sound s) {a : Word}
    (ha : ¬ Within a (abufAddr s.cfg s.ring.fillId) (4 * accepted s.cfg s.port0.arg1)) :
    (fillBuffer s).mem.read a = s.mem.read a := by
  have hlen := length_wireBytes s.mem s.port0.arg0 (accepted s.cfg s.port0.arg1)
  refine Memory.read_writeBytes_of_ge hs.memory ?_ ?_ <;> rw [hlen]
  · exact four_mul_accepted_le hs.config s.port0.arg1
  · exact not_lt.mp ha

/-- Settles O30: with samples to queue both cases of the engine fill the buffer, which alone writes memory; on an idle
engine the swap and the start follow. -/
theorem queueSamplesRule : Obligations.QueueSamplesRule := by
  intro s hs hb hh n fill
  have hr : Ran .p0 s := ⟨hb, hh⟩
  refine ⟨command_before_init (ch := .A) _ hr, rfl, rfl, rfl, exec_queueSamples_of_no_samples hr, fun hi hp hc => ?_⟩
  have hrun := exec_queueSamples_of_samples hr hi hp hc
  cases hbusy : s.chanA.dmaBusy with
  | true =>
    rw [hbusy, if_pos rfl, attempt_ok] at hrun
    exact ⟨_, hrun, fun _ => read32_fillBuffer hs, fun _ => read_fillBuffer_of_not_within hs, fun _ => rfl, nofun⟩
  | false =>
    have hstart := swapAndStart_of_idle (s := fillBuffer s) hs.config hbusy (ofNat_accepted_ne_zero hs.config hc)
    rw [hbusy, if_neg Bool.false_ne_true, hstart, attempt_ok] at hrun
    exact ⟨_, hrun, fun _ => read32_fillBuffer hs, fun _ => read_fillBuffer_of_not_within hs, nofun, fun _ => rfl⟩

/-- Settles O31, by the two values of READY. -/
theorem bufferReadyReports : Obligations.BufferReadyReports := by
  intro s hb hh
  have hr : Ran .p0 s := ⟨hb, hh⟩
  refine ⟨fun hi => (command_needInit_of_inited (ch := .A) _ hr hi).trans ?_,
    command_before_init (ch := .A) _ hr, rfl, rfl, rfl⟩
  cases s.ring.ready <;> rfl

/-- 43_audio_ring R231: a swap requested of a live block runs. -/
theorem exec_airqSwap_of_request {s : State} (hq : s.irqReq .A = true) (hh : s.halted = false) :
    exec .airqSwap s = attempt s (if s.ring.ready then swapAndStart (dmaAck .A s) else .ok (dmaAck .A s)) := by
  rw [exec, execAirqSwap, hq, hh]
  rfl

theorem irqReq_A_iff {s : State} : s.irqReq .A = true ↔ s.chanA.dmaDone = true ∧ s.chanA.dmaIe = true := by
  simp [State.irqReq]

/-- Settles O32: by `AudioInv` a completed transfer is idle and a pending buffer holds a word, so the restart raises
no fault. -/
theorem airqSwapRule : Obligations.AirqSwapRule := by
  refine fun s hw hinv => ⟨fun hd hie hh hready => ?_, fun hd hie hh hready => ?_, fun hoff => ?_, rfl⟩
  · have hstart := swapAndStart_of_idle (s := dmaAck .A s) hw (hinv.doneIdle hd) (hinv.readyLen hready)
    rw [exec_airqSwap_of_request (irqReq_A_iff.mpr ⟨hd, hie⟩) hh, hready, if_pos rfl, hstart]
    rfl
  · rw [exec_airqSwap_of_request (irqReq_A_iff.mpr ⟨hd, hie⟩) hh, hready]
    rfl
  · rcases hoff with hd | hie | hh
    · exact exec_airqSwap_of_no_request (by simp [State.irqReq, hd])
    · exact exec_airqSwap_of_no_request (by simp [State.irqReq, hie])
    · exact exec_of_halted hh _

end Sys2Proof.Machine
end

section
/-! The rescaler's maps and the source pixels they read (44_display_pipeline R261-R264, R269). -/

namespace Sys2Proof.Machine

open Sys2Proof.Safety

/-- The 32-bit form rounds the scale down first, so it never passes the exact quotient (44_display_pipeline R262). -/
theorem rescale_le (c : Config) (src out r : Nat) : rescale c src out r ≤ r * src / out := by
  have hexact : (r * src * 2 ^ c.frac / out) / 2 ^ c.frac = r * src / out := by
    rw [Nat.div_div_eq_div_mul, Nat.mul_div_mul_right _ _ (by positivity)]
  simp only [rescale, scale, Nat.shiftLeft_eq, Nat.shiftRight_eq_div_pow]
  split
  · exact hexact.le
  · calc r * (src * 2 ^ c.frac / out) / 2 ^ c.frac
      _ ≤ r * (src * 2 ^ c.frac) / out / 2 ^ c.frac := Nat.div_le_div_right (Nat.mul_div_le_mul_div_assoc ..)
      _ = r * src / out := by rw [← Nat.mul_assoc, hexact]

theorem rescale_lt (c : Config) {src out r : Nat} (hsrc : 0 < src) (hr : r < out) : rescale c src out r < src :=
  (rescale_le c src out r).trans_lt (Nat.div_lt_of_lt_mul (Nat.mul_lt_mul_of_pos_right hr hsrc))

theorem rescale_mono (c : Config) (src out : Nat) {r r' : Nat} (h : r ≤ r') :
    rescale c src out r ≤ rescale c src out r' := by
  simp only [rescale, Nat.shiftLeft_eq, Nat.shiftRight_eq_div_pow]
  split <;> gcongr

/-- In a stretch no longer than the address space every offset is its own distance from the base. -/
theorem within_add_ofNat (a : Word) {n k : Nat} (hn : n ≤ 2 ^ 32) (hk : k < n) :
    Within (a + BitVec.ofNat 32 k) a n := by
  rw [Within, off_toNat a k (hk.trans_le hn)]
  exact hk

/-- Both bytes of a pixel of the source lie inside its snapshot slot (44_display_pipeline R269). -/
theorem pixelAddr_within {c : Config} (hw : c.WellFormed) (k : Bool) {x y : Nat} (hx : x < c.srcW) (hy : y < c.srcH) :
    Within (pixelAddr c k x y) (snapAddr c k) (2 * c.srcW * c.srcH) ∧
    Within (pixelAddr c k x y + 1#32) (snapAddr c k) (2 * c.srcW * c.srcH) := by
  have hsize : 2 * c.srcW * c.srcH ≤ 2 ^ 32 := le_of_add_le_right (hw.snap_inside k)
  have hrow : (y + 1) * c.srcW ≤ c.srcH * c.srcW := Nat.mul_le_mul_right _ hy
  have hoff : 2 * (y * c.srcW + x) + 1 < 2 * c.srcW * c.srcH := by linarith
  refine ⟨within_add_ofNat _ hsize (Nat.lt_of_succ_lt hoff), ?_⟩
  rw [pixelAddr, add_ofNat]
  exact within_add_ofNat _ hsize hoff

/-- Settles O35, by `rescale_lt` and `rescale_mono` for the rows and the columns. -/
theorem rescaleInRangeAndMonotone : Obligations.RescaleInRangeAndMonotone := by
  intro c hw
  have hrow : ∀ r, r < c.outH → srow c r < c.srcH := fun r => rescale_lt c hw.srcH_pos.1
  have hcol : ∀ x, x < c.outW → scol c x < c.srcW := fun x => rescale_lt c hw.srcW_pos.1
  exact ⟨hrow, hcol, fun _ _ => rescale_mono c _ _, fun _ _ => rescale_mono c _ _,
    fun k r x hr hx => pixelAddr_within hw k (hcol x hx) (hrow r hr)⟩

end Sys2Proof.Machine
end

section
/-! The colour conversion (44_display_pipeline R266-R268). -/

namespace Sys2Proof.Machine

/-- The 4 bits of a channel stand above the one bit that replicates them. -/
theorem expand5_high : ∀ x : BitVec 4, (expand5 x).extractLsb' 1 4 = x := by decide

/-- The 4 bits of a channel stand above the two bits that replicate them. -/
theorem expand6_high : ∀ x : BitVec 4, (expand6 x).extractLsb' 2 4 = x := by decide

/-- The shifts of 44_display_pipeline R266 put the three fields side by side. -/
theorem rgb565_eq_append (r g b : BitVec 4) : rgb565 r g b = expand5 r ++ expand6 g ++ expand5 b := by
  have hfields := BitVec.setWidth_append_append_eq_shiftLeft_setWidth_or (w''' := 16)
    (b := expand5 r) (b' := expand6 g) (b'' := expand5 b)
  exact hfields.symm.trans (BitVec.setWidth_eq _)

theorem rgb565_red (r g b : BitVec 4) : (rgb565 r g b).extractLsb' 12 4 = r := by
  rw [rgb565_eq_append, BitVec.extractLsb'_append_eq_of_le (by decide), BitVec.extractLsb'_append_eq_of_le (by decide)]
  exact expand5_high r

theorem rgb565_green (r g b : BitVec 4) : (rgb565 r g b).extractLsb' 7 4 = g := by
  rw [rgb565_eq_append, BitVec.extractLsb'_append_eq_of_le (by decide),
    BitVec.extractLsb'_append_eq_of_add_le (by decide)]
  exact expand6_high g

theorem rgb565_blue (r g b : BitVec 4) : (rgb565 r g b).extractLsb' 1 4 = b := by
  rw [rgb565_eq_append, BitVec.extractLsb'_append_eq_of_add_le (by decide)]
  exact expand5_high b

theorem rgb565_injective {r g b r' g' b' : BitVec 4} (h : rgb565 r g b = rgb565 r' g' b') :
    r = r' ∧ g = g' ∧ b = b' :=
  ⟨by rw [← rgb565_red r g b, h, rgb565_red], by rw [← rgb565_green r g b, h, rgb565_green],
    by rw [← rgb565_blue r g b, h, rgb565_blue]⟩

/-- Every nibble but the lowest, alpha's in the default layout, lies in the high 12 bits (44_display_pipeline R268). -/
theorem nibble_eq_high (pix : HalfWord) {i : Fin 4} (hi : 1 ≤ i.val) :
    nibble pix i = (pix.extractLsb' 4 12).extractLsb' (4 * (i.val - 1)) 4 := by
  ext j hj
  have hbit : 4 + (4 * (i.val - 1) + j) = 4 * i.val + j := by omega
  have hin : 4 * (i.val - 1) + j < 12 := by omega
  simp only [nibble, BitVec.getElem_extractLsb', BitVec.getLsbD_extractLsb', hbit, hin, decide_true, Bool.true_and]

/-- Settles O36: a channel is read back from its field, which gives injectivity, and no colour channel is alpha's. -/
theorem colourConversion : Obligations.ColourConversion := by
  refine ⟨fun r g b => ⟨rgb565_red r g b, rgb565_green r g b, rgb565_blue r g b⟩,
    fun r g b r' g' b' => rgb565_injective, rfl, rfl, rfl, rfl, rfl, rfl, fun pix pix' h => ?_⟩
  have hsame : ∀ i : Fin 4, 1 ≤ i.val → nibble pix i = nibble pix' i := fun i hi => by
    rw [nibble_eq_high pix hi, nibble_eq_high pix' hi, h]
  rw [pixelColour, pixelColour, hsame _ (by decide), hsame _ (by decide), hsame _ (by decide)]

end Sys2Proof.Machine
end

section
/-! SEND_FRAME and the scanline sequencer's SF_TAKE, SF_START and SF_FINISH (44_display_pipeline R270-R275). -/

namespace Sys2Proof.Machine

open Sys2Proof.Safety

/-- A guarded step whose guard holds runs. -/
theorem await_of_enabled {c : Bool} {s : State} {k : Except Fault State} (h : c = true) :
    await c s k = attempt s k :=
  if_pos h

/-- A guarded step whose guard fails changes nothing. -/
theorem await_of_not_enabled {c : Bool} {s : State} {k : Except Fault State} (h : ¬ c = true) :
    await c s k = .next s :=
  if_neg h

/-- 44_display_pipeline R270: on an initialised channel SEND_FRAME does nothing but wait for a frame. -/
theorem exec_sendFrame_of_inited {s : State} (hr : Ran .p1 s) (hi : s.chanV.inited = true) :
    exec .sendFrame s = .next { s with video := { s.video with cphase := .wait } } :=
  command_needInit_of_inited (ch := .V) _ hr hi

/-- Settles O37: the two issue checks on channel V, initialised or not. -/
theorem sendFrameWaits : Obligations.SendFrameWaits := by
  intro s hb hh
  have hr : Ran .p1 s := ⟨hb, hh⟩
  refine ⟨exec_sendFrame_of_inited hr, fun hi t h => ?_, command_before_init (ch := .V) _ hr, rfl, rfl, rfl⟩
  rw [exec_sendFrame_of_inited hr hi] at h
  cases h; rfl

/-- Settles O38, by the guard of SF_TAKE: it holds, or one of its four conditions fails. -/
theorem sfTakeRule : Obligations.SfTakeRule := by
  refine fun s => ⟨fun hc hf hp hh => ?_, fun hoff => ?_, rfl⟩
  · exact await_of_enabled (by simp [hc, hf, hp, hh])
  · rcases hoff with h | h | h | h <;> exact await_of_not_enabled (by simp [h])

/-- 44_display_pipeline R274: the idle engine takes a row from any address, and a row is never empty. -/
theorem dmaStart_V_of_idle {c : Config} (hw : c.WellFormed) {s : State} (hb : s.chanV.dmaBusy = false) (addr : Word) :
    dmaStart .V addr (BitVec.ofNat 32 (slSize c)) s = .ok { s with chanV := { s.chanV with
      dmaAddr := addr, dmaCount := BitVec.ofNat 32 (slSize c), dmaDone := false, dmaBusy := true } } := by
  have hcount := ofNat_slSize_ne_zero hw
  rw [dmaStart_of_idle (ch := .V) hb (Nat.mod_one _), decide_eq_false hcount, decide_eq_true hcount]
  rfl

/-- Settles O40: the guard of SF_START leaves the engine idle, so the start raises no fault. -/
theorem sfStartRule : Obligations.SfStartRule := by
  refine fun s hw => ⟨fun hc hb hh => ?_, fun hoff => ?_, rfl⟩
  · rw [← rowParity_eq]
    refine (await_of_enabled (by simp [hc, hb, hh])).trans ?_
    rw [dmaStart_V_of_idle hw, attempt_ok]
    · rfl
    · exact hb
  · rcases hoff with h | h | h <;> exact await_of_not_enabled (by simp [h])

/-- Settles O41, by the guard of SF_FINISH; C_IDLE is what frees port 1. -/
theorem sfFinishRule : Obligations.SfFinishRule := by
  refine fun s => ⟨fun hc hb hh => ?_, fun hoff => ?_, rfl⟩
  · have hrun : exec .sfFinish s =
        .next { s with video := { s.video with pending := s.video.fresh, cphase := .idle } } :=
      await_of_enabled (by simp [hc, hb, hh])
    refine ⟨hrun, fun t h => ?_⟩
    rw [hrun] at h
    cases h; rfl
  · rcases hoff with h | h | h <;> exact await_of_not_enabled (by simp [h])

end Sys2Proof.Machine
end

section
/-! The frame handoff: RENDER_FRAME, RF_COPY and RF_PUBLISH, and the slot being read kept apart from the slot being
written (45_frame_handoff R301-R306). -/

namespace Sys2Proof.Machine

open Sys2Proof.Safety

/-- 10_state R33: a busy port holds its writer, so the command does not run. -/
theorem command_of_busy {p : Port} {s : State} (h : s.busy p = true) (k : Except Fault State) :
    command p s k = .next s :=
  if_pos h

/-- 10_state R33: port 0 is busy exactly while the producer renders. -/
theorem busy_p0_iff {s : State} : s.busy .p0 = true ↔ s.video.pphase ≠ .idle := decide_eq_true_iff

theorem busy_p0_of_idle {s : State} (h : s.video.pphase = .idle) : s.busy .p0 = false := by simp [State.busy, h]

/-- 45_frame_handoff R302: every byte is read before any is written, so the copy gets the source as it stood, even
where the two stretches overlap. -/
theorem Memory.read_copy_at {m : Memory} (hm : m.wf = true) (dst src : Word) {n j : Nat} (hn : n ≤ 2 ^ 32) (hj : j < n) :
    (m.writeBytes dst (m.readBytes src n)).read (dst + BitVec.ofNat 32 j) = m.read (src + BitVec.ofNat 32 j) := by
  have hoff := off_toNat dst j (hj.trans_le hn)
  have hlen : (dst + BitVec.ofNat 32 j - dst).toNat < (m.readBytes src n).length := by
    rw [hoff, Memory.length_readBytes]; exact hj
  rw [Memory.read_writeBytes_of_lt hm (by rwa [Memory.length_readBytes]) hlen, Memory.getElem_readBytes, hoff]

/-- A copy changes no byte outside its destination. -/
theorem Memory.read_copy_of_not_within {m : Memory} (hm : m.wf = true) {dst src a : Word} {n : Nat} (hn : n ≤ 2 ^ 32)
    (ha : ¬ Within a dst n) : (m.writeBytes dst (m.readBytes src n)).read a = m.read a := by
  refine Memory.read_writeBytes_of_ge hm ?_ ?_ <;> rw [Memory.length_readBytes]
  · exact hn
  · exact not_lt.mp ha

theorem snapSize_le {c : Config} (hw : c.WellFormed) : snapSize c ≤ 2 ^ 32 := le_of_add_le_right (hw.snap_inside false)

section RenderFrame

variable {s : State} (hr : Ran .p0 s) (hi : s.chanV.inited = true)
include hr hi

/-- 45_frame_handoff R301: a null framebuffer is a no-op. -/
theorem exec_renderFrame_of_null (h : s.port0.arg0 = 0#32) : exec .renderFrame s = .next s := by
  refine (command_needInit_of_inited (ch := .V) _ hr hi).trans ?_
  rw [if_pos h, attempt_ok]

/-- 45_frame_handoff R301: the render's slot is the one the consumer does not read. -/
theorem exec_renderFrame_of_framebuffer (h : s.port0.arg0 ≠ 0#32) : exec .renderFrame s = .next { s with
    video := { s.video with rfSrc := s.port0.arg0, wrSlot := !s.video.consSlot, pphase := .copy } } := by
  refine (command_needInit_of_inited (ch := .V) _ hr hi).trans ?_
  rw [if_neg h, attempt_ok]

end RenderFrame

theorem exec_rfCopy_of_copy {s : State} (hp : s.video.pphase = .copy) (hh : s.halted = false) :
    exec .rfCopy s = .next { s with
      mem := s.mem.writeBytes (snapAddr s.cfg s.video.wrSlot) (s.mem.readBytes s.video.rfSrc (snapSize s.cfg))
      video := { s.video with pphase := .publish } } :=
  await_of_enabled (by simp [hp, hh])

theorem exec_rfPublish_of_publish {s : State} (hp : s.video.pphase = .publish) (hh : s.halted = false) :
    exec .rfPublish s = .next { s with video := { s.video with
      pubSlot := s.video.wrSlot, fresh := true, pending := true, pphase := .idle } } :=
  await_of_enabled (by simp [hp, hh])

/-- 44_display_pipeline R272: no frame is taken while a copy is in progress. -/
theorem exec_sfTake_of_copying {s : State} (h : s.copying = true) : exec .sfTake s = .next s := by
  have hp : s.video.pphase ≠ .idle := of_decide_eq_true h
  exact await_of_not_enabled (by simp [hp])

/-- Who moves the two sides of the handoff: only a producer's instruction changes its phase, and the slot read changes
only by SF_TAKE in `C_WAIT` or by the one INIT V that runs. -/
theorem exec_pphase_and_consSlot {i : Instr} {s t : State} (h : exec i s = .next t) :
    (t.video.pphase = s.video.pphase ∨ i ∈ [.renderFrame, .rfCopy, .rfPublish]) ∧
    (t.video.consSlot = s.video.consSlot ∨ (i = .sfTake ∧ s.video.cphase = .wait) ∨
      (i = .init .V ∧ s.chanV.inited = false)) := by
  replace h := exec_cases h
  cases h with
  | render _ _ _ h | copy _ _ h | publish _ _ h => subst h; exact ⟨.inr (by decide), .inl rfl⟩
  | take hc _ _ _ h => subst h; exact ⟨.inl rfl, .inr (.inl ⟨rfl, hc⟩)⟩
  | initV _ hn h => subst h; exact ⟨.inl rfl, .inr (.inr ⟨rfl, hn⟩)⟩
  | queueIdle _ _ _ _ _ h => rw [(swapAndStart_ok h).2]; exact ⟨.inl rfl, .inl rfl⟩
  | airqRestart _ _ _ h => rw [(swapAndStart_ok h).2]; exact ⟨.inl rfl, .inl rfl⟩
  | sfStart _ _ _ h => obtain ⟨-, -, rfl⟩ := dmaStart_ok h; exact ⟨.inl rfl, .inl rfl⟩
  | beat ch _ h | stop ch _ _ h => subst h; cases ch <;> exact ⟨.inl rfl, .inl rfl⟩
  | start ch _ _ h =>
    obtain ⟨a, b, c, hst⟩ := startChan_fields ch s
    rw [h, hst]; exact ⟨.inl (by simp), .inl (by simp)⟩
  | same _ h | refused _ _ _ h | queueFault _ _ _ _ _ h | airqFault _ _ _ _ h | initA _ _ h | queueBusy _ _ _ _ _ h
  | bufferReady _ _ h | send _ _ h | emitA _ _ _ _ _ h | emitV _ _ _ _ _ h | silence _ _ _ h | airqIdle _ _ _ h
  | build _ _ h | finish _ _ _ h => subst h; exact ⟨.inl rfl, .inl rfl⟩

/-- 45_frame_handoff R305: the slot read stays the same slot, for a frame is consumed neither in `C_WAIT` nor before
INIT V. -/
theorem exec_keeps_consSlot {i : Instr} {s t : State} (hi : VideoInv s) (hc : s.consuming = true)
    (h : exec i s = .next t) : t.video.consSlot = s.video.consSlot := by
  rcases (exec_pphase_and_consSlot h).2 with hsame | ⟨-, hwait⟩ | ⟨-, hn⟩
  · exact hsame
  · exact absurd hc (by simp [consuming_eq_false (.inr hwait)])
  · exact absurd hc (by simp [consuming_eq_false (.inl (hi.uninit hn).2)])

/-- 45_frame_handoff R305: the producer copies into the other slot than the one a frame is consumed from. -/
theorem rfCopy_keeps_read_slot {s t : State} (hs : Sound s) (hi : VideoInv s) (hc : s.consuming = true)
    (h : exec .rfCopy s = .next t) {a : Word} (ha : Within a (snapAddr s.cfg s.video.consSlot) (snapSize s.cfg)) :
    t.mem.read a = s.mem.read a := by
  replace h := exec_cases h
  cases h with
  | same _ h | refused _ _ _ h => subst h; rfl
  | copy hp _ h =>
    subst h
    have hne : s.video.wrSlot ≠ s.video.consSlot := hi.slots (copying_of_ne_idle (by simp [hp])) hc
    refine Memory.read_copy_of_not_within hs.memory (snapSize_le hs.config) ?_
    rw [Bool.eq_not.mpr hne]
    exact snap_not_other hs.config ha

/-- Settles O45: the copy's two memory laws, or a guard that fails. -/
theorem rfCopyRule : Obligations.RfCopyRule := by
  refine fun s hs => ⟨fun hp hh => ?_, fun hoff => ?_, rfl⟩
  · have hn := snapSize_le hs.config
    exact ⟨_, exec_rfCopy_of_copy hp hh, fun j hj => Memory.read_copy_at hs.memory _ _ hn hj,
      fun a ha => Memory.read_copy_of_not_within hs.memory hn ha, rfl⟩
  · rcases hoff with h | h <;> exact await_of_not_enabled (by simp [h])

/-- Settles O47: by `VideoInv` the slot copied into is never the slot read, and the slot read stays put. -/
theorem neverReadMidWrite : Obligations.NeverReadMidWrite := by
  refine ⟨fun s hi hbuild hcopy => hi.slots hcopy ?_, fun s t hs hi hc h a ha => rfCopy_keeps_read_slot hs hi hc h ha,
    fun s => exec_sfTake_of_copying, fun i s t => exec_keeps_consSlot⟩
  simp [State.consuming, hbuild]

/-- Settles O49: the guards of the three producer instructions name the producer alone. -/
theorem producerNeverWaitsForConsumer : Obligations.ProducerNeverWaitsForConsumer := by
  refine ⟨fun s hh hi hp ha => ?_, fun s hh hp => ?_, fun i s t h hrender hcopy hpublish => ?_, fun s => busy_p0_iff,
    fun s t hp h => ?_⟩
  · exact ⟨_, exec_renderFrame_of_framebuffer ⟨busy_p0_of_idle hp, hh⟩ hi ha, hh, rfl⟩
  · exact ⟨_, exec_rfCopy_of_copy hp hh, hh, rfl, _, exec_rfPublish_of_publish rfl hh, rfl⟩
  · exact (exec_pphase_and_consSlot h).1.resolve_right (by simp [hrender, hcopy, hpublish])
  · have hheld : exec .renderFrame s = .next s := command_of_busy (busy_p0_iff.mpr hp) _
    rw [hheld] at h
    cases h; rfl

/-- Settles O44, by the framebuffer pointer, null or not, and the issue check on channel V. -/
theorem renderFrameBeginsCopy : Obligations.RenderFrameBeginsCopy := by
  intro s hb hh
  have hr : Ran .p0 s := ⟨hb, hh⟩
  exact ⟨exec_renderFrame_of_null hr, exec_renderFrame_of_framebuffer hr, command_before_init (ch := .V) _ hr, rfl, rfl,
    rfl⟩

/-- Settles O46, by the guard of RF_PUBLISH. -/
theorem rfPublishRule : Obligations.RfPublishRule := by
  refine fun s => ⟨exec_rfPublish_of_publish, fun hoff => ?_, rfl⟩
  rcases hoff with h | h <;> exact await_of_not_enabled (by simp [h])

end Sys2Proof.Machine
end

section
/-! The fatal halt (60_exceptions R333): what still moves of a halted block. -/

namespace Sys2Proof.Machine

/-- A fault recorded in a halted block adds its code to `FAULTS` alone. -/
theorem raise_of_halted {s : State} (h : s.halted = true) (f : Fault) :
    s.raise f = { s with faults := s.faults ||| f.bit } := by
  simp [State.raise, h]

/-- 60_exceptions R333: until a reset, a step of a halted block changes at most the outside world, memory, the port
registers and the recorded codes. -/
theorem step_of_halted {s t : State} (hh : s.halted = true) (h : step s = .next t) (hr : nextTurn s ≠ .rst) :
    ∃ e m p0 p1 fs, t = { s with env := e, mem := m, port0 := p0, port1 := p1, faults := fs } := by
  have halted_of {s0 : State} (h0 : SameBlock s s0) : s0.halted = true := by obtain ⟨e, rfl⟩ := h0.exists; exact hh
  cases (step_cases h).2 with
  | idle h => exact ⟨_, _, _, _, _, h⟩
  | raised f _ h =>
    rw [raise_of_halted hh] at h
    exact ⟨_, _, _, _, _, h⟩
  | ran i s0 h0 _ h =>
    rw [exec_of_halted (halted_of h0)] at h
    cases h; exact ⟨_, _, _, _, _, h0⟩
  | wrote s0 h0 off v h =>
    obtain ⟨p0, p1, hw⟩ := writeReg_fields s0 off v
    obtain ⟨e, rfl⟩ := h0.exists
    exact ⟨_, _, _, _, _, h.trans hw⟩
  | stored s0 h0 _ _ _ _ _ _ _ h => obtain ⟨e, rfl⟩ := h0.exists; exact ⟨_, _, _, _, _, h⟩
  | clocked s0 h0 _ h => exact ⟨_, _, _, _, _, (h.trans (clkEdge_of_halted (halted_of h0))).trans h0⟩
  | reset e ht => exact absurd ht hr

/-- 10_state R59: an `ARG` register reads back what was written to it. -/
theorem readReg_writeReg_arg {off : BitVec 8} (h : off ∈ [0x00#8, 0x04#8, 0x10#8, 0x14#8]) (s : State) (v : Word) :
    readReg (writeReg s off v) off = v := by
  simp only [List.mem_cons, List.not_mem_nil, or_false] at h
  rcases h with rfl | rfl | rfl | rfl <;> rfl

theorem arg_aligned_and_not_cmd {off : BitVec 8} (h : off ∈ [0x00#8, 0x04#8, 0x10#8, 0x14#8]) :
    off.toNat % 4 = 0 ∧ off ∉ [0x08#8, 0x18#8] := by
  simp only [List.mem_cons, List.not_mem_nil, or_false] at h
  rcases h with rfl | rfl | rfl | rfl <;> decide

/-- Settles O8: `exec`, the clock and the issue of a command each stand still on a halted block, a step moves no more
than `step_of_halted` says, and the reset state is not halted. -/
theorem haltedBlockStandsStill : Obligations.HaltedBlockStandsStill := by
  refine ⟨State.raise_halted, fun s hh => ⟨exec_of_halted hh, clkEdge_of_halted hh, ?bit31, ?step, ?reset, ?access⟩⟩
  case bit31 => rw [getLsbD_faultWord]; simp [hh]
  case step =>
    intro t h hr
    obtain ⟨e, m, p0, p1, fs, rfl⟩ := step_of_halted hh h hr
    exact ⟨hh, fun p => by cases p <;> rfl, rfl, rfl, rfl⟩
  case reset =>
    intro t h hr
    obtain ⟨e, rfl⟩ := step_of_rst h hr
    rfl
  case access =>
    intro hw p rest more hs u
    refine ⟨fun q w hp hb => ?_, fun off hp ha => step_of_read hw hs ha hp, fun off v hp harg => ?_⟩
    · rw [step_of_cmd_write hw hs hp hb, issue_of_halted (by simp [hh])]
    · obtain ⟨ha, hcmd⟩ := arg_aligned_and_not_cmd harg
      exact ⟨_, step_of_write hw hs ha hp hcmd, readReg_writeReg_arg harg u v⟩

end Sys2Proof.Machine
end

section
/-! A raised fault cancels its step (60_exceptions R331). -/

namespace Sys2Proof.Machine

/-- 60_exceptions R331: an instruction records a fault and does nothing else, or leaves the fault flags alone. -/
theorem exec_raises_or_keeps_faults {i : Instr} {s t : State} (h : exec i s = .next t) :
    (∃ f, t = s.raise f) ∨ (t.faults = s.faults ∧ t.halted = s.halted) := by
  replace h := exec_cases h
  cases h with
  | refused _ f _ h | queueFault _ _ _ f _ h | airqFault _ _ f _ h => exact .inl ⟨f, h⟩
  | start ch _ _ h =>
    obtain ⟨a, b, c, hst⟩ := startChan_fields ch s
    rw [h, hst]; exact .inr (by simp)
  | stop ch _ _ h => subst h; exact .inr (by simp [stopChan])
  | beat ch _ h => subst h; cases ch <;> exact .inr ⟨rfl, rfl⟩
  | queueIdle _ _ _ _ _ h | airqRestart _ _ _ h => rw [(swapAndStart_ok h).2]; exact .inr ⟨rfl, rfl⟩
  | sfStart _ _ _ h => obtain ⟨-, -, rfl⟩ := dmaStart_ok h; exact .inr ⟨rfl, rfl⟩
  | same _ h | initA _ _ h | initV _ _ h | queueBusy _ _ _ _ _ h | bufferReady _ _ h | render _ _ _ h | send _ _ h
  | emitA _ _ _ _ _ h | emitV _ _ _ _ _ h | silence _ _ _ h | airqIdle _ _ _ h | copy _ _ h | publish _ _ h
  | take _ _ _ _ h | build _ _ h | finish _ _ _ h => subst h; exact .inr ⟨rfl, rfl⟩

theorem exec_raises {i : Instr} {s t : State} (h : exec i s = .next t) (hf : t.faults ≠ s.faults) :
    ∃ f, t = s.raise f :=
  (exec_raises_or_keeps_faults h).resolve_right fun hkeep => hf hkeep.1

/-- 60_exceptions R333: the one fault that halts is NO_DMA_CHANNEL. -/
theorem eq_noDmaChannel_of_halts {s : State} {f : Fault} (h : (s.raise f).halted ≠ s.halted) : f = .noDmaChannel := by
  by_contra hne
  simp [hne] at h

theorem State.raise_raise (s : State) (f : Fault) : (s.raise f).raise f = s.raise f := by
  simp [State.raise, BitVec.or_assoc]

@[simp] theorem State.prog_raise (s : State) (f : Fault) (p : Port) : (s.raise f).prog p = s.prog p := by cases p <;> rfl

@[simp] theorem State.prog_giveBack (s : State) (q p : Port) (v : Word) : (s.giveBack q v).prog p = s.prog p := by
  cases q <;> cases p <;> rfl

/-- The issue of a command records its fault, of the issue checks or of the command, and does nothing else. -/
theorem issue_raises {q : Port} {w : Word} {s t : State} (h : issue q w s = .next t) (hf : t.faults ≠ s.faults) :
    ∃ f, t = s.raise f := by
  unfold issue at h
  split at h
  · cases h; exact absurd rfl hf
  split at h
  · cases h; exact ⟨.illegalCmd, rfl⟩
  split at h
  · exact exec_raises h hf
  · cases h; exact ⟨.illegalPort, rfl⟩

/-- A core's access records its fault, and besides at most returns a word to the core. -/
theorem access_raises {p : Port} {a : Access} {s t : State} (h : access p s a = .next t) (hf : t.faults ≠ s.faults) :
    ∃ f, SameBlock (s.raise f) t ∧ t.prog p = s.prog p := by
  cases a with
  | load addr w => cases h; simp at hf
  | store addr w v => cases h; exact absurd rfl hf
  | read off w =>
    simp only [access] at h
    split at h <;> cases h
    · simp at hf
    · exact ⟨.badAccess, sameBlock_giveBack _ _ _, by simp⟩
  | write off w v =>
    simp only [access] at h
    split at h
    case isFalse => cases h; exact ⟨.badAccess, .refl _, State.prog_raise s _ p⟩
    split at h
    · obtain ⟨f, rfl⟩ := issue_raises h hf
      exact ⟨f, .refl _, State.prog_raise s f p⟩
    · obtain ⟨p0, p1, hw⟩ := writeReg_fields s off v
      rw [hw] at h; cases h; exact absurd rfl hf

/-- A core whose access raised a fault is not held on it: the access is over. -/
theorem coreTurn_raises {p : Port} {s t : State} (h : coreTurn p s = .next t) (hf : t.faults ≠ s.faults) :
    ∃ f, SameBlock (s.raise f) t ∧ t.prog p = (s.prog p).tail := by
  unfold coreTurn at h
  split at h
  · cases h; exact absurd rfl hf
  rename_i a rest hp
  split at h
  · cases h; exact absurd rfl hf
  obtain ⟨f, hblock, hprog⟩ := access_raises h (by simpa using hf)
  exact ⟨f, ((sameBlock_setProg s p rest).raise f).trans hblock, by simp [hprog, hp]⟩

theorem eventTurn_raises {code : Word} {s t : State} (h : eventTurn code s = .next t) (hf : t.faults ≠ s.faults) :
    ∃ f, t = s.raise f := by
  unfold eventTurn at h
  split at h
  · split at h
    · exact exec_raises h hf
    · cases h
  · cases h

/-- 60_exceptions R331: a step that records a fault changes nothing else of the block, and its core's access is over. -/
theorem step_raises {s t : State} (h : step s = .next t) (hr : nextTurn s ≠ .rst) (hf : t.faults ≠ s.faults) :
    (∃ f, SameBlock (s.raise f) t) ∧ ∀ p, nextTurn s = .core p → t.prog p = (s.prog p).tail := by
  have h0 : SameBlock s (afterTurn s) := sameBlock_afterTurn s
  have hf0 : t.faults ≠ (afterTurn s).faults := by rw [h0]; exact hf
  rw [step, if_pos (step_cases h).1] at h
  cases ht : nextTurn s with
  | core p =>
    rw [ht] at h
    obtain ⟨f, hblock, hprog⟩ := coreTurn_raises h hf0
    refine ⟨⟨f, (h0.raise f).trans hblock⟩, ?_⟩
    rintro _ ⟨⟩
    simpa using hprog
  | event code =>
    rw [ht] at h
    obtain ⟨f, rfl⟩ := eventTurn_raises h hf0
    exact ⟨⟨f, h0.raise f⟩, nofun⟩
  | clk =>
    rw [ht] at h
    obtain ⟨a, b, c, d, e, g, k, hclk, -, -⟩ := clkEdge_fields (afterTurn s)
    rw [turn, hclk] at h; cases h; exact absurd rfl hf0
  | rst => exact absurd ht hr

/-- Settles O9: `exec_raises_or_keeps_faults` for the instructions, `step_raises` for the steps. -/
theorem faultCancelsItsStep : Obligations.FaultCancelsItsStep := by
  refine ⟨fun s f => rfl, fun i s t h => ⟨exec_raises h, fun hh => ?_⟩, State.raise_raise, fun s t => step_raises⟩
  obtain ⟨f, rfl⟩ := (exec_raises_or_keeps_faults h).resolve_right fun hkeep => hh hkeep.2
  rw [eq_noDmaChannel_of_halts hh]

end Sys2Proof.Machine
end

section
/-! INIT, START and STOP of one channel and what they leave of the other (70_reset_and_hazards R374). -/

namespace Sys2Proof.Machine

open Sys2Proof.Safety

/-- Channel V is as it was: its fields, pins and stream, and in a configuration that runs every byte of its
buffers. -/
structure DisplayStands (s t : State) : Prop where
  chan : t.chanV = s.chanV
  fifo : t.fifoV = s.fifoV
  tg : t.tgV = s.tgV
  out : t.outV = s.outV
  video : t.video = s.video
  sck : t.pins.lcdSck = s.pins.lcdSck
  mosi : t.pins.lcdMosi = s.pins.lcdMosi
  buffers : s.cfg.WellFormed → ∀ a k,
    Within a (slAddr s.cfg k) (slSize s.cfg) ∨ Within a (snapAddr s.cfg k) (snapSize s.cfg) →
      t.mem.read a = s.mem.read a

/-- Channel A is as it was: its fields, pins and stream, and in a configuration that runs every byte of its
buffers. -/
structure AudioStands (s t : State) : Prop where
  chan : t.chanA = s.chanA
  fifo : t.fifoA = s.fifoA
  tg : t.tgA = s.tgA
  out : t.outA = s.outA
  ring : t.ring = s.ring
  bck : t.pins.audBck = s.pins.audBck
  ws : t.pins.audWs = s.pins.audWs
  dout : t.pins.audDout = s.pins.audDout
  buffers : s.cfg.WellFormed → ∀ a k, Within a (abufAddr s.cfg k) (abufSize s.cfg) → t.mem.read a = s.mem.read a

theorem DisplayStands.refl (s : State) : DisplayStands s s :=
  ⟨rfl, rfl, rfl, rfl, rfl, rfl, rfl, fun _ _ _ _ => rfl⟩

theorem AudioStands.refl (s : State) : AudioStands s s :=
  ⟨rfl, rfl, rfl, rfl, rfl, rfl, rfl, rfl, fun _ _ _ _ => rfl⟩

/-- 60_exceptions R331: taking a fault touches neither channel. -/
theorem raise_displayStands (s : State) (f : Fault) : DisplayStands s (s.raise f) :=
  ⟨rfl, rfl, rfl, rfl, rfl, rfl, rfl, fun _ _ _ _ => rfl⟩

theorem raise_audioStands (s : State) (f : Fault) : AudioStands s (s.raise f) :=
  ⟨rfl, rfl, rfl, rfl, rfl, rfl, rfl, rfl, fun _ _ _ _ => rfl⟩

theorem Memory.read_zero_of_not_within {m : Memory} {a base : Word} {n : Nat} (h : ¬ Within a base n) :
    (m.zero base n).read a = m.read a := by
  rw [Memory.read_zero, if_neg h]

/-- 40_channel_control R142: INIT A zeroes the two Sample Buffers and no other byte. -/
theorem read_initA_of_not_within {s : State} {a : Word}
    (h : ∀ j, ¬ Within a (abufAddr s.cfg j) (abufSize s.cfg)) : (initA s).mem.read a = s.mem.read a :=
  (Memory.read_zero_of_not_within (h true)).trans (Memory.read_zero_of_not_within (h false))

/-- 40_channel_control R142: INIT V zeroes the Scanline Buffers and the snapshot slots and no other byte. -/
theorem read_initV_of_not_within {s : State} {a : Word} (hsl : ∀ j, ¬ Within a (slAddr s.cfg j) (slSize s.cfg))
    (hsnap : ∀ j, ¬ Within a (snapAddr s.cfg j) (snapSize s.cfg)) : (initV s).mem.read a = s.mem.read a :=
  calc (initV s).mem.read a
    _ = (((s.mem.zero s.cfg.sl0 _).zero s.cfg.sl1 _).zero s.cfg.snap0 _).read a :=
        Memory.read_zero_of_not_within (hsnap true)
    _ = ((s.mem.zero s.cfg.sl0 _).zero s.cfg.sl1 _).read a := Memory.read_zero_of_not_within (hsnap false)
    _ = (s.mem.zero s.cfg.sl0 _).read a := Memory.read_zero_of_not_within (hsl true)
    _ = s.mem.read a := Memory.read_zero_of_not_within (hsl false)

theorem initA_displayStands (s : State) : DisplayStands s (initA s) := by
  refine ⟨rfl, rfl, rfl, rfl, rfl, rfl, rfl, fun hw a k ha => read_initA_of_not_within fun j hj => ?_⟩
  rcases ha with hsl | hsnap
  · exact abuf_not_sl hw hj hsl
  · exact abuf_not_snap hw hj hsnap

theorem initV_audioStands (s : State) : AudioStands s (initV s) :=
  ⟨rfl, rfl, rfl, rfl, rfl, rfl, rfl, rfl, fun hw _ _ ha =>
    read_initV_of_not_within (fun _ => abuf_not_sl hw ha) (fun _ => abuf_not_snap hw ha)⟩

theorem startChan_A_displayStands (s : State) : DisplayStands s (startChan .A s) := by
  unfold startChan
  split <;> exact ⟨rfl, rfl, rfl, rfl, rfl, rfl, rfl, fun _ _ _ _ => rfl⟩

theorem startChan_V_audioStands (s : State) : AudioStands s (startChan .V s) := by
  unfold startChan
  split <;> exact ⟨rfl, rfl, rfl, rfl, rfl, rfl, rfl, rfl, fun _ _ _ _ => rfl⟩

theorem stopChan_A_displayStands (s : State) : DisplayStands s (stopChan .A s) :=
  ⟨rfl, rfl, rfl, rfl, rfl, rfl, rfl, fun _ _ _ _ => rfl⟩

theorem stopChan_V_audioStands (s : State) : AudioStands s (stopChan .V s) :=
  ⟨rfl, rfl, rfl, rfl, rfl, rfl, rfl, rfl, fun _ _ _ _ => rfl⟩

/-- INIT, START and STOP of channel A leave channel V alone. -/
theorem exec_displayStands {i : Instr} {s t : State} (h : exec i s = .next t)
    (hi : i = .init .A ∨ i = .start .A ∨ i = .stop .A) : DisplayStands s t := by
  replace h := exec_cases h
  cases h with
  | same _ h => exact h ▸ .refl s
  | refused _ f _ h => exact h ▸ raise_displayStands s f
  | initA _ _ h => exact h ▸ initA_displayStands s
  | start ch _ _ h =>
    obtain rfl : ch = .A := by simpa using hi
    exact h ▸ startChan_A_displayStands s
  | stop ch _ _ h =>
    obtain rfl : ch = .A := by simpa using hi
    exact h ▸ stopChan_A_displayStands s
  | _ => simp at hi

/-- INIT, START and STOP of channel V leave channel A alone. -/
theorem exec_audioStands {i : Instr} {s t : State} (h : exec i s = .next t)
    (hi : i = .init .V ∨ i = .start .V ∨ i = .stop .V) : AudioStands s t := by
  replace h := exec_cases h
  cases h with
  | same _ h => exact h ▸ .refl s
  | refused _ f _ h => exact h ▸ raise_audioStands s f
  | initV _ _ h => exact h ▸ initV_audioStands s
  | start ch _ _ h =>
    obtain rfl : ch = .V := by simpa using hi
    exact h ▸ startChan_V_audioStands s
  | stop ch _ _ h =>
    obtain rfl : ch = .V := by simpa using hi
    exact h ▸ stopChan_V_audioStands s
  | _ => simp at hi

/-- 60_exceptions R333: an instruction that changes `halted` did nothing but raise NO_DMA_CHANNEL. -/
theorem exec_halts {i : Instr} {s t : State} (h : exec i s = .next t) (hh : t.halted ≠ s.halted) :
    t = s.raise .noDmaChannel := by
  obtain ⟨f, rfl⟩ := (exec_raises_or_keeps_faults h).resolve_right fun hkeep => hh hkeep.2
  rw [eq_noDmaChannel_of_halts hh]

/-- Settles O22, by what each of the three commands does to the other channel; INIT zeroes its own channel's buffers,
which overlap no buffer of the other. -/
theorem channelsAreIndependent : Obligations.ChannelsAreIndependent := by
  refine fun i s t h => ⟨fun hi => ?_, fun hi => ?_⟩
  · obtain ⟨hchan, hfifo, htg, hout, hvideo, hsck, hmosi, hbuffers⟩ := exec_displayStands h hi
    exact ⟨hchan, hfifo, htg, hout, hvideo, hsck, hmosi, hbuffers, exec_halts h⟩
  · obtain ⟨hchan, hfifo, htg, hout, hring, hbck, hws, hdout, hbuffers⟩ := exec_audioStands h hi
    exact ⟨hchan, hfifo, htg, hout, hring, hbck, hws, hdout, hbuffers, exec_halts h⟩

end Sys2Proof.Machine
end

section
/-! Quiescence (70_reset_and_hazards R377): which internal steps are still enabled. -/

namespace Sys2Proof.Machine

open Sys2Proof.Safety

theorem exec_dmaBeat_of_idle {ch : Channel} {s : State} (hb : (s.chan ch).dmaBusy = false) :
    exec (.dmaBeat ch) s = .next s :=
  exec_dmaBeat_of_not_enabled fun he => Bool.false_ne_true (hb.symm.trans (busy_of_beatEnabled he))

/-- On a quiet channel A there is no word to send, no transfer in flight and no swap requested. -/
theorem exec_of_quietA {s : State} (h : QuietA s) :
    exec .smEmitA s = .next s ∧ exec (.dmaBeat .A) s = .next s ∧ exec .airqSwap s = .next s := by
  obtain ⟨hb, hq, hf⟩ := h
  exact ⟨exec_smEmitA_of_empty (List.length_eq_zero_iff.mp hf), exec_dmaBeat_of_idle hb,
    exec_airqSwap_of_no_request hq⟩

theorem exec_rfCopy_of_idle {s : State} (h : s.video.pphase = .idle) : exec .rfCopy s = .next s :=
  await_of_not_enabled (by simp [h])

theorem exec_rfPublish_of_idle {s : State} (h : s.video.pphase = .idle) : exec .rfPublish s = .next s :=
  await_of_not_enabled (by simp [h])

/-- 44_display_pipeline R272: a frame is taken by a waiting consumer alone, and only a fresh one. -/
theorem exec_sfTake_of_nothing_to_take {s : State}
    (h : s.video.cphase = .idle ∨ (s.video.cphase = .wait ∧ s.video.fresh = false)) : exec .sfTake s = .next s := by
  rcases h with hc | ⟨-, hf⟩
  · exact await_of_not_enabled (by simp [hc])
  · exact await_of_not_enabled (by simp [hf])

/-- 44_display_pipeline R273-R275: the consumer builds, starts and finishes rows of a frame it has taken alone. -/
theorem exec_row_step_of_not_consuming {s : State} (h : s.video.cphase = .idle ∨ s.video.cphase = .wait) :
    exec .sfBuild s = .next s ∧ exec .sfStart s = .next s ∧ exec .sfFinish s = .next s := by
  refine ⟨await_of_not_enabled ?_, await_of_not_enabled ?_, await_of_not_enabled ?_⟩ <;>
    rcases h with h | h <;> simp [h]

/-- On a quiet channel V there is no byte to send, no transfer in flight, nothing to copy, publish or take and no row
under way. -/
theorem exec_of_quietV {s : State} (h : QuietV s) :
    ∀ i ∈ [.smEmitV, .dmaBeat .V, .rfCopy, .rfPublish, .sfTake, .sfBuild, .sfStart, .sfFinish],
      exec i s = .next s := by
  obtain ⟨hp, hb, hf, hc⟩ := h
  obtain ⟨hbuild, hstart, hfinish⟩ := exec_row_step_of_not_consuming (hc.imp_right And.left)
  simp only [List.forall_mem_cons, List.not_mem_nil, false_imp_iff, implies_true, and_true]
  exact ⟨exec_smEmitV_of_empty (List.length_eq_zero_iff.mp hf), exec_dmaBeat_of_idle hb, exec_rfCopy_of_idle hp,
    exec_rfPublish_of_idle hp, exec_sfTake_of_nothing_to_take hc, hbuild, hstart, hfinish⟩

/-- Settles O59: the internal steps are channel A's three, SM_SILENCE and channel V's eight. -/
theorem quietBlockHasNoStep : Obligations.QuietBlockHasNoStep := by
  refine fun s => ⟨fun ha => ?_, exec_of_quietV, fun ha hv he i hi => ?_⟩
  · obtain ⟨hemit, hbeat, hswap⟩ := exec_of_quietA ha
    exact ⟨hemit, hbeat, hswap, exec_smSilence_of_stopped⟩
  · obtain ⟨hemit, hbeat, hswap⟩ := exec_of_quietA ha
    cases i with
    | smEmitA => exact hemit
    | airqSwap => exact hswap
    | smSilence => exact exec_smSilence_of_stopped he
    | dmaBeat ch =>
      cases ch with
      | A => exact hbeat
      | V => exact exec_of_quietV hv _ (by simp)
    | smEmitV | rfCopy | rfPublish | sfTake | sfBuild | sfStart | sfFinish => exact exec_of_quietV hv _ (by simp)
    | _ => cases hi

end Sys2Proof.Machine
end

section
/-! The decoder on bytes, and the words of the internal steps (30_encoding R110-R116). -/

namespace Sys2Proof

/-- The four bytes of a word put together again are those bytes (20_memory R82). -/
theorem wordBytes_append (b3 b2 b1 b0 : Byte) : wordBytes (b3 ++ b2 ++ b1 ++ b0) = [b0, b1, b2, b3] := by
  have h0 : (b3 ++ b2 ++ b1 ++ b0).extractLsb' 0 8 = b0 := BitVec.extractLsb'_append_eq_right
  have h1 : (b3 ++ b2 ++ b1 ++ b0).extractLsb' 8 8 = b1 := by
    rw [BitVec.extractLsb'_append_eq_of_le (by decide)]
    exact BitVec.extractLsb'_append_eq_right
  have h2 : (b3 ++ b2 ++ b1 ++ b0).extractLsb' 16 8 = b2 := by
    rw [BitVec.extractLsb'_append_eq_of_le (by decide), BitVec.extractLsb'_append_eq_of_le (by decide)]
    exact BitVec.extractLsb'_append_eq_right
  have h3 : (b3 ++ b2 ++ b1 ++ b0).extractLsb' 24 8 = b3 := by
    rw [BitVec.extractLsb'_append_eq_of_le (by decide), BitVec.extractLsb'_append_eq_of_le (by decide)]
    exact BitVec.extractLsb'_append_eq_left
  rw [wordBytes, h0, h1, h2, h3]

/-- Four bytes, the first the least significant, are a word exactly if they are its bytes. -/
theorem append_eq_iff_wordBytes {b3 b2 b1 b0 : Byte} {w : Word} :
    b3 ++ b2 ++ b1 ++ b0 = w ↔ [b0, b1, b2, b3] = wordBytes w := by
  refine ⟨fun h => h ▸ (wordBytes_append b3 b2 b1 b0).symm, fun h => ?_⟩
  simp only [wordBytes, List.cons.injEq] at h
  obtain ⟨rfl, rfl, rfl, rfl, -⟩ := h
  exact Machine.concat_wordBytes w

theorem decode_cons_ok_iff {b0 b1 b2 b3 : Byte} {bs rest : List Byte} {i : Instr} :
    decode (b0 :: b1 :: b2 :: b3 :: bs) = .ok (i, rest) ↔ decodeWord (b3 ++ b2 ++ b1 ++ b0) = .ok i ∧ bs = rest := by
  cases h : decodeWord (b3 ++ b2 ++ b1 ++ b0) <;> simp [decode, h]

/-- Settles O1: a word decodes exactly if it is the instruction's, and a word is its four bytes. -/
theorem decodeIffEncode : Obligations.DecodeIffEncode := by
  intro bs i rest
  match bs with
  | b0 :: b1 :: b2 :: b3 :: tl =>
    rw [decode_cons_ok_iff, decodeWord_ok_iff, append_eq_iff_wordBytes]
    simp [encodeBytes, wordBytes, and_assoc]
  | [] | [_] | [_, _] | [_, _, _] => simp [decode, encodeBytes, wordBytes]

/-- Settles O3, by `decodeWord_ok_iff`: the internal steps are the rows of R114, each with its own word. -/
theorem eventCodesOfTheTable : Obligations.EventCodesOfTheTable := by
  intro w i
  rw [decodeWord_ok_iff]
  cases i with
  | dmaBeat ch => cases ch <;> simp [encode, instrWord, Instr.isEvent, Channel.bit]
  | _ => simp [encode, instrWord, Instr.isEvent, Channel.bit]

theorem decodeTableWord_encode {w : Nat} {i : Instr} (h : tableWord 32 w = encode i) :
    decodeTableWord 32 w = some i := by
  have hd : decode (wordBytes (encode i)) = .ok (i, []) := (decodeIffEncode _ i []).mpr (by simp [encodeBytes])
  rw [decodeTableWord, h, hd]

/-- Settles O4: five words are encodings, and three are none's. -/
theorem sampleWordsDecode : Obligations.SampleWordsDecode :=
  ⟨decodeTableWord_encode rfl, decodeTableWord_encode rfl, decodeTableWord_encode rfl, decodeTableWord_encode rfl,
    decodeTableWord_encode rfl, rfl, rfl, rfl⟩

end Sys2Proof
end

section
/-! What every step keeps, gathered: `Sound`, `FifoInv`, `AudioInv`, `VideoInv` (10_state R75), and the faults that no
legal sequence records (42_dma R191, 60_exceptions R347). -/

namespace Sys2Proof.Safety

open Sys2Proof.Machine

/-- Settles O54, by the step lemmas of `Sound` and `FifoInv`. -/
theorem stepKeepsMemoryConfigAndFifos : Obligations.StepKeepsMemoryConfigAndFifos := fun _ _ hs h =>
  ⟨step_keeps_sound hs h, (step_keeps_cfg_and_memory hs.memory h).1, fun hi => step_keeps_fifoInv hi h⟩

/-- Settles O55: `exec_keeps_audioInv` for the instructions; a reset gives the invariant, every other step lets the ring
and its channel stand. -/
theorem stepKeepsAudioRing : Obligations.StepKeepsAudioRing := fun _ _ => step_keeps_audioInv

/-- Settles O56: `exec_keeps_videoInv` for the instructions; a reset gives the invariant, every other step lets the
handoff and its channel stand. -/
theorem stepKeepsHandoff : Obligations.StepKeepsHandoff := fun _ _ => step_keeps_videoInv

/-- A fault that a legal sequence can reach. -/
def Legal (f : Fault) : Prop := f ≠ .dmaStartBusy ∧ f ≠ .dmaMisaligned ∧ f ≠ .ownedWrite

theorem faultInv_resetIn (c : Config) (m : Memory) (e : Env) : FaultInv (State.resetIn c m e) := by
  constructor <;> exact BitVec.getLsbD_zero

theorem FaultInv.of_faults_eq {s t : State} (hi : FaultInv s) (h : t.faults = s.faults) : FaultInv t := by
  obtain ⟨noCode, startBusy, misaligned, owned⟩ := hi
  constructor <;> simp only [State.hasFault, h] <;> assumption

/-- The bit of a legal fault is none of the four the invariant keeps clear. -/
theorem getLsbD_bit_of_legal {f : Fault} (hf : Legal f) :
    f.bit.getLsbD 0 = false ∧ f.bit.getLsbD Fault.dmaStartBusy.code = false ∧
    f.bit.getLsbD Fault.dmaMisaligned.code = false ∧ f.bit.getLsbD Fault.ownedWrite.code = false := by
  obtain ⟨hbusy, hmis, howned⟩ := hf
  cases f with
  | dmaStartBusy => exact absurd rfl hbusy
  | dmaMisaligned => exact absurd rfl hmis
  | ownedWrite => exact absurd rfl howned
  | _ => decide

theorem FaultInv.raise {s : State} (hi : FaultInv s) {f : Fault} (hf : Legal f) : FaultInv (s.raise f) := by
  obtain ⟨noCode, startBusy, misaligned, owned⟩ := hi
  obtain ⟨h0, hbusy, hmis, howned⟩ := getLsbD_bit_of_legal hf
  simp only [State.hasFault] at startBusy misaligned owned
  constructor <;> simp only [State.hasFault, State.raise_faults, BitVec.getLsbD_or, Bool.or_eq_false_iff] <;>
    exact ⟨‹_›, ‹_›⟩

/-- The restart of an idle engine raises nothing: the buffer swapped in is 4-aligned (00_scope R10). -/
theorem swapAndStart_ne_error {s : State} (hw : s.cfg.WellFormed) (hb : s.chanA.dmaBusy = false) (f : Fault) :
    swapAndStart s ≠ .error f := by
  rw [swapAndStart, dmaStart_of_idle (ch := .A) (s := swapRing s) hb (hw.abuf_aligned s.ring.fillId)]
  exact nofun

/-- An instruction records no fault but a legal one: a swap starts a transfer on an idle engine alone. -/
theorem exec_raises_legal_or_keeps_faults {i : Instr} {s t : State} (hw : s.cfg.WellFormed) (hi : AudioInv s)
    (h : exec i s = .next t) : (∃ f, Legal f ∧ t = s.raise f) ∨ t.faults = s.faults := by
  replace h := exec_cases h
  cases h with
  | refused _ f hf h => exact .inl ⟨f, by rcases hf with rfl | rfl | rfl <;> exact ⟨nofun, nofun, nofun⟩, h⟩
  | queueFault _ _ hb f hf _ => exact absurd hf (swapAndStart_ne_error (s := fillBuffer s) hw hb f)
  | airqFault hq _ f hf _ =>
    have hb : s.chanA.dmaBusy = false := hi.doneIdle (irqReq_A_iff.mp hq).1
    exact absurd hf (swapAndStart_ne_error (s := dmaAck .A s) hw hb f)
  | start ch _ _ h =>
    obtain ⟨a, b, c, hst⟩ := startChan_fields ch s
    rw [h, hst]; exact .inr (by simp)
  | stop ch _ _ h => subst h; exact .inr (by simp [stopChan])
  | beat ch _ h => subst h; cases ch <;> exact .inr rfl
  | queueIdle _ _ _ _ _ h | airqRestart _ _ _ h => rw [(swapAndStart_ok h).2]; exact .inr rfl
  | sfStart _ _ _ h => obtain ⟨-, -, rfl⟩ := dmaStart_ok h; exact .inr rfl
  | same _ h | initA _ _ h | initV _ _ h | queueBusy _ _ _ _ _ h | bufferReady _ _ h | render _ _ _ h | send _ _ h
  | emitA _ _ _ _ _ h | emitV _ _ _ _ _ h | silence _ _ _ h | airqIdle _ _ _ h | copy _ _ h | publish _ _ h
  | take _ _ _ _ h | build _ _ h | finish _ _ _ h => subst h; exact .inr rfl

theorem exec_keeps_faultInv {i : Instr} {s t : State} (hw : s.cfg.WellFormed) (hi : AudioInv s) (hf : FaultInv s)
    (h : exec i s = .next t) : FaultInv t := by
  rcases exec_raises_legal_or_keeps_faults hw hi h with ⟨f, hlegal, rfl⟩ | hkeep
  · exact hf.raise hlegal
  · exact hf.of_faults_eq hkeep

/-- Settles O57: the faults of the access, of the issue checks and of the commands are legal, and SF_START and a swap
start a transfer on an idle engine alone. -/
theorem stepKeepsUnreachableFaultsClear : Obligations.StepKeepsUnreachableFaultsClear := by
  intro s t hs ha _ hf h
  cases (step_cases h).2 with
  | idle h => exact hf.of_faults_eq (by rw [h])
  | raised f hcases h =>
    have hlegal : Legal f := by rcases hcases with rfl | rfl | rfl <;> exact ⟨nofun, nofun, nofun⟩
    exact (hf.raise hlegal).of_faults_eq (by rw [h])
  | ran i s0 h0 _ h =>
    have hstand := h0.pipelinesStand
    exact exec_keeps_faultInv (hstand.cfg ▸ hs.config) (ha.of_stand hstand) (hf.of_faults_eq (by rw [h0])) h
  | wrote s0 h0 off v h =>
    obtain ⟨p0, p1, hw⟩ := writeReg_fields s0 off v
    exact hf.of_faults_eq (by rw [h, hw, h0])
  | stored s0 h0 _ _ _ _ _ _ _ h => exact hf.of_faults_eq (by rw [h, h0])
  | clocked s0 h0 _ h =>
    obtain ⟨a, b, c, d, e, f, g, hc, -, -⟩ := clkEdge_fields s0
    exact hf.of_faults_eq (by rw [h, hc, h0])
  | reset e _ h => exact h ▸ faultInv_resetIn _ _ e

end Sys2Proof.Safety
end

section
/-! A reset, and the invariants right after it (10_state R71, 70_reset_and_hazards R370). -/

namespace Sys2Proof.Safety

open Sys2Proof.Machine

/-- 41_serial_sm R170: after a reset both generators and all pins are idle, and neither channel is initialised. -/
theorem pinInv_resetIn (c : Config) (m : Memory) (e : Env) : PinInv (State.resetIn c m e) where
  enabledA := nofun
  enabledV := nofun
  divA := nofun
  divV := nofun
  stoppedA _ := ⟨rfl, rfl, rfl, rfl⟩
  emptyA _ := ⟨rfl, rfl, rfl, rfl⟩
  loadedA := nofun
  stoppedV _ := ⟨rfl, rfl, rfl⟩
  emptyV _ := ⟨rfl, rfl, rfl⟩
  loadedV := nofun

/-- Settles O53: each invariant holds of `State.resetIn`. -/
theorem resetMeetsInvariants : Obligations.ResetMeetsInvariants :=
  ⟨by decide, fun c m e hc hm => ⟨⟨hc, hm⟩, audioInv_resetIn c m e, videoInv_resetIn c m e, fifoInv_resetIn c m e,
    faultInv_resetIn c m e, pinInv_resetIn c m e⟩⟩

/-- Nothing is in progress after a reset: both channels are quiet. -/
theorem quiet_resetIn (c : Config) (m : Memory) (e : Env) :
    QuietA (State.resetIn c m e) ∧ QuietV (State.resetIn c m e) :=
  ⟨⟨rfl, rfl, rfl⟩, rfl, rfl, rfl, .inl rfl⟩

/-- Settles O52: the reset turn gives `State.resetIn`, a quiescent block with audio stopped, in which
`quietBlockHasNoStep` leaves no internal step enabled. -/
theorem resetGivesResetValues : Obligations.ResetGivesResetValues := by
  refine ⟨fun s rest hw hs => ⟨State.resetIn s.cfg s.mem { s.env with sched := rest }, step_of_sched hw hs, rfl,
    fun i hi => ?_⟩, rfl⟩
  obtain ⟨ha, hv⟩ := quiet_resetIn s.cfg s.mem { s.env with sched := rest }
  obtain ⟨-, -, hnone⟩ := quietBlockHasNoStep (State.resetIn s.cfg s.mem { s.env with sched := rest })
  exact hnone ha hv rfl i hi

end Sys2Proof.Safety
end

section
/-! What one step does, turn by turn: the issue of a command and the hold of a busy port (40_channel_control R140,
10_state R33), an agent's turn, a core's loads, stores and ill-formed accesses (20_memory R80, R87). -/

namespace Sys2Proof.Machine

/-- A step whose turn is the event code of an internal step runs that step. -/
theorem step_of_event {s : State} {code : Word} {i : Instr} {rest : List Turn} (hw : s.cfg.WellFormed)
    (hs : s.env.sched = .event code :: rest) (hd : decodeWord code = .ok i) (he : i.isEvent = true) :
    step s = exec i (s.setSched rest) := by
  simp [step_of_sched hw hs, turn, eventTurn, hd, he]

/-- A core's 32-bit write of a command to a free `CMDq` that admits it runs the command. -/
theorem step_of_command {s : State} {p q : Port} {w : Word} {i : Instr} {rest : List Turn} {more : List Access}
    (hw : s.cfg.WellFormed) (hs : s.env.sched = .core p :: rest)
    (hp : s.prog p = .write (cmdOffset q) .word w :: more) (hd : decodeCommand w = .ok i) (ha : i.admits q = true)
    (hb : s.busy q = false) (hh : s.halted = false) : step s = exec i ((s.setSched rest).setProg p more) := by
  rw [step_of_cmd_write hw hs hp hb, issue_of_admitted (by simp [hh]) hd ha]

/-- The port a command's word is placed on admits it (30_encoding R113). -/
theorem admits_portOfWord {i : Instr} (he : i.isEvent = false) : i.admits (portOfWord (encode i)) = true := by
  have hd : decodeCommand (encode i) = .ok i := decodeCommand_ok_iff.mpr ⟨rfl, he⟩
  rw [portOfWord, hd]
  cases i with
  | nop ch | init ch | start ch | stop ch | queueSamples | bufferReady | renderFrame | sendFrame => rfl
  | _ => cases he

theorem withFetchWord_encode (s : State) (i : Instr) :
    s.withFetchWord 32 (encode i).toNat =
      if i.isEvent then s.setSched (.event (encode i) :: s.env.sched)
      else withCommand s (portOfWord (encode i)) (encode i) := by
  have hword : tableWord 32 (encode i).toNat = encode i := by
    rw [tableWord, Nat.mod_eq_of_lt (encode i).isLt, BitVec.ofNat_toNat, BitVec.setWidth_eq]
  rw [State.withFetchWord, hword, placeWord, decodeWord_encode]

/-- Taking the placed turn and write off again leaves the state they were placed in. -/
theorem withCommand_taken_off (s : State) (p : Port) (w : Word) :
    ((withCommand s p w).setSched s.env.sched).setProg p (s.prog p) = s := by
  cases p <;> rfl

/-- An instruction placed by `withFetchWord` is what the next step runs (log 4); on a halted block both change
nothing. -/
theorem step_withFetchWord {s : State} {i : Instr} (hw : s.cfg.WellFormed)
    (hb : i.isEvent = false → ∀ p, s.busy p = false) : step (s.withFetchWord 32 (encode i).toNat) = exec i s := by
  rw [withFetchWord_encode]
  cases he : i.isEvent with
  | true => exact step_of_event (s := s.setSched (.event (encode i) :: s.env.sched)) hw rfl (decodeWord_encode i) he
  | false =>
    rw [if_neg Bool.false_ne_true]
    generalize hq : portOfWord (encode i) = q
    have hblock : SameBlock s (withCommand s q (encode i)) := by cases q <;> rfl
    have hsched : (withCommand s q (encode i)).env.sched = .core q :: s.env.sched := by cases q <;> rfl
    have hprog : (withCommand s q (encode i)).prog q = .write (cmdOffset q) .word (encode i) :: s.prog q := by
      cases q <;> rfl
    have hfree : (withCommand s q (encode i)).busy q = false := (hblock.busy q).trans (hb he q)
    have hwf : (withCommand s q (encode i)).cfg.WellFormed := by rw [hblock]; exact hw
    rw [step_of_cmd_write hwf hsched hprog hfree, withCommand_taken_off]
    cases hh : s.halted with
    | true => rw [issue_of_halted hh, exec_of_halted hh]
    | false => exact issue_of_admitted hh (decodeCommand_ok_iff.mpr ⟨rfl, he⟩) (hq ▸ admits_portOfWord he)

theorem freeTurn_mem (n : Nat) : freeTurn n ∈ freeTurns := by
  have hlt : (Config.freeChoice n).val < freeTurns.length := (Config.freeChoice n).isLt
  rw [freeTurn, List.getD_eq_getElem _ _ hlt]
  exact List.getElem_mem hlt

/-- A free choice is the step of a schedule that names the turn chosen (log 5). -/
theorem step_of_no_sched {s : State} (hs : s.env.sched = []) :
    step s =
      step ({ s with env := { s.env with choices := s.env.choices + 1 } }.setSched [freeTurn s.env.choices]) := by
  have hafter : afterTurn s = { s with env := { s.env with choices := s.env.choices + 1 } }.setSched [] :=
    calc afterTurn s
      _ = { s with env := { s.env with choices := s.env.choices + 1 } } := by rw [afterTurn, hs]
      _ = { s with env := { s.env with choices := s.env.choices + 1 } }.setSched s.env.sched := rfl
      _ = _ := by rw [hs]
  have hnext : nextTurn s = freeTurn s.env.choices := by rw [nextTurn, hs]
  rw [step, hafter, hnext]
  rfl

/-- Settles O5: an agent's turn, a core's command, a placed instruction, an edge of `clk`, a free choice. -/
theorem stepRunsDecodedInstruction : Obligations.StepRunsDecodedInstruction :=
  ⟨fun _ _ _ _ => step_of_event, fun _ _ _ _ _ _ _ => step_of_command, fun _ _ => step_withFetchWord,
    fun _ _ hw hs => step_of_sched hw hs, fun s hs => ⟨_, freeTurn_mem s.env.choices, step_of_no_sched hs⟩⟩

theorem cmdWord_eq (s : State) (p : Port) : s.cmdWord p = if s.busy p then 1#32 else 0#32 := by
  rw [State.cmdWord]
  cases s.busy p <;> rfl

/-- 10_state R33: a write to a busy `CMDq` takes its turn and changes nothing else; it stays the core's next access. -/
theorem step_of_held {s : State} {p q : Port} {w : Word} {rest : List Turn} {more : List Access}
    (hw : s.cfg.WellFormed) (hs : s.env.sched = .core p :: rest)
    (hp : s.prog p = .write (cmdOffset q) .word w :: more) (hb : s.busy q = true) :
    step s = .next (s.setSched rest) := by
  have hbusy : (s.setSched rest).busy q = true := ((sameBlock_setSched s rest).busy q).trans hb
  have hheld : holds (s.setSched rest) (.write (cmdOffset q) .word w) = true := by
    cases q <;> exact hbusy
  simp [step_of_sched hw hs, turn, coreTurn, hp, hheld]

/-- Settles O7: `CMDp` reads the busy flag, and a write to it is held or issued. -/
theorem busyPortHoldsWriter : Obligations.BusyPortHoldsWriter := by
  refine ⟨fun s p => ?_, fun s => ⟨busy_p0_iff, decide_eq_true_iff⟩, fun s p q w rest more hw hs hp =>
    ⟨step_of_held hw hs hp, step_of_cmd_write hw hs hp⟩⟩
  cases p <;> exact cmdWord_eq s _

theorem issue_total (q : Port) (w : Word) (s : State) : ∃ t, issue q w s = .next t := by
  unfold issue
  split
  · exact ⟨_, rfl⟩
  split
  · exact ⟨_, rfl⟩
  split
  · exact exec_total _ s
  · exact ⟨_, rfl⟩

theorem access_total (p : Port) (s : State) (a : Access) : ∃ t, access p s a = .next t := by
  cases a with
  | read off w => simp only [access]; split <;> exact ⟨_, rfl⟩
  | load a w => exact ⟨_, rfl⟩
  | store a w v => exact ⟨_, rfl⟩
  | write off w v =>
    simp only [access]
    split
    · split
      · exact issue_total _ v s
      · exact ⟨_, rfl⟩
    · exact ⟨_, rfl⟩

theorem coreTurn_total (p : Port) (s : State) : ∃ t, coreTurn p s = .next t := by
  unfold coreTurn
  split
  · exact ⟨_, rfl⟩
  split
  · exact ⟨_, rfl⟩
  · exact access_total p _ _

/-- A turn answers a next state, but for a code of no internal step, which is refused (log 18). -/
theorem turn_next_or_refused (t : Turn) (s : State) :
    (∃ u, turn t s = .next u) ∨
    ∃ code, t = .event code ∧ (∀ i, decodeWord code = .ok i → i.isEvent = false) ∧
      turn t s = .refused (.noSuchStep code) := by
  cases t with
  | core p => exact .inl (coreTurn_total p s)
  | clk | rst => exact .inl ⟨_, rfl⟩
  | event code =>
    rw [turn, eventTurn]
    cases hd : decodeWord code with
    | error e => exact .inr ⟨code, rfl, fun _ h => (by cases hd.symm.trans h), rfl⟩
    | ok i =>
      cases he : i.isEvent with
      | true => exact .inl (by simpa [he] using exec_total i s)
      | false => exact .inr ⟨code, rfl, fun _ h => (by cases hd.symm.trans h; exact he), by simp [he]⟩

/-- Settles O10: no turn answers a fault, and only a code of no internal step is refused. -/
theorem everyStepGoesOn : Obligations.EveryStepGoesOn := by
  refine ⟨fun s hw hcode => ?_, fun s f hfault => ?_, fun s hw => if_neg hw⟩
  · rw [step, if_pos hw]
    refine (turn_next_or_refused _ _).resolve_right ?_
    rintro ⟨code, hturn, hnone, -⟩
    obtain ⟨i, hd, he⟩ := hcode code hturn
    exact Bool.false_ne_true ((hnone i hd).symm.trans he)
  · unfold step at hfault
    split at hfault
    · rcases turn_next_or_refused (nextTurn s) (afterTurn s) with ⟨u, h⟩ | ⟨code, -, -, h⟩ <;>
        cases h.symm.trans hfault
    · cases hfault

theorem accessOk_eq_false {off : BitVec 8} {w : Width} (h : ¬ (w = .word ∧ off.toNat % 4 = 0)) :
    accessOk off w = false := by
  simpa [accessOk] using h

/-- Settles O11: the access rule is tested before anything else an access does, the hold of a busy port included. -/
theorem badAccessIsRecorded : Obligations.BadAccessIsRecorded := by
  intro s p off w rest more hw hs hbad u
  have hok := accessOk_eq_false hbad
  refine ⟨fun hp => ?_, fun v hp => ?_⟩
  · rw [step_of_core_access hw hs hp rfl, access, hok]; rfl
  · rw [step_of_core_access hw hs hp (by rw [holds, hok]; rfl), access, hok]; rfl

/-- Settles O60: a load or a store is never held, and reaches memory alone. -/
theorem coreLoadsAndStores : Obligations.CoreLoadsAndStores := by
  intro s p a w rest more hw hs u
  have hmem : u.mem = s.mem := by simp [u]
  refine ⟨fun hp => ?_, fun v hp => ?_⟩ <;> rw [step_of_core_access hw hs hp rfl, ← hmem] <;> rfl

/-- Settles O29, by the two tests of `dma_start` in their order. -/
theorem dmaStartRule : Obligations.DmaStartRule := by
  intro ch addr count s
  refine ⟨fun hb => if_pos hb, fun hb ha => ?_, dmaStart_of_idle⟩
  rw [dmaStart, if_neg (by simp [hb]), if_pos ha]

end Sys2Proof.Machine
end

section
/-! INIT (40_channel_control R142): the whole effect, and what every byte of memory reads as after it. -/

namespace Sys2Proof.Machine

open Sys2Proof.Safety

/-- An INIT that passes its checks runs, on a channel whose DMA engine is available. -/
theorem exec_init_of_available {ch : Channel} {s : State} (hr : Ran .p0 s) (hi : (s.chan ch).inited = false)
    (hc : chAvail s.cfg ch = true) :
    exec (.init ch) s = .next (match ch with | .A => initA s | .V => initV s) := by
  refine (command_needNoInit_of_not_inited _ hr hi).trans ?_
  rw [if_pos hc, attempt_ok]
  cases ch <;> rfl

theorem Memory.read_zero_of_within {m : Memory} {a base : Word} {n : Nat} (h : Within a base n) :
    (m.zero base n).read a = 0#8 := by
  rw [Memory.read_zero, if_pos h]; rfl

/-- A byte that reads 0 reads 0 after a further zeroing. -/
theorem Memory.read_zero_of_zero {m : Memory} {a base : Word} {n : Nat} (h : m.read a = 0#8) :
    (m.zero base n).read a = 0#8 := by
  rw [Memory.read_zero, h]; exact ite_self 0#8

theorem read_initA_of_within {s : State} {a : Word} {i : Bool} (h : Within a (abufAddr s.cfg i) (abufSize s.cfg)) :
    (initA s).mem.read a = 0#8 :=
  match i, h with
  | true, h => Memory.read_zero_of_within h
  | false, h => Memory.read_zero_of_zero (Memory.read_zero_of_within h)

theorem read_initV_of_within_sl {s : State} {a : Word} {i : Bool} (h : Within a (slAddr s.cfg i) (slSize s.cfg)) :
    (initV s).mem.read a = 0#8 := by
  refine Memory.read_zero_of_zero (Memory.read_zero_of_zero ?_)
  cases i with
  | true => exact Memory.read_zero_of_within h
  | false => exact Memory.read_zero_of_zero (Memory.read_zero_of_within h)

theorem read_initV_of_within_snap {s : State} {a : Word} {i : Bool}
    (h : Within a (snapAddr s.cfg i) (snapSize s.cfg)) : (initV s).mem.read a = 0#8 :=
  match i, h with
  | true, h => Memory.read_zero_of_within h
  | false, h => Memory.read_zero_of_zero (Memory.read_zero_of_within h)

/-- Settles O15: the state after INIT A is `initA`'s, which zeroes the Sample Buffers. -/
theorem initAudioChannel : Obligations.InitAudioChannel := fun s hb hh hi hc =>
  ⟨initA s, exec_init_of_available (ch := .A) ⟨hb, hh⟩ hi hc, rfl, fun _ _ => read_initA_of_within,
    fun _ => read_initA_of_not_within⟩

/-- Settles O16: the state after INIT V is `initV`'s, which zeroes the Scanline Buffers and the snapshot slots. -/
theorem initDisplayChannel : Obligations.InitDisplayChannel := fun s hb hh hi hc =>
  ⟨initV s, exec_init_of_available (ch := .V) ⟨hb, hh⟩ hi hc, rfl,
    fun _ _ h => h.elim read_initV_of_within_sl read_initV_of_within_snap,
    fun _ h => read_initV_of_not_within (fun i => (h i).1) fun i => (h i).2⟩

end Sys2Proof.Machine
end

section
/-! The status words of the register map, bit by bit (10_state R60-R68). -/

namespace Sys2Proof.Machine

theorem getLsbD_ctrlWord (s : State) (ch : Channel) (n : Nat) : (s.ctrlWord ch).getLsbD n =
    if n = 0 then (s.chan ch).inited else if n = 1 then (s.chan ch).smEn else if n = 2 then (s.chan ch).dmaIe
    else false := by
  simp only [State.ctrlWord, BitVec.getLsbD_append, BitVec.getLsbD_ofBool, BitVec.getLsbD_zero]
  match n with
  | 0 | 1 | 2 => rfl
  | n + 3 => simp

theorem getLsbD_dmaStatusWord (s : State) (ch : Channel) (n : Nat) : (s.dmaStatusWord ch).getLsbD n =
    if n = 0 then (s.chan ch).dmaBusy else if n = 1 then (s.chan ch).dmaDone
    else if n = 2 then decide (s.fifoLen ch = 0) else if n = 3 then decide (s.fifoLen ch = s.cfg.fifoDepth)
    else if 8 ≤ n ∧ n ≤ 15 then (s.fifoLen ch).testBit (n - 8) else false := by
  simp only [State.dmaStatusWord, BitVec.getLsbD_append, BitVec.getLsbD_ofBool, BitVec.getLsbD_ofNat]
  match n with
  | 0 | 1 | 2 | 3 => simp
  | n + 4 =>
    have hlow : n < 4 ↔ ¬ 4 ≤ n := by omega
    have hhigh : 4 ≤ n → (n - 4 < 8 ↔ n ≤ 11) := by omega
    by_cases h : 4 ≤ n <;> simp [hlow, h, hhigh]

theorem getLsbD_clkdivWord (s : State) (ch : Channel) (n : Nat) :
    (s.clkdivWord ch).getLsbD n = if n < 16 then (s.chan ch).div.getLsbD n else false := by
  simp only [State.clkdivWord, BitVec.getLsbD_append, BitVec.getLsbD_zero]

theorem getLsbD_ringStatusWord (s : State) (n : Nat) : s.ringStatusWord.getLsbD n =
    if n = 0 then s.ring.ready else if n = 1 then s.ring.activeId else if n = 2 then s.ring.fillId else false := by
  simp only [State.ringStatusWord, BitVec.getLsbD_append, BitVec.getLsbD_ofBool, BitVec.getLsbD_zero]
  match n with
  | 0 | 1 | 2 => rfl
  | n + 3 => simp

theorem getLsbD_hsRowsWord (s : State) (n : Nat) :
    s.hsRowsWord.getLsbD n = if n < 16 then s.video.brow.getLsbD n else s.video.trow.getLsbD (n - 16) :=
  BitVec.getLsbD_append

theorem consuming_eq_decide (s : State) :
    s.consuming = decide (s.video.cphase ∈ [CPhase.build, CPhase.start, CPhase.drain]) := by
  rw [State.consuming]
  cases s.video.cphase <;> rfl

/-- The bits of `HS_STATUS` but those of the two phase codes (10_state R67). -/
theorem getLsbD_hsStatusWord (s : State) (n : Nat) (h : n ∉ [8, 9, 10, 12, 13]) : s.hsStatusWord.getLsbD n =
    if n = 0 then s.video.pending else if n = 1 then s.video.fresh
    else if n = 2 then decide (s.video.pphase ≠ .idle)
    else if n = 3 then decide (s.video.cphase ∈ [CPhase.build, CPhase.start, CPhase.drain])
    else if n = 4 then s.video.consSlot else if n = 5 then s.video.pubSlot else if n = 6 then s.video.wrSlot
    else false := by
  rw [← consuming_eq_decide, ← State.copying]
  simp only [State.hsStatusWord, BitVec.getLsbD_append, BitVec.getLsbD_ofBool, BitVec.getLsbD_zero]
  match n with
  | 0 | 1 | 2 | 3 | 4 | 5 | 6 | 7 | 11 => simp
  | 8 | 9 | 10 | 12 | 13 => simp at h
  | n + 14 => simp

theorem extractLsb'_hsStatusWord_cphase (s : State) : s.hsStatusWord.extractLsb' 8 3 = s.video.cphase.code := by
  ext k hk
  simp only [BitVec.getElem_extractLsb', State.hsStatusWord, BitVec.getLsbD_append]
  match k, hk with
  | 0, _ | 1, _ | 2, _ => rfl

theorem extractLsb'_hsStatusWord_pphase (s : State) : s.hsStatusWord.extractLsb' 12 2 = s.video.pphase.code := by
  ext k hk
  simp only [BitVec.getElem_extractLsb', State.hsStatusWord, BitVec.getLsbD_append]
  match k, hk with
  | 0, _ | 1, _ => rfl

/-- A busy flag is read as 0 exactly while its sequencer is idle (10_state R33, R60). -/
theorem cmdWord_p0_eq (s : State) : s.cmdWord .p0 = if s.video.pphase = .idle then 0#32 else 1#32 := by
  rw [cmdWord_eq, State.busy]
  cases s.video.pphase <;> rfl

theorem cmdWord_p1_eq (s : State) : s.cmdWord .p1 = if s.video.cphase = .idle then 0#32 else 1#32 := by
  rw [cmdWord_eq, State.busy]
  cases s.video.cphase <;> rfl

/-- Settles O14: the register map offset by offset, and each status word bit by bit. -/
theorem statusWordsShowTheirFields : Obligations.StatusWordsShowTheirFields := by
  refine fun s => ⟨?map, fun ch n => ⟨getLsbD_ctrlWord s ch n, getLsbD_dmaStatusWord s ch n, getLsbD_clkdivWord s ch n⟩,
    fun n => ⟨getLsbD_ringStatusWord s n, getLsbD_hsStatusWord s n, getLsbD_hsRowsWord s n⟩, ?cphase, ?pphase⟩
  case map =>
    exact ⟨rfl, rfl, cmdWord_p0_eq s, rfl, rfl, rfl, cmdWord_p1_eq s, rfl, rfl, rfl, rfl, rfl, rfl, rfl, rfl, rfl, rfl,
      rfl, rfl, rfl, rfl, rfl, rfl, rfl⟩
  case cphase =>
    intro c k hmem hphase
    simp only [List.mem_cons, Prod.mk.injEq, List.not_mem_nil, or_false] at hmem
    rw [extractLsb'_hsStatusWord_cphase, hphase]
    rcases hmem with ⟨rfl, rfl⟩ | ⟨rfl, rfl⟩ | ⟨rfl, rfl⟩ | ⟨rfl, rfl⟩ | ⟨rfl, rfl⟩ <;> rfl
  case pphase =>
    intro c k hmem hphase
    simp only [List.mem_cons, Prod.mk.injEq, List.not_mem_nil, or_false] at hmem
    rw [extractLsb'_hsStatusWord_pphase, hphase]
    rcases hmem with ⟨rfl, rfl⟩ | ⟨rfl, rfl⟩ | ⟨rfl, rfl⟩ <;> rfl

end Sys2Proof.Machine
end

section
/-! One `clk` edge of each timing generator, case by case (41_serial_sm R160-R169). -/

namespace Sys2Proof.Machine

theorem clkEdge_of_live {s : State} (h : s.halted = false) : clkEdge s = clkV (clkA s) := by simp [clkEdge, h]

/-- 41_serial_sm R161: below its last count the divider counts on. -/
theorem divider_of_lt {div ctr : BitVec 16} (h : ctr.toNat + 1 < div.toNat) : divider div ctr = (ctr + 1#16, false) :=
  if_pos h

/-- 41_serial_sm R161: from its last count on the divider starts again, and the half bit period ends. -/
theorem divider_of_last {div ctr : BitVec 16} (h : div.toNat ≤ ctr.toNat + 1) : divider div ctr = (0#16, true) :=
  if_neg h.not_gt

theorem toNat_ctr_succ {div ctr : BitVec 16} (h : ctr.toNat + 1 < div.toNat) : (ctr + 1#16).toNat = ctr.toNat + 1 := by
  have := div.isLt
  rw [BitVec.toNat_add, BitVec.toNat_ofNat]; omega

theorem loadA_of_cons {s : State} {w : Word} {rest : List Word} (h : s.fifoA = w :: rest) :
    loadA s = { s with fifoA := rest, outA := s.outA ++ [.frame w],
                       tgA := { s.tgA with prevlsb := s.tgA.shreg.getLsbD 0, shreg := w, slot := 0 } } := by
  rw [loadA, h]

theorem loadA_of_nil {s : State} (h : s.fifoA = []) :
    loadA s = { s with outA := s.outA ++ [.silence],
                       tgA := { s.tgA with prevlsb := s.tgA.shreg.getLsbD 0, shreg := 0, slot := 0 } } := by
  rw [loadA, h]

/-- A load replaces the shift register and starts at slot 0; it does not touch the divider. -/
@[simp] theorem loadA_cfg (s : State) : (loadA s).cfg = s.cfg := by rw [loadA]; split <;> rfl
@[simp] theorem loadA_chanA (s : State) : (loadA s).chanA = s.chanA := by rw [loadA]; split <;> rfl
@[simp] theorem loadA_ctr (s : State) : (loadA s).tgA.ctr = s.tgA.ctr := by rw [loadA]; split <;> rfl
@[simp] theorem loadA_half (s : State) : (loadA s).tgA.half = s.tgA.half := by rw [loadA]; split <;> rfl
@[simp] theorem loadA_slot (s : State) : (loadA s).tgA.slot = 0 := by rw [loadA]; split <;> rfl
@[simp] theorem loadA_loaded (s : State) : (loadA s).tgA.loaded = s.tgA.loaded := by rw [loadA]; split <;> rfl

section Audio

variable {s : State}

theorem clkA_of_stopped (he : s.chanA.smEn = false) : clkA s = s := by simp [clkA, he]

/-- The state of the first edge after START, before the pins are driven: the first word is loaded. -/
def loadFirstA (s : State) : State :=
  { loadA s with tgA := { (loadA s).tgA with loaded := true, half := .low, ctr := 0 } }

/-- The generator at the start of the LOW half: the divider starts again and `AUD_BCK` falls. -/
def beginLowA (s : State) : State :=
  { s with tgA := { s.tgA with ctr := 0, half := .low }, pins := { s.pins with audBck := false } }

variable (he : s.chanA.smEn = true)
include he

theorem clkA_of_empty (hl : s.tgA.loaded = false) : clkA s = driveA (loadFirstA s) := by
  simp [clkA, he, hl, loadFirstA]

variable (hl : s.tgA.loaded = true)
include hl

theorem clkA_of_counting (hc : s.tgA.ctr.toNat + 1 < s.chanA.div.toNat) :
    clkA s = { s with tgA := { s.tgA with ctr := s.tgA.ctr + 1#16 } } := by
  simp [clkA, he, hl, divider_of_lt hc]

theorem clkA_of_low (hc : s.chanA.div.toNat ≤ s.tgA.ctr.toNat + 1) (hh : s.tgA.half = .low) :
    clkA s = { s with tgA := { s.tgA with ctr := 0, half := .high }, pins := { s.pins with audBck := true } } := by
  simp [clkA, he, hl, divider_of_last hc, hh]

theorem clkA_of_high (hc : s.chanA.div.toNat ≤ s.tgA.ctr.toNat + 1) (hh : s.tgA.half = .high) :
    clkA s = driveA (if s.tgA.slot.val = 31 then loadA (beginLowA s)
      else { beginLowA s with tgA := { (beginLowA s).tgA with slot := s.tgA.slot + 1 } }) := by
  simp [clkA, he, hl, divider_of_last hc, hh, nextSlotA, beginLowA]

end Audio

section Display

variable {s : State}

theorem clkV_of_stopped (he : s.chanV.smEn = false) : clkV s = s := by simp [clkV, he]

/-- The generator at the start of the LOW half: the divider starts again and `LCD_SCK` falls. -/
def beginLowV (s : State) : State :=
  { s with tgV := { s.tgV with ctr := 0, half := .low }, pins := { s.pins with lcdSck := false } }

variable (he : s.chanV.smEn = true)
include he

theorem clkV_of_empty_cons (hl : s.tgV.loaded = false) {b : Byte} {rest : List Byte} (hq : s.fifoV = b :: rest) :
    clkV s = loadV s b rest := by
  simp [clkV, he, hl, hq]

theorem clkV_of_empty_nil (hl : s.tgV.loaded = false) (hq : s.fifoV = []) : clkV s = s := by
  simp [clkV, he, hl, hq]

variable (hl : s.tgV.loaded = true)
include hl

theorem clkV_of_counting (hc : s.tgV.ctr.toNat + 1 < s.chanV.div.toNat) :
    clkV s = { s with tgV := { s.tgV with ctr := s.tgV.ctr + 1#16 } } := by
  simp [clkV, he, hl, divider_of_lt hc]

theorem clkV_of_low (hc : s.chanV.div.toNat ≤ s.tgV.ctr.toNat + 1) (hh : s.tgV.half = .low) :
    clkV s = { s with tgV := { s.tgV with ctr := 0, half := .high }, pins := { s.pins with lcdSck := true } } := by
  simp [clkV, he, hl, divider_of_last hc, hh]

theorem clkV_of_high (hc : s.chanV.div.toNat ≤ s.tgV.ctr.toNat + 1) (hh : s.tgV.half = .high) :
    clkV s = nextSlotV (beginLowV s) := by
  simp [clkV, he, hl, divider_of_last hc, hh, beginLowV]

end Display

theorem nextSlotV_of_next {s : State} (h : s.tgV.slot.val ≠ 7) : nextSlotV s = { s with
    tgV := { s.tgV with slot := s.tgV.slot + 1 },
    pins := { s.pins with lcdMosi := s.tgV.shreg.getLsbD (7 - (s.tgV.slot + 1).val) } } :=
  if_neg h

theorem nextSlotV_of_last_cons {s : State} (h : s.tgV.slot.val = 7) {b : Byte} {rest : List Byte}
    (hq : s.fifoV = b :: rest) : nextSlotV s = loadV s b rest := by
  simp [nextSlotV, h, hq]

theorem nextSlotV_of_last_nil {s : State} (h : s.tgV.slot.val = 7) (hq : s.fifoV = []) :
    nextSlotV s = { s with tgV := { s.tgV with loaded := false } } := by
  simp [nextSlotV, h, hq]

end Sys2Proof.Machine
end

section
/-! The generators and the pins stay in step with one another: `PinInv`, channel by channel (41_serial_sm R160-R170). -/

namespace Sys2Proof.Safety

open Sys2Proof.Machine

/-- What `PinInv` says of channel A. -/
structure AudioPins (s : State) : Prop where
  enabled : s.chanA.smEn = true → s.chanA.inited = true
  div : s.chanA.inited = true → s.chanA.div.toNat = s.cfg.divA
  stopped : s.chanA.smEn = false → s.tgA = TgA.idle ∧ AudioPinsIdle s
  empty : s.tgA.loaded = false → s.tgA = TgA.idle ∧ AudioPinsIdle s
  loaded : s.tgA.loaded = true → s.tgA.ctr.toNat < s.chanA.div.toNat ∧
    s.pins.audBck = decide (s.tgA.half = .high) ∧ s.pins.audWs = audioWs s.cfg s.tgA.slot ∧
    s.pins.audDout = audioDout s.cfg s.tgA s.tgA.slot

/-- What `PinInv` says of channel V. -/
structure DisplayPins (s : State) : Prop where
  enabled : s.chanV.smEn = true → s.chanV.inited = true
  div : s.chanV.inited = true → s.chanV.div.toNat = s.cfg.divV
  stopped : s.chanV.smEn = false → s.tgV = TgV.idle ∧ DisplayPinsIdle s
  empty : s.tgV.loaded = false → s.pins.lcdSck = false ∧ s.tgV.half = .low ∧ s.tgV.ctr = 0#16
  loaded : s.tgV.loaded = true → s.tgV.ctr.toNat < s.chanV.div.toNat ∧
    s.pins.lcdSck = decide (s.tgV.half = .high) ∧ s.pins.lcdMosi = s.tgV.shreg.getLsbD (7 - s.tgV.slot.val)

theorem pinInv_iff {s : State} : PinInv s ↔ AudioPins s ∧ DisplayPins s :=
  ⟨fun h => ⟨⟨h.enabledA, h.divA, h.stoppedA, h.emptyA, h.loadedA⟩,
      ⟨h.enabledV, h.divV, h.stoppedV, h.emptyV, h.loadedV⟩⟩,
    fun ⟨a, v⟩ => ⟨a.enabled, v.enabled, a.div, v.div, a.stopped, a.empty, a.loaded, v.stopped, v.empty, v.loaded⟩⟩

/-- The generator of a channel and what `PinInv` says it shows are as they were: no word about the transfer. -/
theorem AudioPins.frame {s t : State} (h : AudioPins s) (hc : t.cfg = s.cfg) (he : t.chanA.smEn = s.chanA.smEn)
    (hi : t.chanA.inited = s.chanA.inited) (hd : t.chanA.div = s.chanA.div) (ht : t.tgA = s.tgA)
    (hbck : t.pins.audBck = s.pins.audBck) (hws : t.pins.audWs = s.pins.audWs)
    (hdout : t.pins.audDout = s.pins.audDout) : AudioPins t := by
  obtain ⟨enabled, div, stopped, empty, loaded⟩ := h
  constructor <;> simp only [AudioPinsIdle, hc, he, hi, hd, ht, hbck, hws, hdout] <;> assumption

theorem DisplayPins.frame {s t : State} (h : DisplayPins s) (hc : t.cfg = s.cfg) (he : t.chanV.smEn = s.chanV.smEn)
    (hi : t.chanV.inited = s.chanV.inited) (hd : t.chanV.div = s.chanV.div) (ht : t.tgV = s.tgV)
    (hsck : t.pins.lcdSck = s.pins.lcdSck) (hmosi : t.pins.lcdMosi = s.pins.lcdMosi) : DisplayPins t := by
  obtain ⟨enabled, div, stopped, empty, loaded⟩ := h
  constructor <;> simp only [DisplayPinsIdle, hc, he, hi, hd, ht, hsck, hmosi] <;> assumption

/-- A generator that was just reset, with the pins at their idle levels, meets the invariant, enabled or not. -/
theorem AudioPins.of_idle {s : State} (he : s.chanA.smEn = true → s.chanA.inited = true)
    (hd : s.chanA.inited = true → s.chanA.div.toNat = s.cfg.divA) (ht : s.tgA = TgA.idle) (hp : AudioPinsIdle s) :
    AudioPins s :=
  ⟨he, hd, fun _ => ⟨ht, hp⟩, fun _ => ⟨ht, hp⟩, fun hl => by rw [ht] at hl; cases hl⟩

theorem DisplayPins.of_idle {s : State} (he : s.chanV.smEn = true → s.chanV.inited = true)
    (hd : s.chanV.inited = true → s.chanV.div.toNat = s.cfg.divV) (ht : s.tgV = TgV.idle) (hp : DisplayPinsIdle s) :
    DisplayPins s :=
  ⟨he, hd, fun _ => ⟨ht, hp⟩, fun _ => by rw [ht]; exact ⟨hp.1, rfl, rfl⟩, fun hl => by rw [ht] at hl; cases hl⟩

/-- While a word is shifted only its own clause is left to show. -/
theorem AudioPins.of_loaded {s : State} (he : s.chanA.smEn = true) (hi : s.chanA.inited = true)
    (hd : s.chanA.div.toNat = s.cfg.divA) (hl : s.tgA.loaded = true) (hctr : s.tgA.ctr.toNat < s.chanA.div.toNat)
    (hbck : s.pins.audBck = decide (s.tgA.half = .high)) (hws : s.pins.audWs = audioWs s.cfg s.tgA.slot)
    (hdout : s.pins.audDout = audioDout s.cfg s.tgA s.tgA.slot) : AudioPins s :=
  ⟨fun _ => hi, fun _ => hd, fun h => by simp [he] at h, fun h => by simp [hl] at h, fun _ => ⟨hctr, hbck, hws, hdout⟩⟩

theorem DisplayPins.of_loaded {s : State} (he : s.chanV.smEn = true) (hi : s.chanV.inited = true)
    (hd : s.chanV.div.toNat = s.cfg.divV) (hl : s.tgV.loaded = true) (hctr : s.tgV.ctr.toNat < s.chanV.div.toNat)
    (hsck : s.pins.lcdSck = decide (s.tgV.half = .high))
    (hmosi : s.pins.lcdMosi = s.tgV.shreg.getLsbD (7 - s.tgV.slot.val)) : DisplayPins s :=
  ⟨fun _ => hi, fun _ => hd, fun h => by simp [he] at h, fun h => by simp [hl] at h, fun _ => ⟨hctr, hsck, hmosi⟩⟩

/-- INIT loads the divisor parameter, which fits 16 bits (00_scope R10, 40_channel_control R142). -/
theorem toNat_ofNat_divOf {c : Config} (hw : c.WellFormed) (ch : Channel) :
    (BitVec.ofNat 16 (divOf c ch)).toNat = divOf c ch := by
  have ha := hw.divA_pos
  have hv := hw.divV_pos
  cases ch <;> simp only [divOf, BitVec.toNat_ofNat] <;> omega

/-- The divisor of an initialised channel is at least 1. -/
theorem AudioPins.div_pos {s : State} (h : AudioPins s) (hw : s.cfg.WellFormed) (he : s.chanA.smEn = true) :
    0 < s.chanA.div.toNat := by
  have := hw.divA_pos
  rw [h.div (h.enabled he)]; omega

theorem DisplayPins.div_pos {s : State} (h : DisplayPins s) (hw : s.cfg.WellFormed) (he : s.chanV.smEn = true) :
    0 < s.chanV.div.toNat := by
  have := hw.divV_pos
  rw [h.div (h.enabled he)]; omega

theorem initA_audioPins {s : State} (hw : s.cfg.WellFormed) : AudioPins (initA s) :=
  .of_idle nofun (fun _ => toNat_ofNat_divOf hw .A) rfl ⟨rfl, rfl, rfl⟩

theorem initV_displayPins {s : State} (hw : s.cfg.WellFormed) : DisplayPins (initV s) :=
  .of_idle nofun (fun _ => toNat_ofNat_divOf hw .V) rfl ⟨rfl, rfl⟩

theorem stopChan_A_audioPins {s : State} (h : AudioPins s) : AudioPins (stopChan .A s) :=
  .of_idle nofun h.div rfl ⟨rfl, rfl, rfl⟩

theorem stopChan_V_displayPins {s : State} (h : DisplayPins s) : DisplayPins (stopChan .V s) :=
  .of_idle nofun h.div rfl ⟨rfl, rfl⟩

theorem startChan_A_audioPins {s : State} (h : AudioPins s) (hi : s.chanA.inited = true) :
    AudioPins (startChan .A s) := by
  cases he : s.chanA.smEn with
  | true => rw [startChan_of_started (ch := .A) he]; exact h
  | false =>
    rw [startChan_of_stopped (ch := .A) he]
    exact .of_idle (fun _ => hi) h.div rfl ⟨rfl, rfl, rfl⟩

theorem startChan_V_displayPins {s : State} (h : DisplayPins s) (hi : s.chanV.inited = true) :
    DisplayPins (startChan .V s) := by
  cases he : s.chanV.smEn with
  | true => rw [startChan_of_started (ch := .V) he]; exact h
  | false =>
    rw [startChan_of_stopped (ch := .V) he]
    exact .of_idle (fun _ => hi) h.div rfl ⟨rfl, rfl⟩

/-- The pins driven at the start of a LOW half show the slot the generator is at (41_serial_sm R163-R165). -/
theorem driveA_audioPins {s : State} (he : s.chanA.smEn = true) (hi : s.chanA.inited = true)
    (hd : s.chanA.div.toNat = s.cfg.divA) (hl : s.tgA.loaded = true) (hctr : s.tgA.ctr.toNat < s.chanA.div.toNat)
    (hh : s.tgA.half = .low) : AudioPins (driveA s) :=
  .of_loaded he hi hd hl hctr (by simp [driveA, hh]) rfl rfl

/-- An edge of the audio generator: stopped, first load, counting, the middle or the end of a bit period. -/
theorem clkA_keeps_audioPins {s : State} (h : AudioPins s) (hw : s.cfg.WellFormed) : AudioPins (clkA s) := by
  cases he : s.chanA.smEn with
  | false => rwa [clkA_of_stopped he]
  | true =>
    have hi := h.enabled he
    have hd := h.div hi
    have hpos := h.div_pos hw he
    cases hl : s.tgA.loaded with
    | false =>
      rw [clkA_of_empty he hl]
      exact driveA_audioPins (by simpa [loadFirstA]) (by simpa [loadFirstA]) (by simpa [loadFirstA]) rfl
        (by simpa [loadFirstA]) rfl
    | true =>
      obtain ⟨hctr, hbck, hws, hdout⟩ := h.loaded hl
      rcases Nat.lt_or_eq_of_le (Nat.succ_le_of_lt hctr) with hc | hc
      · rw [clkA_of_counting he hl hc]
        exact .of_loaded he hi hd hl ((toNat_ctr_succ hc).trans_lt hc) hbck hws hdout
      cases hh : s.tgA.half with
      | low =>
        rw [clkA_of_low he hl hc.ge hh]
        exact .of_loaded he hi hd hl hpos rfl hws hdout
      | high =>
        rw [clkA_of_high he hl hc.ge hh]
        split
        · exact driveA_audioPins (by simpa [beginLowA]) (by simpa [beginLowA]) (by simpa [beginLowA])
            (by simpa [beginLowA]) (by simpa [beginLowA]) (by simp [beginLowA])
        · exact driveA_audioPins he hi hd hl hpos rfl

theorem loadV_displayPins {s : State} (he : s.chanV.smEn = true) (hi : s.chanV.inited = true)
    (hd : s.chanV.div.toNat = s.cfg.divV) (hpos : 0 < s.chanV.div.toNat) (hsck : s.pins.lcdSck = false) (b : Byte)
    (rest : List Byte) : DisplayPins (loadV s b rest) :=
  .of_loaded he hi hd rfl hpos hsck rfl

/-- An edge of the display generator: stopped, a load or a stall, counting, the middle or the end of a bit period. -/
theorem clkV_keeps_displayPins {s : State} (h : DisplayPins s) (hw : s.cfg.WellFormed) : DisplayPins (clkV s) := by
  cases he : s.chanV.smEn with
  | false => rwa [clkV_of_stopped he]
  | true =>
    have hi := h.enabled he
    have hd := h.div hi
    have hpos := h.div_pos hw he
    cases hl : s.tgV.loaded with
    | false =>
      cases hq : s.fifoV with
      | nil => rwa [clkV_of_empty_nil he hl hq]
      | cons b rest =>
        rw [clkV_of_empty_cons he hl hq]
        exact loadV_displayPins he hi hd hpos (h.empty hl).1 b rest
    | true =>
      obtain ⟨hctr, hsck, hmosi⟩ := h.loaded hl
      rcases Nat.lt_or_eq_of_le (Nat.succ_le_of_lt hctr) with hc | hc
      · rw [clkV_of_counting he hl hc]
        exact .of_loaded he hi hd hl ((toNat_ctr_succ hc).trans_lt hc) hsck hmosi
      cases hh : s.tgV.half with
      | low =>
        rw [clkV_of_low he hl hc.ge hh]
        exact .of_loaded he hi hd hl hpos rfl hmosi
      | high =>
        rw [clkV_of_high he hl hc.ge hh]
        by_cases hslot : s.tgV.slot.val = 7
        · cases hq : s.fifoV with
          | nil =>
            rw [nextSlotV_of_last_nil (s := beginLowV s) hslot hq]
            exact ⟨fun _ => hi, fun _ => hd, fun h => (by cases he.symm.trans h), fun _ => ⟨rfl, rfl, rfl⟩, nofun⟩
          | cons b rest =>
            rw [nextSlotV_of_last_cons (s := beginLowV s) hslot hq]
            exact loadV_displayPins (s := beginLowV s) he hi hd hpos rfl b rest
        · rw [nextSlotV_of_next (s := beginLowV s) hslot]
          exact .of_loaded he hi hd hl hpos rfl rfl

/-- The two generators do not touch one another. -/
theorem clkEdge_keeps_pinInv {s : State} (h : PinInv s) (hw : s.cfg.WellFormed) : PinInv (clkEdge s) := by
  cases hh : s.halted with
  | true => rwa [clkEdge_of_halted hh]
  | false =>
    obtain ⟨ha, hv⟩ := pinInv_iff.mp h
    obtain ⟨htgV, -, -, hchanA, hchanV, hcfg, hsck, hmosi⟩ := clkA_video s
    obtain ⟨htgA, -, -, hchanA', hchanV', hcfg', hbck, hws, hdout⟩ := clkV_audio (clkA s)
    have haudio : AudioPins (clkA s) := clkA_keeps_audioPins ha hw
    have hdisplay : DisplayPins (clkA s) :=
      hv.frame hcfg (by rw [hchanV]) (by rw [hchanV]) (by rw [hchanV]) htgV hsck hmosi
    rw [clkEdge_of_live hh, pinInv_iff]
    exact ⟨haudio.frame hcfg' (by rw [hchanA']) (by rw [hchanA']) (by rw [hchanA']) htgA hbck hws hdout,
      clkV_keeps_displayPins hdisplay (hcfg ▸ hw)⟩

/-- What leaves a channel as it is leaves its generator in step with its pins. -/
theorem AudioPins.of_stands {s t : State} (h : AudioPins s) (hc : t.cfg = s.cfg) (hs : AudioStands s t) : AudioPins t :=
  h.frame hc (by rw [hs.chan]) (by rw [hs.chan]) (by rw [hs.chan]) hs.tg hs.bck hs.ws hs.dout

theorem DisplayPins.of_stands {s t : State} (h : DisplayPins s) (hc : t.cfg = s.cfg) (hs : DisplayStands s t) :
    DisplayPins t :=
  h.frame hc (by rw [hs.chan]) (by rw [hs.chan]) (by rw [hs.chan]) hs.tg hs.sck hs.mosi

/-- No instruction but INIT, START and STOP of a channel touches its generator, its pins, its enable bit or its
divisor. -/
theorem PinInv.frame {s t : State} (h : PinInv s) (hc : t.cfg = s.cfg) (hta : t.tgA = s.tgA) (htv : t.tgV = s.tgV)
    (hp : t.pins = s.pins)
    (ha : t.chanA.smEn = s.chanA.smEn ∧ t.chanA.inited = s.chanA.inited ∧ t.chanA.div = s.chanA.div)
    (hv : t.chanV.smEn = s.chanV.smEn ∧ t.chanV.inited = s.chanV.inited ∧ t.chanV.div = s.chanV.div) : PinInv t := by
  obtain ⟨haudio, hdisplay⟩ := pinInv_iff.mp h
  obtain ⟨hea, hia, hda⟩ := ha
  obtain ⟨hev, hiv, hdv⟩ := hv
  exact pinInv_iff.mpr ⟨haudio.frame hc hea hia hda hta (by rw [hp]) (by rw [hp]) (by rw [hp]),
    hdisplay.frame hc hev hiv hdv htv (by rw [hp]) (by rw [hp])⟩

theorem PinInv.of_sameBlock {s t : State} (h : PinInv s) (h0 : SameBlock s t) : PinInv t := by
  obtain ⟨e, rfl⟩ := h0.exists
  exact h.frame rfl rfl rfl rfl ⟨rfl, rfl, rfl⟩ ⟨rfl, rfl, rfl⟩

theorem startChan_cfg (ch : Channel) (s : State) : (startChan ch s).cfg = s.cfg := by
  obtain ⟨a, b, c, hst⟩ := startChan_fields ch s
  simp [hst]

theorem startChan_keeps_pinInv {ch : Channel} {s : State} (h : PinInv s) (hi : (s.chan ch).inited = true) :
    PinInv (startChan ch s) := by
  obtain ⟨ha, hv⟩ := pinInv_iff.mp h
  have hcfg := startChan_cfg ch s
  cases ch with
  | A => exact pinInv_iff.mpr ⟨startChan_A_audioPins ha hi, hv.of_stands hcfg (startChan_A_displayStands s)⟩
  | V => exact pinInv_iff.mpr ⟨ha.of_stands hcfg (startChan_V_audioStands s), startChan_V_displayPins hv hi⟩

theorem stopChan_keeps_pinInv {ch : Channel} {s : State} (h : PinInv s) : PinInv (stopChan ch s) := by
  obtain ⟨ha, hv⟩ := pinInv_iff.mp h
  cases ch with
  | A => exact pinInv_iff.mpr ⟨stopChan_A_audioPins ha, hv.of_stands rfl (stopChan_A_displayStands s)⟩
  | V => exact pinInv_iff.mpr ⟨ha.of_stands rfl (stopChan_V_audioStands s), stopChan_V_displayPins hv⟩

theorem exec_keeps_pinInv {i : Instr} {s t : State} (hw : s.cfg.WellFormed) (hp : PinInv s) (h : exec i s = .next t) :
    PinInv t := by
  obtain ⟨ha, hv⟩ := pinInv_iff.mp hp
  replace h := exec_cases h
  cases h with
  | initA _ _ h => exact h ▸ pinInv_iff.mpr ⟨initA_audioPins hw, hv.of_stands rfl (initA_displayStands s)⟩
  | initV _ _ h => exact h ▸ pinInv_iff.mpr ⟨ha.of_stands rfl (initV_audioStands s), initV_displayPins hw⟩
  | start ch _ hi h => exact h ▸ startChan_keeps_pinInv hp hi
  | stop ch _ _ h => exact h ▸ stopChan_keeps_pinInv hp
  | beat ch _ h => subst h; cases ch <;> exact hp.frame rfl rfl rfl rfl ⟨rfl, rfl, rfl⟩ ⟨rfl, rfl, rfl⟩
  | queueIdle _ _ _ _ _ h | airqRestart _ _ _ h =>
    rw [(swapAndStart_ok h).2]; exact hp.frame rfl rfl rfl rfl ⟨rfl, rfl, rfl⟩ ⟨rfl, rfl, rfl⟩
  | sfStart _ _ _ h =>
    obtain ⟨-, -, rfl⟩ := dmaStart_ok h; exact hp.frame rfl rfl rfl rfl ⟨rfl, rfl, rfl⟩ ⟨rfl, rfl, rfl⟩
  | same _ h | refused _ _ _ h | queueFault _ _ _ _ _ h | airqFault _ _ _ _ h | queueBusy _ _ _ _ _ h
  | bufferReady _ _ h | render _ _ _ h | send _ _ h | emitA _ _ _ _ _ h | emitV _ _ _ _ _ h | silence _ _ _ h
  | airqIdle _ _ _ h | copy _ _ h | publish _ _ h | take _ _ _ _ h | build _ _ h | finish _ _ _ h =>
    subst h; exact hp.frame rfl rfl rfl rfl ⟨rfl, rfl, rfl⟩ ⟨rfl, rfl, rfl⟩

/-- Settles O27: INIT, START and STOP leave a generator idle, an edge of `clk` keeps each generator in step with its
pins, and nothing else touches either. -/
theorem stepKeepsPins : Obligations.StepKeepsPins := by
  intro s t hw hp h
  cases (step_cases h).2 with
  | idle h => exact hp.of_sameBlock h
  | raised f _ h => 
    exact PinInv.of_sameBlock (s := s.raise f) (hp.frame rfl rfl rfl rfl ⟨rfl, rfl, rfl⟩ ⟨rfl, rfl, rfl⟩) h
  | ran i s0 h0 _ h => exact exec_keeps_pinInv (h0.pipelinesStand.cfg ▸ hw) (hp.of_sameBlock h0) h
  | wrote s0 h0 off v h =>
    obtain ⟨p0, p1, hwrite⟩ := writeReg_fields s0 off v
    rw [h, hwrite]; exact (hp.of_sameBlock h0).frame rfl rfl rfl rfl ⟨rfl, rfl, rfl⟩ ⟨rfl, rfl, rfl⟩
  | stored s0 h0 _ _ _ _ _ _ _ h =>
    rw [h]; exact (hp.of_sameBlock h0).frame rfl rfl rfl rfl ⟨rfl, rfl, rfl⟩ ⟨rfl, rfl, rfl⟩
  | clocked s0 h0 _ h =>
    exact h ▸ clkEdge_keeps_pinInv (hp.of_sameBlock h0) (h0.pipelinesStand.cfg ▸ hw)
  | reset e _ h => rw [h]; exact pinInv_resetIn _ _ e

end Sys2Proof.Safety
end

section
/-! The generators advance edge by edge (41_serial_sm R160-R162, R166, R169). A generator stands in half bit period `h`
of its frame or byte, and at count `c` of the divider in it: at position `h * div + c`. -/

namespace Sys2Proof.Safety

open Sys2Proof.Machine

/-- Below the last count the next position lies in the same half bit period, before the end of all `n`. -/
theorem halfPos_succ_lt {n h d c : Nat} (hh : h < n) (hc : c + 1 < d) : h * d + c + 1 < n * d := by
  have : (h + 1) * d ≤ n * d := Nat.mul_le_mul_right d hh
  have : (h + 1) * d = h * d + d := Nat.succ_mul h d
  omega

/-- From the last count the next position begins the next half bit period. -/
theorem halfPos_succ_of_last {h d c : Nat} (hc : c + 1 = d) : h * d + c + 1 = (h + 1) * d := by
  rw [Nat.succ_mul, ← hc, Nat.add_assoc]

/-- The half bit period the audio generator is in, of the 64 of a frame. -/
def audioHalf (s : State) : Nat := 2 * s.tgA.slot.val + (if s.tgA.half = .high then 1 else 0)

/-- The half bit period the display generator is in, of the 16 of a byte. -/
def displayHalf (s : State) : Nat := 2 * s.tgV.slot.val + (if s.tgV.half = .high then 1 else 0)

theorem audioPos_eq (s : State) : audioPos s = audioHalf s * s.chanA.div.toNat + s.tgA.ctr.toNat := rfl

theorem displayPos_eq (s : State) : displayPos s = displayHalf s * s.chanV.div.toNat + s.tgV.ctr.toNat := rfl

theorem audioHalf_lt (s : State) : audioHalf s < 64 := by
  have := s.tgA.slot.isLt
  unfold audioHalf; split <;> omega

theorem displayHalf_lt (s : State) : displayHalf s < 16 := by
  have := s.tgV.slot.isLt
  unfold displayHalf; split <;> omega

/-- The edge from `s` to `t` loads the next word of the FIFO, or a zero frame if it is empty. -/
def LoadsA (s t : State) : Prop :=
  audioPos t = 0 ∧ t.tgA.loaded = true ∧
  (∀ w rest, s.fifoA = w :: rest → t.fifoA = rest ∧ t.outA = s.outA ++ [.frame w] ∧ t.tgA.shreg = w) ∧
  (s.fifoA = [] → t.fifoA = [] ∧ t.outA = s.outA ++ [.silence] ∧ t.tgA.shreg = 0#32)

/-- The edge from `s` to `t` moves the audio generator on by one position, in the same frame. -/
def AdvancesA (s t : State) : Prop :=
  audioPos t = audioPos s + 1 ∧ t.tgA.loaded = true ∧ t.fifoA = s.fifoA ∧ t.outA = s.outA ∧ t.tgA.shreg = s.tgA.shreg

/-- The edge from `s` to `t` loads the byte at the head of the FIFO, if there is one. -/
def LoadsV (s t : State) : Prop :=
  ∀ b rest, s.fifoV = b :: rest → displayPos t = 0 ∧ t.tgV.loaded = true ∧ t.fifoV = rest ∧
    t.outV = s.outV ++ [b] ∧ t.tgV.shreg = b

/-- The edge from `s` to `t` moves the display generator on by one position, in the same byte. -/
def AdvancesV (s t : State) : Prop :=
  displayPos t = displayPos s + 1 ∧ t.tgV.loaded = true ∧ t.fifoV = s.fifoV ∧ t.outV = s.outV ∧
  t.tgV.shreg = s.tgV.shreg

theorem loadA_prevlsb (s : State) : (loadA s).tgA.prevlsb = s.tgA.shreg.getLsbD 0 := by rw [loadA]; split <;> rfl

/-- A load of what `u` has in its FIFO, with the generator at the start of slot 0, is a load from `s`. -/
theorem loadsA_of_loadA {s u t : State} (hf : u.fifoA = s.fifoA) (ho : u.outA = s.outA) (hslot : t.tgA.slot = 0)
    (hhalf : t.tgA.half = .low) (hctr : t.tgA.ctr = 0#16) (hl : t.tgA.loaded = true)
    (hshreg : t.tgA.shreg = (loadA u).tgA.shreg) (hfifo : t.fifoA = (loadA u).fifoA)
    (hout : t.outA = (loadA u).outA) : LoadsA s t := by
  refine ⟨by simp [audioPos, hslot, hhalf, hctr], hl, fun w rest hq => ?_, fun hq => ?_⟩
  · rw [hshreg, hfifo, hout, loadA_of_cons (hf.trans hq), ho]; exact ⟨rfl, rfl, rfl⟩
  · rw [hshreg, hfifo, hout, loadA_of_nil (hf.trans hq), ho]; exact ⟨hf.trans hq, rfl, rfl⟩

theorem clkA_loads_of_empty {s : State} (he : s.chanA.smEn = true) (hl : s.tgA.loaded = false) :
    LoadsA s (clkA s) := by
  rw [clkA_of_empty he hl]
  exact loadsA_of_loadA (u := s) rfl rfl (loadA_slot s) rfl rfl rfl rfl rfl rfl

/-- From the last count the position moves on to the start of the next half bit period. -/
theorem audioPos_of_next_half {s t : State} (hc : s.tgA.ctr.toNat + 1 = s.chanA.div.toNat)
    (hd : t.chanA.div = s.chanA.div) (hctr : t.tgA.ctr = 0#16) (hhalf : audioHalf t = audioHalf s + 1) :
    audioPos t = audioPos s + 1 := by
  rw [audioPos_eq, audioPos_eq, halfPos_succ_of_last hc, hd, hctr, hhalf]; rfl

theorem displayPos_of_next_half {s t : State} (hc : s.tgV.ctr.toNat + 1 = s.chanV.div.toNat)
    (hd : t.chanV.div = s.chanV.div) (hctr : t.tgV.ctr = 0#16) (hhalf : displayHalf t = displayHalf s + 1) :
    displayPos t = displayPos s + 1 := by
  rw [displayPos_eq, displayPos_eq, halfPos_succ_of_last hc, hd, hctr, hhalf]; rfl

/-- While a word is shifted an edge moves on in the frame, or is its last and loads. -/
theorem clkA_advances_or_loads {s : State} (he : s.chanA.smEn = true) (hl : s.tgA.loaded = true)
    (hctr : s.tgA.ctr.toNat < s.chanA.div.toNat) :
    (audioPos s + 1 < 64 * s.chanA.div.toNat ∧ AdvancesA s (clkA s)) ∨
    (audioPos s + 1 = 64 * s.chanA.div.toNat ∧ LoadsA s (clkA s) ∧
      (clkA s).tgA.prevlsb = s.tgA.shreg.getLsbD 0) := by
  have hlt := audioHalf_lt s
  rcases Nat.lt_or_eq_of_le (Nat.succ_le_of_lt hctr) with hc | hc
  · rw [clkA_of_counting he hl hc]
    refine .inl ⟨halfPos_succ_lt hlt hc, ?_, hl, rfl, rfl, rfl⟩
    change audioHalf s * _ + (s.tgA.ctr + 1#16).toNat = _
    rw [toNat_ctr_succ hc]; rfl
  have hnext : audioPos s + 1 = (audioHalf s + 1) * s.chanA.div.toNat := halfPos_succ_of_last hc
  have hmore : audioHalf s + 1 < 64 → audioPos s + 1 < 64 * s.chanA.div.toNat := fun h =>
    hnext ▸ Nat.mul_lt_mul_of_pos_right h (Nat.zero_lt_of_lt hctr)
  cases hh : s.tgA.half with
  | low =>
    have hhalf : audioHalf s = 2 * s.tgA.slot.val := by simp [audioHalf, hh]
    rw [clkA_of_low he hl hc.ge hh]
    exact .inl ⟨hmore (by omega), audioPos_of_next_half hc rfl rfl (by simp [audioHalf, hh]), hl, rfl, rfl, rfl⟩
  | high =>
    have hhalf : audioHalf s = 2 * s.tgA.slot.val + 1 := by simp [audioHalf, hh]
    rw [clkA_of_high he hl hc.ge hh]
    split
    · rename_i hslot
      have hload : LoadsA s (driveA (loadA (beginLowA s))) :=
        loadsA_of_loadA (u := beginLowA s) rfl rfl (loadA_slot _) (loadA_half _) (loadA_ctr _)
          ((loadA_loaded _).trans hl) rfl rfl rfl
      exact .inr ⟨by rw [hnext, hhalf, hslot], hload, loadA_prevlsb (beginLowA s)⟩
    · have hslot : (s.tgA.slot + 1).val = s.tgA.slot.val + 1 := by omega
      refine .inl ⟨hmore (by omega), audioPos_of_next_half hc rfl rfl ?_, hl, rfl, rfl, rfl⟩
      rw [hhalf]
      change 2 * (s.tgA.slot + 1).val + 0 = _
      omega

/-- While a byte is shifted an edge moves on in the byte, or is its last and loads the next or begins a stall. -/
theorem clkV_advances_or_loads {s : State} (he : s.chanV.smEn = true) (hl : s.tgV.loaded = true)
    (hctr : s.tgV.ctr.toNat < s.chanV.div.toNat) :
    (displayPos s + 1 < 16 * s.chanV.div.toNat ∧ AdvancesV s (clkV s)) ∨
    (displayPos s + 1 = 16 * s.chanV.div.toNat ∧ LoadsV s (clkV s) ∧ (s.fifoV = [] → (clkV s).tgV.loaded = false ∧
      (clkV s).fifoV = [] ∧ (clkV s).outV = s.outV ∧ (clkV s).pins.lcdSck = false ∧
      (clkV s).pins.lcdMosi = s.pins.lcdMosi)) := by
  have hlt := displayHalf_lt s
  rcases Nat.lt_or_eq_of_le (Nat.succ_le_of_lt hctr) with hc | hc
  · rw [clkV_of_counting he hl hc]
    refine .inl ⟨halfPos_succ_lt hlt hc, ?_, hl, rfl, rfl, rfl⟩
    change displayHalf s * _ + (s.tgV.ctr + 1#16).toNat = _
    rw [toNat_ctr_succ hc]; rfl
  have hnext : displayPos s + 1 = (displayHalf s + 1) * s.chanV.div.toNat := halfPos_succ_of_last hc
  have hmore : displayHalf s + 1 < 16 → displayPos s + 1 < 16 * s.chanV.div.toNat := fun h =>
    hnext ▸ Nat.mul_lt_mul_of_pos_right h (Nat.zero_lt_of_lt hctr)
  cases hh : s.tgV.half with
  | low =>
    have hhalf : displayHalf s = 2 * s.tgV.slot.val := by simp [displayHalf, hh]
    rw [clkV_of_low he hl hc.ge hh]
    exact .inl ⟨hmore (by omega), displayPos_of_next_half hc rfl rfl (by simp [displayHalf, hh]), hl, rfl, rfl, rfl⟩
  | high =>
    have hhalf : displayHalf s = 2 * s.tgV.slot.val + 1 := by simp [displayHalf, hh]
    rw [clkV_of_high he hl hc.ge hh]
    by_cases hslot : s.tgV.slot.val = 7
    · refine .inr ⟨by rw [hnext, hhalf, hslot], fun b rest hq => ?_, fun hq => ?_⟩
      · rw [nextSlotV_of_last_cons (s := beginLowV s) hslot hq]
        exact ⟨by simp [displayPos, loadV], rfl, rfl, rfl, rfl⟩
      · rw [nextSlotV_of_last_nil (s := beginLowV s) hslot hq]
        exact ⟨rfl, hq, rfl, rfl, rfl⟩
    · have hval : (s.tgV.slot + 1).val = s.tgV.slot.val + 1 := by omega
      rw [nextSlotV_of_next (s := beginLowV s) hslot]
      refine .inl ⟨hmore (by omega), displayPos_of_next_half hc rfl rfl ?_, hl, rfl, rfl, rfl⟩
      rw [hhalf]
      change 2 * (s.tgV.slot + 1).val + 0 = _
      omega

/-- Settles O25: an edge of the audio generator is stopped, a first load, or one of `clkA_advances_or_loads`; the
display generator's edge leaves the audio side alone. -/
theorem audioGeneratorAdvances : Obligations.AudioGeneratorAdvances := by
  intro s hw hp hh t loads
  obtain ⟨htg, hfifo, hout, hchan, -, -, hbck, hws, hdout⟩ := clkV_audio (clkA s)
  rw [← clkEdge_of_live hh] at htg hfifo hout hchan hbck hws hdout
  have hloads : LoadsA s (clkA s) → loads := by
    simp only [loads, t, audioPos, htg, hfifo, hout, hchan]; exact id
  have hadvances : AdvancesA s (clkA s) → AdvancesA s t := by
    simp only [AdvancesA, t, audioPos, htg, hfifo, hout, hchan]; exact id
  refine ⟨fun he => ?_, fun he hl => hloads (clkA_loads_of_empty he hl), fun he hl => ?_⟩
  · rw [clkA_of_stopped he] at htg hfifo hout hbck hws hdout
    exact ⟨htg, hfifo, hout, hbck, hws, hdout⟩
  · obtain ⟨hctr, -⟩ := hp.loadedA hl
    rcases clkA_advances_or_loads he hl hctr with ⟨hpos, hmove⟩ | ⟨hpos, hload, hprev⟩
    · exact ⟨Nat.lt_of_succ_lt hpos, fun _ => hadvances hmove, fun hend => absurd hend hpos.ne⟩
    · exact ⟨hpos.le, fun hmid => absurd hpos hmid.ne, fun _ => ⟨hloads hload, htg ▸ hprev⟩⟩

/-- The edge from `s` to `t` is one of the display generator: a stopped channel stands; a generator with no byte loads
or stalls; one with a byte moves on in it, or is at its last edge and loads the next byte or begins a stall. -/
def DisplayEdge (s t : State) : Prop :=
  (s.chanV.smEn = false → t.tgV = s.tgV ∧ t.fifoV = s.fifoV ∧ t.outV = s.outV ∧
    t.pins.lcdSck = s.pins.lcdSck ∧ t.pins.lcdMosi = s.pins.lcdMosi) ∧
  (s.chanV.smEn = true → s.tgV.loaded = false → LoadsV s t ∧ (s.fifoV = [] → t.tgV = s.tgV ∧ t.fifoV = [] ∧
    t.outV = s.outV ∧ t.pins.lcdSck = false ∧ t.pins.lcdMosi = s.pins.lcdMosi)) ∧
  (s.chanV.smEn = true → s.tgV.loaded = true →
    displayPos s < 16 * s.chanV.div.toNat ∧
    (displayPos s + 1 < 16 * s.chanV.div.toNat → AdvancesV s t) ∧
    (displayPos s + 1 = 16 * s.chanV.div.toNat → LoadsV s t ∧ (s.fifoV = [] → t.tgV.loaded = false ∧ t.fifoV = [] ∧
      t.outV = s.outV ∧ t.pins.lcdSck = false ∧ t.pins.lcdMosi = s.pins.lcdMosi)))

theorem clkV_displayEdge {s : State} (hp : DisplayPins s) : DisplayEdge s (clkV s) := by
  refine ⟨fun he => ?_, fun he hl => ⟨fun b rest hq => ?_, fun hq => ?_⟩, fun he hl => ?_⟩
  · rw [clkV_of_stopped he]; exact ⟨rfl, rfl, rfl, rfl, rfl⟩
  · rw [clkV_of_empty_cons he hl hq]; exact ⟨by simp [displayPos, loadV], rfl, rfl, rfl, rfl⟩
  · rw [clkV_of_empty_nil he hl hq]; exact ⟨rfl, hq, rfl, (hp.empty hl).1, rfl⟩
  · obtain ⟨hctr, -⟩ := hp.loaded hl
    rcases clkV_advances_or_loads he hl hctr with ⟨hpos, hmove⟩ | ⟨hpos, hload, hstall⟩
    · exact ⟨Nat.lt_of_succ_lt hpos, fun _ => hmove, fun hend => absurd hend hpos.ne⟩
    · exact ⟨hpos.le, fun hmid => absurd hpos hmid.ne, fun _ => ⟨hload, hstall⟩⟩

/-- Settles O26, by `clkV_displayEdge`: the audio generator's edge before it leaves the display side alone. -/
theorem displayGeneratorAdvances : Obligations.DisplayGeneratorAdvances := by
  intro s hw hp hh t loads
  obtain ⟨htg, hfifo, hout, -, hchan, hcfg, hsck, hmosi⟩ := clkA_video s
  have hpins : DisplayPins (clkA s) := (pinInv_iff.mp hp).2.frame hcfg (by rw [hchan]) (by rw [hchan]) (by rw [hchan])
    htg hsck hmosi
  have hpos : displayPos (clkA s) = displayPos s := by rw [displayPos, displayPos, htg, hchan]
  have hedge : DisplayEdge (clkA s) (clkV (clkA s)) := clkV_displayEdge hpins
  rw [← clkEdge_of_live hh] at hedge
  simp only [DisplayEdge, LoadsV, AdvancesV, hpos, htg, hfifo, hout, hchan, hsck, hmosi] at hedge
  exact hedge

end Sys2Proof.Safety
end

section
/-! Which instruction writes which field of the handoff (45_frame_handoff R307). -/

namespace Sys2Proof.Machine

/-- The handoff's flags, slots and framebuffer pointer are as they were. -/
structure HandoffStands (s t : State) : Prop where
  rfSrc : t.video.rfSrc = s.video.rfSrc
  wrSlot : t.video.wrSlot = s.video.wrSlot
  pubSlot : t.video.pubSlot = s.video.pubSlot
  consSlot : t.video.consSlot = s.video.consSlot
  fresh : t.video.fresh = s.video.fresh
  pending : t.video.pending = s.video.pending

theorem HandoffStands.of_video_eq {s t : State} (h : t.video = s.video) : HandoffStands s t := by
  constructor <;> rw [h]

/-- An instruction leaves the handoff alone, or it is one of its five writers. -/
theorem exec_handoff_cases {i : Instr} {s t : State} (h : exec i s = .next t) :
    HandoffStands s t ∨
    (i = .init .V ∧ t.video = { s.video with
      pending := false, fresh := false, consSlot := false, pubSlot := false, wrSlot := false }) ∨
    (i = .renderFrame ∧ t.video = { s.video with
      rfSrc := s.port0.arg0, wrSlot := !s.video.consSlot, pphase := .copy }) ∨
    (i = .rfPublish ∧ t.video = { s.video with
      pubSlot := s.video.wrSlot, fresh := true, pending := true, pphase := .idle }) ∨
    (i = .sfTake ∧ t.video = { s.video with
      consSlot := s.video.pubSlot, fresh := false, brow := 0, trow := 0, cphase := .build }) ∨
    (i = .sfFinish ∧ t.video = { s.video with pending := s.video.fresh, cphase := .idle }) := by
  replace h := exec_cases h
  cases h with
  | initV _ _ h => subst h; exact .inr (.inl ⟨rfl, rfl⟩)
  | render _ _ _ h => subst h; exact .inr (.inr (.inl ⟨rfl, rfl⟩))
  | publish _ _ h => subst h; exact .inr (.inr (.inr (.inl ⟨rfl, rfl⟩)))
  | take _ _ _ _ h => subst h; exact .inr (.inr (.inr (.inr (.inl ⟨rfl, rfl⟩))))
  | finish _ _ _ h => subst h; exact .inr (.inr (.inr (.inr (.inr ⟨rfl, rfl⟩))))
  | queueIdle _ _ _ _ _ h | airqRestart _ _ _ h => rw [(swapAndStart_ok h).2]; exact .inl (.of_video_eq rfl)
  | sfStart _ _ _ h => obtain ⟨-, -, rfl⟩ := dmaStart_ok h; exact .inl ⟨rfl, rfl, rfl, rfl, rfl, rfl⟩
  | beat ch _ h | stop ch _ _ h => subst h; cases ch <;> exact .inl (.of_video_eq rfl)
  | start ch _ _ h =>
    obtain ⟨a, b, c, hst⟩ := startChan_fields ch s
    rw [h, hst]; exact .inl (.of_video_eq (by simp))
  | same _ h | refused _ _ _ h | queueFault _ _ _ _ _ h | airqFault _ _ _ _ h | initA _ _ h | queueBusy _ _ _ _ _ h
  | bufferReady _ _ h | emitA _ _ _ _ _ h | emitV _ _ _ _ _ h | silence _ _ _ h | airqIdle _ _ _ h =>
    subst h; exact .inl (.of_video_eq rfl)
  | send _ _ h | copy _ _ h | build _ _ h => subst h; exact .inl ⟨rfl, rfl, rfl, rfl, rfl, rfl⟩

/-- Settles O48, writer by writer of `exec_handoff_cases`. -/
theorem singleWriterPerField : Obligations.SingleWriterPerField := by
  intro i s t h
  rcases exec_handoff_cases h with hstand | ⟨rfl, hv⟩ | ⟨rfl, hv⟩ | ⟨rfl, hv⟩ | ⟨rfl, hv⟩ | ⟨rfl, hv⟩
  · obtain ⟨hsrc, hwr, hpub, hcons, hfresh, hpending⟩ := hstand
    rw [hsrc, hwr, hpub, hcons, hfresh, hpending]
    cases s.video.fresh <;> cases s.video.pending <;> simp
  all_goals simp [hv]

end Sys2Proof.Machine
end

section
/-! A swap takes its request with it (43_audio_ring R233, R234). -/

namespace Sys2Proof.Machine

open Sys2Proof.Safety

/-- With no completion there is no request, and AIRQ_SWAP does nothing. -/
theorem no_request_of_not_done {s : State} (h : s.chanA.dmaDone = false) :
    s.irqReq .A = false ∧ exec .airqSwap s = .next s := by
  have hreq : s.irqReq .A = false := by simp [State.irqReq, h]
  exact ⟨hreq, exec_airqSwap_of_no_request hreq⟩

/-- 43_audio_ring R223: QUEUE_SAMPLES swaps the buffers on an idle engine alone, and starts a transfer then. -/
theorem queueSamples_swap_starts {s t : State} (hw : s.cfg.WellFormed) (h : exec .queueSamples s = .next t)
    (hswap : s.ring.activeId ≠ t.ring.activeId) : t.chanA.dmaDone = false := by
  replace h := exec_cases h
  cases h with
  | same _ h | refused _ _ _ h | queueBusy _ _ _ _ _ h | queueFault _ _ _ _ _ h => subst h; exact absurd rfl hswap
  | queueIdle _ _ _ hc _ h =>
    rw [(swapAndStart_ok h).2]
    exact decide_eq_false (ofNat_accepted_ne_zero hw hc)

/-- Settles O33: both swaps leave `dma_done` clear. -/
theorem swapRunsOncePerCompletion : Obligations.SwapRunsOncePerCompletion := by
  refine fun s t hs hi hh => ⟨fun h hreq => no_request_of_not_done ?_, fun h hswap =>
    no_request_of_not_done (queueSamples_swap_starts hs.config h hswap)⟩
  obtain ⟨hd, hie⟩ := irqReq_A_iff.mp hreq
  obtain ⟨hpending, hnone, -, -⟩ := airqSwapRule s hs.config hi
  cases hready : s.ring.ready with
  | true => rw [hpending hd hie hh hready] at h; cases h; rfl
  | false => rw [hnone hd hie hh hready] at h; cases h; rfl

end Sys2Proof.Machine
end

section
/-! SF_BUILD byte by byte (44_display_pipeline R273), and the stream SF_TAKE opens (R272, R276 (f)). -/

namespace Sys2Proof.Machine

open Sys2Proof.Safety

theorem exec_sfBuild_of_build {s : State} (hc : s.video.cphase = .build) (hh : s.halted = false) :
    exec .sfBuild s = .next { s with
      mem := s.mem.writeBytes (slAddr s.cfg (rowParity s.video.brow))
        (rowBytes s.cfg s.mem s.video.consSlot s.video.brow.toNat)
      video := { s.video with brow := s.video.brow + 1#16, cphase := .start } } :=
  await_of_enabled (by simp [hc, hh])

theorem slSize_le {c : Config} (hw : c.WellFormed) : slSize c ≤ 2 ^ 32 := le_of_add_le_right (hw.sl_inside false)

/-- The two bytes of output pixel `x` stand side by side in the row. -/
theorem getElem?_rowBytes (c : Config) (m : Memory) (k : Bool) (r : Nat) {x i : Nat} (hx : x < c.outW) (hi : i < 2) :
    (rowBytes c m k r)[2 * x + i]? = (pixelBytes (outPixel c m k r x))[i]? :=
  getElem?_flatMap_range c.outW 2 (fun x => pixelBytes (outPixel c m k r x)) (fun _ => rfl) x i hx hi

/-- Byte `i` of output pixel `x` in the row just stored at `a`. -/
theorem read_writeBytes_rowBytes {c : Config} {m : Memory} (hw : c.WellFormed) (hm : m.wf = true) (a : Word) (k : Bool)
    (r : Nat) {x i : Nat} {b : Byte} (hx : x < c.outW) (hi : i < 2)
    (hb : (pixelBytes (outPixel c m k r x))[i]? = some b) :
    (m.writeBytes a (rowBytes c m k r)).read (a + BitVec.ofNat 32 (2 * x + i)) = b := by
  have hmax := hw.outW_pos.2
  rw [Memory.read_writeBytes hm (by rw [length_rowBytes]; exact slSize_le hw), off_toNat _ _ (by omega),
    getElem?_rowBytes c m k r hx hi, hb, Option.getD_some]

/-- A row stored at a Scanline Buffer changes that buffer alone. -/
theorem read_writeBytes_row_of_not_within {c : Config} {m : Memory} (hw : c.WellFormed) (hm : m.wf = true)
    {a row : Word} {k : Bool} {r : Nat} (ha : ¬ Within a row (slSize c)) :
    (m.writeBytes row (rowBytes c m k r)).read a = m.read a := by
  refine Memory.read_writeBytes_of_ge hm ?_ ?_ <;> rw [length_rowBytes]
  · exact slSize_le hw
  · exact not_lt.mp ha

/-- 44_display_pipeline R268: in the default layout the channels are nibbles 3, 2 and 1. -/
theorem rgb565_default {l : PixelLayout} (h : l = PixelLayout.default) (pix : HalfWord) :
    rgb565 (nibble pix l.r) (nibble pix l.g) (nibble pix l.b) =
      rgb565 (pix.extractLsb' 12 4) (pix.extractLsb' 8 4) (pix.extractLsb' 4 4) := by
  rw [h]; rfl

/-- Settles O39: the bytes stored are those of `rowBytes`, in the Scanline Buffer of the row's parity. -/
theorem sfBuildRule : Obligations.SfBuildRule := by
  refine fun s hs => ⟨fun hc hh => ⟨_, exec_sfBuild_of_build hc hh, ?_, fun a ha => ?_, rfl⟩, fun hoff => ?_, rfl⟩
  · rw [← rowParity_eq]
    exact fun x hx => ⟨fun hl => rgb565_default hl _,
      read_writeBytes_rowBytes hs.config hs.memory _ _ _ hx (i := 0) (by decide) rfl,
      read_writeBytes_rowBytes hs.config hs.memory _ _ _ hx (i := 1) (by decide) rfl⟩
  · rw [← rowParity_eq] at ha
    exact read_writeBytes_row_of_not_within hs.config hs.memory ha
  · rcases hoff with h | h <;> exact await_of_not_enabled (by simp [h])

/-- Settles O42: the engine is idle before the take, and no row of the new frame stands built. -/
theorem takeOpensFrameStream : Obligations.TakeOpensFrameStream := by
  intro s t hs hi hc hf hp hh h
  obtain ⟨htake, -, -⟩ := sfTakeRule s
  rw [htake hc hf hp hh] at h
  cases h
  have hidle : s.chanV.dmaBusy = false := hi.idleFree (consuming_eq_false (.inr hc))
  exact ⟨rfl, rfl, by simp [FrameStream, displayCommitted, builtRow, frameRows, hidle]⟩

end Sys2Proof.Machine
end

section
/-! The audio words the block has taken on: none lost, mixed or repeated (43_audio_ring R220, R235, 41_serial_sm R175,
42_dma R195). -/

namespace Sys2Proof.Machine

open Sys2Proof.Safety

/-- A beat that leaves no transfer in flight moved the last element. -/
theorem Chan.afterBeat_eq_zero {c : Chan} {n : Nat} (hb : c.dmaBusy = true) (h : (c.afterBeat n).dmaBusy = false) :
    (c.afterBeat n).dmaCount = 0#32 := by
  simpa [Chan.afterBeat, hb] using h

/-- Two memories that agree on the four bytes of a word give the same word. -/
theorem Memory.read32_congr {m m' : Memory} {a : Word}
    (h : ∀ i, i < 4 → m'.read (a + BitVec.ofNat 32 i) = m.read (a + BitVec.ofNat 32 i)) : m'.read32 a = m.read32 a := by
  have h0 : m'.read a = m.read a := by simpa using h 0 (by decide)
  rw [Memory.read32, Memory.read32, h0, h 1 (by decide), h 2 (by decide), h 3 (by decide)]

/-- QUEUE_SAMPLES changes no byte outside the fill buffer (43_audio_ring R220). -/
theorem read_fillBuffer_of_not_in_fill {s : State} (hs : Sound s) {a : Word}
    (ha : ¬ Within a (abufAddr s.cfg s.ring.fillId) (abufSize s.cfg)) : (fillBuffer s).mem.read a = s.mem.read a :=
  read_fillBuffer_of_not_within hs fun hin => ha (hin.trans_le (Nat.mul_le_mul_left 4 (Nat.min_le_right ..)))

end Sys2Proof.Machine

namespace Sys2Proof.Safety

open Sys2Proof.Machine

@[simp] theorem frames_append_frame (out : List AudioOut) (w : Word) :
    frames (out ++ [.frame w]) = frames out ++ [w] := by
  simp [frames]

@[simp] theorem frames_append_silence (out : List AudioOut) : frames (out ++ [.silence]) = frames out := by
  simp [frames]

/-- A load moves the oldest word of the FIFO to the stream, or adds a Silence. -/
theorem loadA_stream (s : State) : frames (loadA s).outA ++ (loadA s).fifoA = frames s.outA ++ s.fifoA := by
  cases hq : s.fifoA with
  | nil => simp [loadA_of_nil hq, hq]
  | cons w rest => simp [loadA_of_cons hq]

theorem clkA_stream (s : State) : frames (clkA s).outA ++ (clkA s).fifoA = frames s.outA ++ s.fifoA := by
  cases he : s.chanA.smEn with
  | false => rw [clkA_of_stopped he]
  | true =>
    cases hl : s.tgA.loaded with
    | false => rw [clkA_of_empty he hl]; exact loadA_stream s
    | true =>
      rcases Nat.lt_or_ge (s.tgA.ctr.toNat + 1) s.chanA.div.toNat with hc | hc
      · rw [clkA_of_counting he hl hc]
      cases hh : s.tgA.half with
      | low => rw [clkA_of_low he hl hc hh]
      | high =>
        rw [clkA_of_high he hl hc hh]
        split
        · exact loadA_stream (beginLowA s)
        · rfl

/-- An edge of `clk` takes on no word and loses none. -/
theorem clkEdge_audioCommitted (s : State) : audioCommitted (clkEdge s) = audioCommitted s := by
  cases hh : s.halted with
  | true => rw [clkEdge_of_halted hh]
  | false =>
    obtain ⟨-, hfifo, hout, hchan, -⟩ := clkV_audio (clkA s)
    obtain ⟨-, -, -, hchan', -⟩ := clkA_video s
    rw [← clkEdge_of_live hh] at hfifo hout hchan
    rw [audioCommitted, hfifo, hout, hchan, hchan', clkEdge_mem, clkA_stream, ← audioCommitted]

/-- No instruction but INIT A changes a byte of the active Sample Buffer (43_audio_ring R220). -/
theorem exec_keeps_active_buffer {i : Instr} {s t : State} (hs : Sound s) (hi : AudioInv s) (h : exec i s = .next t)
    (hne : i ≠ .init .A) {a : Word} (ha : Within a (abufAddr s.cfg s.ring.activeId) (abufSize s.cfg)) :
    t.mem.read a = s.mem.read a := by
  have hfill : (fillBuffer s).mem.read a = s.mem.read a :=
    read_fillBuffer_of_not_in_fill hs (hi.ids ▸ abuf_not_other hs.config ha)
  rcases exec_mem_cases hs h with hsame | ⟨hwriter, -⟩
  · rw [hsame]
  replace h := exec_cases h
  cases h with
  | same _ h | refused _ _ _ h | queueFault _ _ _ _ _ h => subst h; rfl
  | initA => exact absurd rfl hne
  | initV _ _ h => exact h ▸ (initV_audioStands s).buffers hs.config a _ ha
  | queueBusy _ _ _ _ _ h => exact h ▸ hfill
  | queueIdle _ _ _ _ _ h => rw [(swapAndStart_ok h).2]; exact hfill
  | copy _ _ h =>
    exact h ▸ Memory.read_copy_of_not_within hs.memory (snapSize_le hs.config) (abuf_not_snap hs.config ha)
  | build _ _ h =>
    exact h ▸ read_writeBytes_row_of_not_within hs.config hs.memory (abuf_not_sl hs.config ha)
  | _ => simp at hwriter

/-- Two memories that agree on the active Sample Buffer give the words of the transfer in flight alike: it reads inside
that buffer. -/
theorem wordsAt_congr {s : State} (hw : s.cfg.WellFormed) (hi : AudioInv s) (hb : s.chanA.dmaBusy = true) {m : Memory}
    (hm : ∀ a, Within a (abufAddr s.cfg s.ring.activeId) (abufSize s.cfg) → m.read a = s.mem.read a) :
    wordsAt m s.chanA.dmaAddr s.chanA.dmaCount.toNat = wordsAt s.mem s.chanA.dmaAddr s.chanA.dmaCount.toNat := by
  obtain ⟨k, haddr, hcount⟩ := hi.readsActive hb
  have hsize : abufSize s.cfg ≤ 2 ^ 32 := hw.audCap_lt
  have hbase : s.chanA.dmaAddr = abufAddr s.cfg s.ring.activeId + BitVec.ofNat 32 (4 * k) := by
    apply BitVec.eq_of_toNat_eq
    have := s.chanA.dmaAddr.isLt
    simp only [BitVec.toNat_add, BitVec.toNat_ofNat]; omega
  refine List.map_congr_left fun j hj => Memory.read32_congr fun i hi4 => hm _ ?_
  have hj : j < s.chanA.dmaCount.toNat := List.mem_range.mp hj
  rw [hbase, add_ofNat, add_ofNat]
  exact within_add_ofNat _ hsize (by unfold abufSize; omega)

theorem wordsAt_succ (m : Memory) (a : Word) (n : Nat) :
    wordsAt m a (n + 1) = m.read32 a :: wordsAt m (a + 4#32) n := by
  simp only [wordsAt, List.range_succ_eq_map, List.map_cons, List.map_map]
  refine congrArg₂ _ (by simp) (List.map_congr_left fun j _ => ?_)
  rw [Function.comp_apply, show (4#32 : Word) = BitVec.ofNat 32 4 from rfl, add_ofNat, Nat.mul_succ, Nat.add_comm]

/-- The stream, the FIFO and the transfer in flight are as they were, and so is the active Sample Buffer's owner. -/
structure TransferStands (s t : State) : Prop where
  out : frames t.outA = frames s.outA
  fifo : t.fifoA = s.fifoA
  busy : t.chanA.dmaBusy = s.chanA.dmaBusy
  addr : t.chanA.dmaAddr = s.chanA.dmaAddr
  count : t.chanA.dmaCount = s.chanA.dmaCount
  active : t.ring.activeId = s.ring.activeId

theorem transferStands_of_audioStands {s t : State} (h : AudioStands s t) : TransferStands s t := by
  constructor <;> simp only [h.out, h.fifo, h.chan, h.ring]

/-- No word is taken on or lost while the transfer stands and the active Sample Buffer keeps its bytes. -/
theorem TransferStands.audioCommitted {s t : State} (h : TransferStands s t) (hw : s.cfg.WellFormed) (hi : AudioInv s)
    (hm : ∀ a, Within a (abufAddr s.cfg s.ring.activeId) (abufSize s.cfg) → t.mem.read a = s.mem.read a) :
    audioCommitted t = audioCommitted s := by
  rw [Safety.audioCommitted, Safety.audioCommitted, h.out, h.fifo, h.busy, h.addr, h.count]
  split
  · rw [wordsAt_congr hw hi ‹_› hm]
  · rfl

/-- A beat moves the first word of the transfer to the end of the FIFO. -/
theorem beat_A_audioCommitted {s : State} (hi : AudioInv s) (he : beatEnabled .A s = true) :
    audioCommitted ((pushElement .A s).setChan .A ((s.chan .A).afterBeat (esz .A))) = audioCommitted s := by
  have hb : s.chanA.dmaBusy = true := busy_of_beatEnabled he
  have hcount := Chan.afterBeat_count 4 (hi.busyCount hb)
  have hrest : (if (s.chanA.afterBeat 4).dmaBusy then
      wordsAt s.mem (s.chanA.afterBeat 4).dmaAddr (s.chanA.afterBeat 4).dmaCount.toNat else []) =
      wordsAt s.mem (s.chanA.afterBeat 4).dmaAddr (s.chanA.afterBeat 4).dmaCount.toNat := by
    split
    · rfl
    · rename_i hend
      rw [Chan.afterBeat_eq_zero hb (Bool.eq_false_of_not_eq_true hend)]; rfl
  change frames s.outA ++ (s.fifoA ++ [s.mem.read32 s.chanA.dmaAddr]) ++ _ = _
  rw [audioCommitted, hb, if_pos rfl, ← hcount, wordsAt_succ]
  refine (congrArg _ hrest).trans ?_
  simp [Chan.afterBeat]

/-- A swap on an idle engine takes on exactly the words of the buffer swapped in. -/
theorem swapAndStart_audioCommitted {s t : State} (h : swapAndStart s = .ok t) (hlen : s.ring.xferLen ≠ 0#32) :
    audioCommitted t = audioCommitted s ++ wordsAt s.mem (abufAddr s.cfg s.ring.fillId) s.ring.xferLen.toNat := by
  obtain ⟨hb, rfl⟩ := swapAndStart_ok h
  simp [audioCommitted, hb, hlen]

/-- The words of the buffer QUEUE_SAMPLES filled are the wire words of the samples (43_audio_ring R221, R223). -/
theorem wordsAt_fillBuffer {s : State} (hs : Sound s) :
    wordsAt (fillBuffer s).mem (abufAddr s.cfg s.ring.fillId) (fillBuffer s).ring.xferLen.toNat =
      (List.range (accepted s.cfg s.port0.arg1)).map fun j => wire (sample s.mem s.port0.arg0 j) := by
  have hlen : (fillBuffer s).ring.xferLen.toNat = accepted s.cfg s.port0.arg1 :=
    toNat_ofNat_accepted hs.config s.port0.arg1
  rw [hlen]
  exact List.map_congr_left fun j hj => read32_fillBuffer hs (List.mem_range.mp hj)

/-- What an instruction but STOP A and INIT A does to the words taken on: nothing, or a swap extends them. -/
theorem exec_audioCommitted_cases {i : Instr} {s t : State} (hs : Sound s) (hi : AudioInv s) (h : exec i s = .next t)
    (hstop : i ≠ .stop .A) (hinit : i ≠ .init .A) :
    (t.ring.activeId = s.ring.activeId ∧ audioCommitted t = audioCommitted s) ∨
    (t.ring.activeId ≠ s.ring.activeId ∧ i = .queueSamples ∧ audioCommitted t = audioCommitted s ++
      (List.range (accepted s.cfg s.port0.arg1)).map fun j => wire (sample s.mem s.port0.arg0 j)) ∨
    (t.ring.activeId ≠ s.ring.activeId ∧ i = .airqSwap ∧ audioCommitted t = audioCommitted s ++
      wordsAt s.mem (abufAddr s.cfg s.ring.fillId) s.ring.xferLen.toNat) := by
  have hstands : TransferStands s t →
      t.ring.activeId = s.ring.activeId ∧ audioCommitted t = audioCommitted s := fun hst =>
    ⟨hst.active, hst.audioCommitted hs.config hi fun a => exec_keeps_active_buffer hs hi h hinit⟩
  have hswap : s.ring.fillId ≠ s.ring.activeId := by rw [hi.ids]; simp
  replace h := exec_cases h
  cases h with
  | initA => exact absurd rfl hinit
  | initV _ _ h => exact .inl (hstands (h ▸ transferStands_of_audioStands (initV_audioStands s)))
  | stop ch _ _ h =>
    cases ch with
    | A => exact absurd rfl hstop
    | V => exact .inl (hstands (h ▸ transferStands_of_audioStands (stopChan_V_audioStands s)))
  | start ch _ _ h =>
    obtain ⟨a, b, c, hst⟩ := startChan_fields ch s
    refine .inl (hstands ?_)
    rw [h, hst]
    cases ch <;> exact ⟨rfl, rfl, rfl, rfl, rfl, rfl⟩
  | queueIdle _ _ _ hc hb h =>
    have hgrow := swapAndStart_audioCommitted h (ofNat_accepted_ne_zero hs.config hc)
    have hsame : audioCommitted (fillBuffer s) = audioCommitted s := by simp [audioCommitted, fillBuffer, hb]
    rw [hsame] at hgrow
    refine .inr (.inl ⟨?_, rfl, hgrow.trans (congrArg _ (wordsAt_fillBuffer hs))⟩)
    rw [(swapAndStart_ok h).2]; exact hswap
  | airqRestart _ _ hr h =>
    refine .inr (.inr ⟨?_, rfl, swapAndStart_audioCommitted h (hi.readyLen hr)⟩)
    rw [(swapAndStart_ok h).2]; exact hswap
  | emitA w rest _ _ hq h => subst h; exact .inl ⟨rfl, by simp [audioCommitted, hq]⟩
  | beat ch he h =>
    subst h
    cases ch with
    | A => exact .inl ⟨rfl, beat_A_audioCommitted hi he⟩
    | V => exact .inl (hstands ⟨rfl, rfl, rfl, rfl, rfl, rfl⟩)
  | silence _ _ _ h => subst h; exact .inl (hstands ⟨frames_append_silence _, rfl, rfl, rfl, rfl, rfl⟩)
  | sfStart _ _ _ h => obtain ⟨-, -, rfl⟩ := dmaStart_ok h; exact .inl (hstands ⟨rfl, rfl, rfl, rfl, rfl, rfl⟩)
  | same _ h | refused _ _ _ h | queueFault _ _ _ _ _ h | airqFault _ _ _ _ h | queueBusy _ _ _ _ _ h
  | bufferReady _ _ h | render _ _ _ h | send _ _ h | emitV _ _ _ _ _ h | airqIdle _ _ _ h | copy _ _ h
  | publish _ _ h | take _ _ _ _ h | build _ _ h | finish _ _ _ h =>
    subst h; exact .inl (hstands ⟨rfl, rfl, rfl, rfl, rfl, rfl⟩)

/-- Settles O34, by the three cases of `exec_audioCommitted_cases`, and `clkEdge_audioCommitted`. -/
theorem audioWordsNeitherLostNorRepeated : Obligations.AudioWordsNeitherLostNorRepeated := by
  refine ⟨fun i s t hs hi h hstop hinit => ?_, clkEdge_audioCommitted⟩
  rcases exec_audioCommitted_cases hs hi h hstop hinit with ⟨hsame, hcomm⟩ | ⟨hswap, rfl, hcomm⟩ | ⟨hswap, rfl, hcomm⟩
  · exact ⟨by rw [hcomm, if_pos hsame.symm, List.append_nil], fun hne => absurd hsame.symm hne⟩
  · exact ⟨by rw [hcomm, if_neg hswap.symm, if_pos rfl], fun _ => .inl rfl⟩
  · exact ⟨by rw [hcomm, if_neg hswap.symm, if_neg nofun], fun _ => .inr rfl⟩

end Sys2Proof.Safety
end

section
/-! The bytes of a frame in progress: which bytes of memory its stream rests on, and where they go (44_display_pipeline
R273, R274, R276). -/

namespace Sys2Proof.Machine

open Sys2Proof.Safety

/-- A block write reads back whole. -/
theorem Memory.readBytes_writeBytes {m : Memory} (hm : m.wf = true) (a : Word) {bs : List Byte}
    (hl : bs.length ≤ 2 ^ 32) : (m.writeBytes a bs).readBytes a bs.length = bs := by
  refine List.ext_getElem (by simp) fun i h _ => ?_
  have hi : i < bs.length := by simpa using h
  have hoff := off_toNat a i (hi.trans_le hl)
  rw [Memory.getElem_readBytes, Memory.read_writeBytes_of_lt hm hl (by rwa [hoff])]
  simp only [hoff]

theorem Memory.read16_congr {m m' : Memory} {a : Word} (h0 : m'.read a = m.read a)
    (h1 : m'.read (a + 1#32) = m.read (a + 1#32)) : m'.read16 a = m.read16 a := by
  rw [Memory.read16, Memory.read16, h0, h1]

/-- Two memories that agree on a snapshot slot give the same output rows of its frame: every source pixel lies inside
the slot (44_display_pipeline R264). -/
theorem rowBytes_congr {c : Config} (hw : c.WellFormed) {m m' : Memory} {k : Bool} {r : Nat} (hr : r < c.outH)
    (hm : ∀ a, Within a (snapAddr c k) (snapSize c) → m'.read a = m.read a) :
    rowBytes c m' k r = rowBytes c m k r := by
  obtain ⟨-, -, -, -, hin⟩ := rescaleInRangeAndMonotone c hw
  rw [rowBytes, rowBytes, List.flatMap, List.flatMap]
  refine congrArg _ (List.map_congr_left fun x hx => ?_)
  obtain ⟨hlow, hhigh⟩ := hin k r x hr (List.mem_range.mp hx)
  rw [outPixel, outPixel, Memory.read16_congr (hm _ hlow) (hm _ hhigh)]

theorem frameRows_congr {c : Config} (hw : c.WellFormed) {m m' : Memory} {k : Bool} {n : Nat} (hn : n ≤ c.outH)
    (hm : ∀ a, Within a (snapAddr c k) (snapSize c) → m'.read a = m.read a) :
    frameRows c m' k n = frameRows c m k n := by
  rw [frameRows, frameRows, List.flatMap, List.flatMap]
  exact congrArg _ (List.map_congr_left fun r hr => rowBytes_congr hw ((List.mem_range.mp hr).trans_le hn) hm)

theorem frameRows_succ (c : Config) (m : Memory) (k : Bool) (n : Nat) :
    frameRows c m k (n + 1) = frameRows c m k n ++ rowBytes c m k n := by
  simp [frameRows, List.range_succ]

/-- The row before stands in the other Scanline Buffer (44_display_pipeline R273, R274). -/
theorem rowParity_pred {r : BitVec 16} (h : 1 ≤ r.toNat) : rowParity (r - 1#16) = !rowParity r := by
  have hlt := r.isLt
  have hpred : (r - 1#16).toNat = r.toNat - 1 := by
    simp only [BitVec.toNat_sub, BitVec.toNat_ofNat]; omega
  have hflip : (r.toNat - 1) % 2 = 1 ↔ ¬ r.toNat % 2 = 1 := by omega
  rw [rowParity_eq, rowParity_eq, hpred, ← decide_not]
  exact decide_eq_decide.mpr hflip

/-- The bytes of a transfer in flight lie in the Scanline Buffer of the last row started. -/
theorem transferBytes_congr {s : State} (hw : s.cfg.WellFormed) (hi : VideoInv s) (hb : s.chanV.dmaBusy = true)
    {m : Memory}
    (hm : ∀ a, Within a (slAddr s.cfg (rowParity (s.video.trow - 1#16))) (slSize s.cfg) → m.read a = s.mem.read a) :
    m.readBytes s.chanV.dmaAddr s.chanV.dmaCount.toNat = s.mem.readBytes s.chanV.dmaAddr s.chanV.dmaCount.toNat := by
  obtain ⟨-, k, haddr, hcount⟩ := hi.readsRow hb
  have hsize := slSize_le hw
  have hbase : s.chanV.dmaAddr = slAddr s.cfg (rowParity (s.video.trow - 1#16)) + BitVec.ofNat 32 k := by
    apply BitVec.eq_of_toNat_eq
    have := s.chanV.dmaAddr.isLt
    simp only [BitVec.toNat_add, BitVec.toNat_ofNat]; omega
  refine Memory.readBytes_congr fun i hlt => hm _ ?_
  rw [hbase, add_ofNat]
  exact within_add_ofNat _ hsize (by omega)

/-- A byte of a Scanline Buffer, or of the slot the consumer reads. -/
def InFrame (s : State) (a : Word) : Prop :=
  (∃ k, Within a (slAddr s.cfg k) (slSize s.cfg)) ∨ Within a (snapAddr s.cfg s.video.consSlot) (snapSize s.cfg)

theorem InFrame.inBuffers {s : State} {a : Word} (h : InFrame s a) : InBuffers s.cfg a := by
  rcases h with ⟨k, h⟩ | h
  · exact ⟨k, .inr (.inl h)⟩
  · exact ⟨_, .inr (.inr h)⟩

/-- The frame in progress stands: its rows, its transfer, the bytes on their way and those it rests on. -/
structure FrameStands (s t : State) : Prop where
  cfg : t.cfg = s.cfg
  stream : t.outV ++ t.fifoV = s.outV ++ s.fifoV
  busy : t.chanV.dmaBusy = s.chanV.dmaBusy
  addr : t.chanV.dmaAddr = s.chanV.dmaAddr
  count : t.chanV.dmaCount = s.chanV.dmaCount
  cphase : t.video.cphase = s.video.cphase
  brow : t.video.brow = s.video.brow
  trow : t.video.trow = s.video.trow
  consSlot : t.video.consSlot = s.video.consSlot
  bytes : ∀ a, InFrame s a → t.mem.read a = s.mem.read a

/-- What a step of the frame in progress leaves: the frame goes on, or it has ended with all its rows on their way. -/
def FrameGoesOn (before : List Byte) (s t : State) : Prop :=
  (t.consuming = true ∧ FrameStream before t) ∨
  (t.video.cphase = .idle ∧ t.outV ++ t.fifoV = before ++ frameRows s.cfg s.mem s.video.consSlot s.cfg.outH)

theorem FrameStands.displayCommitted {s t : State} (h : FrameStands s t) (hw : s.cfg.WellFormed) (hi : VideoInv s) :
    displayCommitted t = displayCommitted s := by
  rw [Safety.displayCommitted, Safety.displayCommitted, h.stream, h.busy, h.addr, h.count]
  split
  · rw [transferBytes_congr hw hi ‹_› fun a ha => h.bytes a (.inl ⟨_, ha⟩)]
  · rfl

theorem FrameStands.builtRow {s t : State} (h : FrameStands s t) (hw : s.cfg.WellFormed) :
    builtRow t = builtRow s := by
  have hsize := slSize_le hw
  rw [Safety.builtRow, Safety.builtRow, h.cphase, h.cfg, h.trow]
  split
  · exact Memory.readBytes_congr fun i hlt => h.bytes _ (.inl ⟨_, within_add_ofNat _ hsize hlt⟩)
  · rfl

/-- While a frame is consumed no more rows are built than it has. -/
theorem brow_le_outH {s : State} (hi : VideoInv s) (hc : s.consuming = true) : s.video.brow.toNat ≤ s.cfg.outH := by
  cases hphase : s.video.cphase with
  | idle | wait => simp [State.consuming, hphase] at hc
  | build => exact (hi.buildRow hphase).2.le
  | start => exact (hi.startRow hphase).2
  | drain => exact (hi.drainRow hphase).2.le

theorem FrameStands.goesOn {before : List Byte} {s t : State} (h : FrameStands s t) (hw : s.cfg.WellFormed)
    (hi : VideoInv s) (hc : s.consuming = true) (hf : FrameStream before s) : FrameGoesOn before s t := by
  have hrows := brow_le_outH hi hc
  refine .inl ⟨by rw [State.consuming, h.cphase]; exact hc, ?_⟩
  rw [FrameStream, h.displayCommitted hw hi, h.builtRow hw, h.cfg, h.consSlot, h.brow,
    frameRows_congr hw hrows fun a ha => h.bytes a (.inr ha)]
  exact hf

/-- What leaves channel V as it is leaves the frame in progress as it is. -/
theorem DisplayStands.frameStands {s t : State} (h : DisplayStands s t) (hw : s.cfg.WellFormed) (hc : t.cfg = s.cfg) :
    FrameStands s t where
  cfg := hc
  stream := by rw [h.out, h.fifo]
  busy := by rw [h.chan]
  addr := by rw [h.chan]
  count := by rw [h.chan]
  cphase := by rw [h.video]
  brow := by rw [h.video]
  trow := by rw [h.video]
  consSlot := by rw [h.video]
  bytes a ha := by
    rcases ha with ⟨k, hsl⟩ | hsnap
    · exact h.buffers hw a k (.inl hsl)
    · exact h.buffers hw a _ (.inr hsnap)

theorem clkV_stream (s : State) : (clkV s).outV ++ (clkV s).fifoV = s.outV ++ s.fifoV := by
  cases he : s.chanV.smEn with
  | false => rw [clkV_of_stopped he]
  | true =>
    cases hl : s.tgV.loaded with
    | false =>
      cases hq : s.fifoV with
      | nil => rw [clkV_of_empty_nil he hl hq, hq]
      | cons b rest => rw [clkV_of_empty_cons he hl hq]; simp [loadV]
    | true =>
      rcases Nat.lt_or_ge (s.tgV.ctr.toNat + 1) s.chanV.div.toNat with hc | hc
      · rw [clkV_of_counting he hl hc]
      cases hh : s.tgV.half with
      | low => rw [clkV_of_low he hl hc hh]
      | high =>
        rw [clkV_of_high he hl hc hh]
        by_cases hslot : s.tgV.slot.val = 7
        · cases hq : s.fifoV with
          | nil => rw [nextSlotV_of_last_nil (s := beginLowV s) hslot hq, ← hq]; rfl
          | cons b rest => rw [nextSlotV_of_last_cons (s := beginLowV s) hslot hq]; simp [loadV, beginLowV]
        · rw [nextSlotV_of_next (s := beginLowV s) hslot]; rfl

/-- An edge of `clk` moves bytes from the FIFO to the panel and touches nothing else of the frame. -/
theorem clkEdge_frameStands (s : State) : FrameStands s (clkEdge s) := by
  have hstream : (clkEdge s).outV ++ (clkEdge s).fifoV = s.outV ++ s.fifoV := by
    cases hh : s.halted with
    | true => rw [clkEdge_of_halted hh]
    | false =>
      obtain ⟨-, hfifo, hout, -⟩ := clkA_video s
      rw [clkEdge_of_live hh, clkV_stream, hfifo, hout]
  obtain ⟨a, b, c, d, e, f, g, h, -, -⟩ := clkEdge_fields s
  rw [h] at hstream ⊢
  exact ⟨rfl, hstream, rfl, rfl, rfl, rfl, rfl, rfl, rfl, fun _ _ => rfl⟩

/-- While a frame is consumed only SF_BUILD changes a byte the frame rests on (45_frame_handoff R305). -/
theorem exec_keeps_frame_bytes {i : Instr} {s t : State} (hs : Sound s) (hi : VideoInv s) (hc : s.consuming = true)
    (h : exec i s = .next t) (hbuild : i ≠ .sfBuild) {a : Word} (ha : InFrame s a) : t.mem.read a = s.mem.read a := by
  have hfill : (fillBuffer s).mem.read a = s.mem.read a := read_fillBuffer_of_not_in_fill hs fun hin => by
    rcases ha with ⟨k, hsl⟩ | hsnap
    · exact abuf_not_sl hs.config hin hsl
    · exact abuf_not_snap hs.config hin hsnap
  rcases exec_mem_cases hs h with hsame | ⟨hwriter, -⟩
  · rw [hsame]
  have hrun := h
  replace h := exec_cases h
  cases h with
  | same _ h | refused _ _ _ h | queueFault _ _ _ _ _ h => subst h; rfl
  | initA _ _ h => exact h ▸ ((initA_displayStands s).frameStands hs.config rfl).bytes a ha
  | initV _ hn _ => exact absurd hc (by simp [consuming_eq_false (.inl (hi.uninit hn).2)])
  | queueBusy _ _ _ _ _ h => exact h ▸ hfill
  | queueIdle _ _ _ _ _ h => rw [(swapAndStart_ok h).2]; exact hfill
  | copy _ _ h =>
    rcases ha with ⟨k, hsl⟩ | hsnap
    · exact h ▸ Memory.read_copy_of_not_within hs.memory (snapSize_le hs.config) (sl_not_snap hs.config hsl)
    · exact rfCopy_keeps_read_slot hs hi hc hrun hsnap
  | build => exact absurd rfl hbuild
  | _ => simp at hwriter

theorem displayCommitted_of_idle {s : State} (h : s.chanV.dmaBusy = false) :
    displayCommitted s = s.outV ++ s.fifoV := by
  simp [displayCommitted, h]

theorem builtRow_of_ne_start {s : State} (h : s.video.cphase ≠ .start) : builtRow s = [] := if_neg h

/-- SF_BUILD puts the next row of the frame into the Scanline Buffer that no transfer reads. -/
theorem build_frameStream {before : List Byte} {s : State} (hs : Sound s) (hi : VideoInv s)
    (hc : s.video.cphase = .build) (hf : FrameStream before s) :
    FrameStream before { s with
      mem := s.mem.writeBytes (slAddr s.cfg (rowParity s.video.brow))
        (rowBytes s.cfg s.mem s.video.consSlot s.video.brow.toNat)
      video := { s.video with brow := s.video.brow + 1#16, cphase := .start } } := by
  obtain ⟨hrow, hlt⟩ := hi.buildRow hc
  have hmax := hs.config.outH_pos.2
  have hsucc : (s.video.brow + 1#16).toNat = s.video.brow.toNat + 1 := by
    simp only [BitVec.toNat_add, BitVec.toNat_ofNat]; omega
  generalize hmem : s.mem.writeBytes (slAddr s.cfg (rowParity s.video.brow))
    (rowBytes s.cfg s.mem s.video.consSlot s.video.brow.toNat) = m
  have hother : ∀ a, ¬ Within a (slAddr s.cfg (rowParity s.video.brow)) (slSize s.cfg) → m.read a = s.mem.read a :=
    fun a ha => hmem ▸ read_writeBytes_row_of_not_within hs.config hs.memory ha
  have htransfer : s.chanV.dmaBusy = true → m.readBytes s.chanV.dmaAddr s.chanV.dmaCount.toNat =
      s.mem.readBytes s.chanV.dmaAddr s.chanV.dmaCount.toNat := fun hb =>
    transferBytes_congr hs.config hi hb fun a ha => hother a fun hin => by
      rw [rowParity_pred (hi.readsRow hb).1, ← hrow] at ha
      exact sl_not_other hs.config hin ha
  have hbuilt : m.readBytes (slAddr s.cfg (rowParity s.video.trow)) (slSize s.cfg) =
      rowBytes s.cfg s.mem s.video.consSlot s.video.brow.toNat := by
    have hlen := length_rowBytes s.cfg s.mem s.video.consSlot s.video.brow.toNat
    rw [← hrow, ← hmem, ← hlen]
    exact Memory.readBytes_writeBytes hs.memory _ (hlen ▸ slSize_le hs.config)
  have hrows : frameRows s.cfg m s.video.consSlot (s.video.brow.toNat + 1) =
      frameRows s.cfg s.mem s.video.consSlot (s.video.brow.toNat + 1) :=
    frameRows_congr hs.config hlt fun a ha => hother a fun hin => sl_not_snap hs.config hin ha
  have hcommitted : displayCommitted s = before ++ frameRows s.cfg s.mem s.video.consSlot s.video.brow.toNat := by
    rw [FrameStream, builtRow_of_ne_start (by simp [hc]), List.append_nil] at hf
    exact hf
  have hsame : displayCommitted { s with
      mem := m, video := { s.video with brow := s.video.brow + 1#16, cphase := .start } } = displayCommitted s := by
    simp only [displayCommitted]
    split
    · rw [htransfer ‹_›]
    · rfl
  rw [FrameStream, hsame, hcommitted, builtRow, if_pos rfl, hbuilt, hsucc, hrows, frameRows_succ, List.append_assoc]

/-- SF_START turns the row built into the transfer in flight. -/
theorem sfStart_frameStream {before : List Byte} {s t : State} (hw : s.cfg.WellFormed) (hc : s.video.cphase = .start)
    (hb : s.chanV.dmaBusy = false) (hh : s.halted = false) (hf : FrameStream before s) (h : exec .sfStart s = .next t) :
    t.consuming = true ∧ FrameStream before t := by
  rw [(sfStartRule s hw).1 hc hb hh, ← rowParity_eq] at h
  cases h
  rw [FrameStream, displayCommitted_of_idle hb, builtRow, if_pos hc] at hf
  have hphase : (if s.video.brow.toNat < s.cfg.outH then CPhase.build else .drain) ≠ .start := by split <;> nofun
  refine ⟨?_, ?_⟩
  · rw [consuming_eq_decide]
    change decide ((if s.video.brow.toNat < s.cfg.outH then CPhase.build else .drain) ∈ _) = true
    split <;> rfl
  · rw [FrameStream, builtRow_of_ne_start hphase, List.append_nil]
    change s.outV ++ s.fifoV ++ s.mem.readBytes _ (BitVec.ofNat 32 (slSize s.cfg)).toNat = _
    rw [toNat_ofNat_slSize hw]
    exact hf

/-- SF_FINISH finds every row of the frame on its way to the panel. -/
theorem finish_frameGoesOn {before : List Byte} {s : State} (hi : VideoInv s) (hc : s.video.cphase = .drain)
    (hb : s.chanV.dmaBusy = false) (hf : FrameStream before s) :
    FrameGoesOn before s { s with video := { s.video with pending := s.video.fresh, cphase := .idle } } := by
  rw [FrameStream, displayCommitted_of_idle hb, builtRow_of_ne_start (by simp [hc]), List.append_nil,
    (hi.drainRow hc).2] at hf
  exact .inr ⟨rfl, hf⟩

/-- A beat moves the first byte of the transfer to the end of the FIFO. -/
theorem beat_V_displayCommitted {s : State} (hi : VideoInv s) (he : beatEnabled .V s = true) :
    displayCommitted ((pushElement .V s).setChan .V ((s.chan .V).afterBeat (esz .V))) = displayCommitted s := by
  have hb : s.chanV.dmaBusy = true := busy_of_beatEnabled he
  have hcount := Chan.afterBeat_count 1 (hi.busyCount hb)
  have hrest : (if (s.chanV.afterBeat 1).dmaBusy then
      s.mem.readBytes (s.chanV.afterBeat 1).dmaAddr (s.chanV.afterBeat 1).dmaCount.toNat else []) =
      s.mem.readBytes (s.chanV.afterBeat 1).dmaAddr (s.chanV.afterBeat 1).dmaCount.toNat := by
    split
    · rfl
    · rename_i hend
      rw [Chan.afterBeat_eq_zero hb (Bool.eq_false_of_not_eq_true hend)]; rfl
  change s.outV ++ (s.fifoV ++ [s.mem.read s.chanV.dmaAddr]) ++ _ = _
  rw [displayCommitted, hb, if_pos rfl, ← hcount, Memory.readBytes_succ]
  refine (congrArg _ hrest).trans ?_
  simp [Chan.afterBeat]

/-- An instruction other than STOP V lets the frame in progress go on. -/
theorem exec_frameGoesOn {before : List Byte} {i : Instr} {s t : State} (hs : Sound s) (hi : VideoInv s)
    (hc : s.consuming = true) (hf : FrameStream before s) (h : exec i s = .next t) (hstop : i ≠ .stop .V) :
    FrameGoesOn before s t := by
  have hstands : FrameStands s t → FrameGoesOn before s t := fun hst => hst.goesOn hs.config hi hc hf
  have hbytes := fun (hb : i ≠ .sfBuild) a => exec_keeps_frame_bytes hs hi hc h hb (a := a)
  have hrun := h
  replace h := exec_cases h
  cases h with
  | initV _ hn _ => exact absurd hc (by simp [consuming_eq_false (.inl (hi.uninit hn).2)])
  | send hr _ _ => exact absurd hc (by simp [consuming_eq_false (.inl (by simpa [State.busy] using hr.free))])
  | take hwait _ _ _ _ => exact absurd hc (by simp [consuming_eq_false (.inr hwait)])
  | initA _ _ h => exact hstands (h ▸ (initA_displayStands s).frameStands hs.config rfl)
  | start ch _ _ h =>
    obtain ⟨a, b, c, hst⟩ := startChan_fields ch s
    refine hstands ?_
    rw [h, hst]
    cases ch <;> exact ⟨rfl, rfl, rfl, rfl, rfl, rfl, rfl, rfl, rfl, fun _ _ => rfl⟩
  | stop ch _ _ h =>
    cases ch with
    | A => exact hstands (h ▸ (stopChan_A_displayStands s).frameStands hs.config rfl)
    | V => exact absurd rfl hstop
  | beat ch he h =>
    subst h
    cases ch with
    | A => exact hstands ⟨rfl, rfl, rfl, rfl, rfl, rfl, rfl, rfl, rfl, hbytes nofun⟩
    | V => exact .inl ⟨hc, by rw [FrameStream, beat_V_displayCommitted hi he]; exact hf⟩
  | emitV b rest _ _ hq h =>
    subst h
    exact hstands ⟨rfl, by simp [hq], rfl, rfl, rfl, rfl, rfl, rfl, rfl, hbytes nofun⟩
  | build hp _ h => exact .inl ⟨by rw [h]; rfl, h ▸ build_frameStream hs hi hp hf⟩
  | sfStart hp hb hh _ => exact .inl (sfStart_frameStream hs.config hp hb hh hf hrun)
  | finish hp hb _ h => exact h ▸ finish_frameGoesOn hi hp hb hf
  | queueIdle _ _ _ _ _ h | airqRestart _ _ _ h =>
    obtain ⟨-, rfl⟩ := swapAndStart_ok h
    exact hstands ⟨rfl, rfl, rfl, rfl, rfl, rfl, rfl, rfl, rfl, hbytes nofun⟩
  | same _ h | refused _ _ _ h =>
    subst h; exact hstands ⟨rfl, rfl, rfl, rfl, rfl, rfl, rfl, rfl, rfl, fun _ _ => rfl⟩
  | queueFault _ _ _ _ _ h | airqFault _ _ _ _ h | queueBusy _ _ _ _ _ h | bufferReady _ _ h | render _ _ _ h
  | emitA _ _ _ _ _ h | silence _ _ _ h | airqIdle _ _ _ h | copy _ _ h | publish _ _ h =>
    subst h; exact hstands ⟨rfl, rfl, rfl, rfl, rfl, rfl, rfl, rfl, rfl, hbytes nofun⟩

/-- The instruction a step runs is no STOP V: `KeepsFrame` shuts out its word, and it is no internal step. -/
theorem RunBy.ne_stop_V {s : State} {i : Instr} (hk : KeepsFrame s) (h : RunBy s i) : i ≠ .stop .V := by
  rintro rfl
  cases h with
  | event code ht hd he => cases he
  | command p q off w rest ht hp hq hd ha hb hh =>
    obtain ⟨rfl, -⟩ := decodeCommand_ok_iff.mp hd
    rw [KeepsFrame, ht] at hk
    simp only [hp] at hk
    exact hk rfl

/-- A core's store that keeps host duty 1 changes no byte the frame rests on. -/
theorem store_frameStands {s : State} (hm : s.mem.wf = true) {a v : Word} {w : Width} (hout : StoreOutside s.cfg a w) :
    FrameStands s { s with mem := s.mem.writeWidth a w v } := by
  refine ⟨rfl, rfl, rfl, rfl, rfl, rfl, rfl, rfl, rfl, fun b hb => ?_⟩
  change (s.mem.writeWidth a w v).read b = _
  rw [Memory.read_writeWidth hm, if_neg fun hin => hout b hin hb.inBuffers]

theorem SameBlock.frameStands {s t : State} (h : SameBlock s t) : FrameStands s t := by
  obtain ⟨e, rfl⟩ := h.exists
  exact ⟨rfl, rfl, rfl, rfl, rfl, rfl, rfl, rfl, rfl, fun _ _ => rfl⟩

/-- Settles O43: an instruction keeps the stream by `exec_frameGoesOn`, an edge of `clk` and every other step that
`KeepsFrame` admits let the frame stand. -/
theorem stepKeepsFrameStream : Obligations.StepKeepsFrameStream := by
  intro s t before hs hi hk hc hf h
  have hstands : ∀ s0, SameBlock s s0 → FrameStands s0 t → FrameGoesOn before s t := by
    intro s0 h0 hst
    have hi0 := hi.of_stand h0.pipelinesStand
    obtain ⟨e, rfl⟩ := h0.exists
    exact hst.goesOn hs.config hi0 hc hf
  cases (step_cases h).2 with
  | idle h => exact hstands s (.refl s) h.frameStands
  | raised f _ h =>
    obtain ⟨e, rfl⟩ := h.exists
    exact hstands s (.refl s) ⟨rfl, rfl, rfl, rfl, rfl, rfl, rfl, rfl, rfl, fun _ _ => rfl⟩
  | ran i s0 h0 hrun h =>
    have hi0 := hi.of_stand h0.pipelinesStand
    obtain ⟨e, rfl⟩ := h0.exists
    exact exec_frameGoesOn (s := { s with env := e }) ⟨hs.config, hs.memory⟩ hi0 hc hf h (hrun.ne_stop_V hk)
  | wrote s0 h0 off v h =>
    obtain ⟨p0, p1, hwrite⟩ := writeReg_fields s0 off v
    refine hstands s0 h0 ?_
    rw [h, hwrite]
    exact ⟨rfl, rfl, rfl, rfl, rfl, rfl, rfl, rfl, rfl, fun _ _ => rfl⟩
  | stored s0 h0 p a w v rest ht hp h =>
    rw [KeepsFrame, ht] at hk
    simp only [hp] at hk
    have hstand := h0.pipelinesStand
    exact hstands s0 h0 (h ▸ store_frameStands (hstand.memory hs.memory) (hstand.cfg ▸ hk))
  | clocked s0 h0 _ h => exact hstands s0 h0 (h ▸ clkEdge_frameStands s0)
  | reset e ht _ => rw [KeepsFrame, ht] at hk; exact hk.elim

end Sys2Proof.Machine
end
